-- ==== Sys2Proof/Word.lean ====
section
/-! DEFINITION. The word types of the codec core: what the spec treats as bits of a fixed width
(`00_scope.md` R8, R11). -/

namespace Sys2Proof

/-- An unsigned 8-bit value: a label code, an 8-bit operand, one character of a string. -/
abbrev Byte := BitVec 8

/-- A 32-bit value: a wire word (R60) or a 32-bit request slot (R71). -/
abbrev Word := BitVec 32

/-- A 19-bit data field, ARINC bits 11 to 29 (R63). `data[0]` is ARINC bit 11. -/
abbrev DataField := BitVec 19

/-- The 64 bits of an IEEE 754 binary64 value (R74). -/
abbrev F64 := BitVec 64

/-- A string: 8-bit characters, first character first, no terminator (R44). -/
abbrev Bytes := List Byte

end Sys2Proof
end

