-- ==== Sys2Proof/Config.lean ====
section
/-! DEFINITION. The types of what is configured for the life of the block: the Label ROM and the two
parameters TIE and SSM_TABLE (`00_scope.md` R9, `10_state.md` R24). Their default values stand in
`Machine/Defaults.lean`. The spec leaves no value free, so no opaque constant stands here. -/

namespace Sys2Proof

/-- TIE: how BNR_TO_FIELD rounds an exact half (R9, R12). -/
inductive Tie where
  | tiesToEven
  | tiesAway
deriving DecidableEq, Repr

/-- The encoding kinds, a closed set of three (R16, R101). -/
inductive Kind where
  | bnr
  | bcd
  | discrete
deriving DecidableEq, Repr

/-- The SSM statuses (R85). -/
inductive SsmStatus where
  | failureWarning
  | noComputedData
  | functionalTest
  | normalOperation
  | plus
  | minus
deriving DecidableEq, Repr

/-- The tag of a calendar value and of a layout: Date or Time (R75, R170). -/
inductive CalTag where
  | date
  | time
deriving DecidableEq, Repr

/-- One field descriptor of a layout (R170): the tens group starts at data bit `t` and has `tw` bits,
the units group starts at data bit `u` and has 4 bits, and the legal range is `[lo, hi]`. -/
structure FieldDesc where
  t : Nat
  tw : Nat
  u : Nat
  lo : Nat
  hi : Nat
deriving DecidableEq, Repr

/-- A layout descriptor (R170): a tag and three field descriptors in the order of the calendar record. -/
structure Layout where
  tag : CalTag
  f1 : FieldDesc
  f2 : FieldDesc
  f3 : FieldDesc
deriving DecidableEq, Repr

/-- What an entry holds for its encoding kind (R101): a resolution if and only if BNR, a layout if
and only if BCD. -/
inductive Encoding where
  | bnr (res : F64)
  | bcd (layout : Layout)
  | discrete
deriving DecidableEq, Repr

/-- A label entry of the Label ROM (R101). `width` is the data width `W`. -/
structure LabelEntry where
  code : Byte
  name : Bytes
  units : Bytes
  width : Nat
  encoding : Encoding
deriving DecidableEq, Repr

/-- `e.kind` (R101). -/
def LabelEntry.kind (e : LabelEntry) : Kind :=
  match e.encoding with
  | .bnr _ => .bnr
  | .bcd _ => .bcd
  | .discrete => .discrete

/-- The content of the Label ROM: the slots that hold an entry, each with its address, addresses
strictly rising; every other slot is `none` (R25, R100). DESIGN CHOICE (log entry 5). -/
abbrev Rom := List (Byte × LabelEntry)

/-- SSM_TABLE: for each encoding kind, the status of SSM codes 0 to 3 (R200). -/
structure SsmTable where
  bnr : Vector SsmStatus 4
  bcd : Vector SsmStatus 4
  discrete : Vector SsmStatus 4
deriving DecidableEq, Repr

end Sys2Proof
end

