-- ==== Sys2Proof/Machine/Binary64.lean ====
section
/-! DEFINITION. Exact rationals, IEEE 754 binary64 values, and the two roundings of the spec: `rne`
and `to_f64` (`00_scope.md` R11, R12; `30_encoding.md` R74). -/

namespace Sys2Proof.Machine

/-- An exact rational `num / den`, with `den` > 0 wherever the model makes one from a well-formed
ROM. -/
structure Ratio where
  num : Int
  den : Nat
deriving DecidableEq, Repr

/-- `x / r`, exact (R11), for a divisor above 0. -/
def Ratio.div (x r : Ratio) : Ratio := { num := x.num * r.den, den := x.den * r.num.toNat }

/-- `n * r`, exact (R151). -/
def Ratio.times (n : Int) (r : Ratio) : Ratio := { num := n * r.num, den := r.den }

/-- `rne(q)`: the integer nearest `q`; an exact half goes to the even neighbour or to the one of
larger magnitude, as TIE says (R12). -/
def rne (tie : Tie) (q : Ratio) : Int :=
  let k := q.num / q.den
  let r := q.num % q.den
  if 2 * r < q.den then k
  else if q.den < 2 * r then k + 1
  else match tie with
    | .tiesToEven => if k % 2 = 0 then k else k + 1
    | .tiesAway => if 0 ≤ k then k + 1 else k

/-! ### Reading a binary64 -/

/-- The sign bit `B[63]` (R74). -/
def F64.sign (x : F64) : Bool := x.getLsbD 63

/-- The exponent `B[62:52]` (R74). -/
def F64.exponent (x : F64) : Nat := (x.extractLsb' 52 11).toNat

/-- The fraction `B[51:0]` (R74). -/
def F64.fraction (x : F64) : Nat := (x.extractLsb' 0 52).toNat

/-- `is_finite(x)`: neither NaN nor an infinity (R12). -/
def F64.isFinite (x : F64) : Bool := F64.exponent x ≠ 2047

/-- The significand as an integer: the fraction, with the implicit leading bit of a normal value. -/
def F64.significand (x : F64) : Nat :=
  if F64.exponent x = 0 then F64.fraction x else 2 ^ 52 + F64.fraction x

/-- The exponent that goes with `significand`, biased by 1075: a subnormal has the smallest normal
one. -/
def F64.scale (x : F64) : Nat := if F64.exponent x = 0 then 1 else F64.exponent x

/-- The exact value of a finite binary64: `± significand * 2^(scale - 1075)`. -/
def F64.ratio (x : F64) : Ratio :=
  let m : Int := if F64.sign x then -(F64.significand x : Int) else F64.significand x
  let s := F64.scale x
  if 1075 ≤ s then { num := m * (2 ^ (s - 1075) : Nat), den := 1 }
  else { num := m, den := 2 ^ (1075 - s) }

/-! ### Rounding to a binary64 -/

/-- The exponent `k` with `2^k <= p/d < 2^(k+1)`, for `p` and `d` above 0. -/
def floorLog2 (p d : Nat) : Int :=
  let k : Int := (p.log2 : Int) - d.log2
  if p * 2 ^ (-k).toNat < d * 2 ^ k.toNat then k - 1 else k

/-- The low 63 bits of the binary64 nearest `p/d`, ties to even. The unit in the last place is
`2^u`; rounding up to the next power of two carries into the exponent. A magnitude that rounds past
the largest finite value gives an infinity (PRESUMED, log entry 13). -/
def roundMagnitude (p d : Nat) : Nat :=
  if p = 0 then 0
  else
    let u := max (floorLog2 p d - 52) (-1074)
    let m := rne .tiesToEven { num := (p * 2 ^ (-u).toNat : Nat), den := d * 2 ^ u.toNat }
    min ((u + 1074).toNat * 2 ^ 52 + m.toNat) (2047 * 2 ^ 52)

/-- `to_f64(q)`: the binary64 nearest `q`, ties to even (R12). Zero gives +0.0 (R153). -/
def toF64 (q : Ratio) : F64 :=
  BitVec.ofBool (q.num < 0) ++ BitVec.ofNat 63 (roundMagnitude q.num.natAbs q.den)

end Sys2Proof.Machine
end

