-- ==== Sys2Proof/Syntax.lean ====
section
/-! DEFINITION. The request frame as it stands on the port (R71), and the sixteen operations with
their operands (R77, R78), one constructor per row of `spec/opcode_table.json`. -/

namespace Sys2Proof

/-- A request frame: five slots (R71). `S` holds 0 to 255 bytes (R76). -/
structure Frame where
  H : Word
  A : Word
  B : F64
  C : Word
  S : Bytes
deriving DecidableEq, Repr

/-- A calendar value: day, month, year for a Date, hour, minute, second for a Time (R75). -/
structure Calendar where
  tag : CalTag
  f1 : Byte
  f2 : Byte
  f3 : Byte
deriving DecidableEq, Repr

/-- ENCODE's value, selected by `vtag` (R80). -/
inductive Value where
  | physical (x : F64)
  | calendar (c : Calendar)
  | raw (r : Word)
deriving DecidableEq, Repr

/-- The operations (R77). A constructor holds the operands its format reads (R78), each at the width
the format gives it. -/
inductive Instr where
  | lookup (code : Byte)
  | labelRaw (code : Byte)
  | labelName (code : Byte)
  | labelUnits (code : Byte)
  | labelOctal (code : Byte)
  | octalParse (str : Bytes)
  | pack (code : Byte) (sdi : Byte) (data : Word) (ssm : Byte)
  | unpack (w : Word)
  | bnrToField (code : Byte) (x : F64)
  | bnrToPhys (code : Byte) (data : DataField)
  | bcdToField (code : Byte) (c : Calendar)
  | bcdToCal (code : Byte) (data : DataField)
  | ssmInterpret (code : Byte) (ssm : BitVec 2)
  | encode (code : Byte) (sdi : Byte) (v : Value) (ssm : Byte)
  | decode (w : Word)
  | toPhysical (code : Byte) (data : DataField)
deriving DecidableEq, Repr

end Sys2Proof
end

