-- ==== Sys2Proof/Machine/Operands.lean ====
section
/-! DEFINITION. The operand forms of the units: bit reversal, octal strings, two's-complement BNR
fields, BCD digit groups and layouts. -/

namespace Sys2Proof.Machine

/-- `reverse8(b)[i] = b[7-i]` (R12, R61, R130). -/
def reverse8 (b : Byte) : Byte :=
  BitVec.ofBool (b.getLsbD 0) ++ BitVec.ofBool (b.getLsbD 1) ++ BitVec.ofBool (b.getLsbD 2)
    ++ BitVec.ofBool (b.getLsbD 3) ++ BitVec.ofBool (b.getLsbD 4) ++ BitVec.ofBool (b.getLsbD 5)
    ++ BitVec.ofBool (b.getLsbD 6) ++ BitVec.ofBool (b.getLsbD 7)

/-! ### Octal strings -/

/-- The octal digit character of a 3-bit value (R116). -/
def octalDigit (d : Nat) : Byte := BitVec.ofNat 8 (0x30 + d)

/-- `octal3(c)`: `[0x30 + c[7:6], 0x30 + c[5:3], 0x30 + c[2:0]]` (R116). -/
def octal3 (c : Byte) : Bytes :=
  [octalDigit (c.extractLsb' 6 2).toNat, octalDigit (c.extractLsb' 3 3).toNat,
    octalDigit (c.extractLsb' 0 3).toNat]

/-- A character `'0'` to `'7'` (R115). -/
def isOctalDigit (b : Byte) : Bool := 0x30 ≤ b.toNat && b.toNat ≤ 0x37

/-! ### BNR fields -/

/-- `field(n) = n mod 2^W`, in `data[W-1:0]` with `data[18:W]` = 0 (R69, R150). -/
def bnrField (width : Nat) (n : Int) : DataField := (BitVec.ofInt width n).setWidth 19

/-- `sext_W(data[W-1:0])` (R11, R150); `data[18:W]` is ignored (R153). -/
def bnrInteger (width : Nat) (data : DataField) : Int := (data.setWidth width).toInt

/-- The `W`-bit signed range: `-2^(W-1) <= n <= 2^(W-1) - 1` (R150, R152). -/
def inSignedRange (width : Nat) (n : Int) : Bool :=
  -(2 ^ (width - 1) : Int) ≤ n && n ≤ 2 ^ (width - 1) - 1

/-! ### BCD digit groups -/

/-- The width of a units digit group (R170, R171). -/
def unitsWidth : Nat := 4

/-- `grp(data, p, n) = data[p+n-1 : p]` (R170). -/
def grp (data : DataField) (p n : Nat) : Nat := (data.extractLsb' p n).toNat

/-- `data[p+n-1 : p] <- v` (R175): the group's bits become `v mod 2^n`, every other bit stays. -/
def setGrp (data : DataField) (p n v : Nat) : DataField :=
  let mask : DataField := BitVec.ofNat 19 (2 ^ n - 1) <<< p
  (data &&& ~~~mask) ||| (BitVec.ofNat 19 (v % 2 ^ n) <<< p)

end Sys2Proof.Machine

namespace Sys2Proof

open Machine

/-- The tens digit of a field held in a data field (R170). -/
def FieldDesc.tens (f : FieldDesc) (data : DataField) : Nat := grp data f.t f.tw

/-- The units digit of a field held in a data field (R170). -/
def FieldDesc.units (f : FieldDesc) (data : DataField) : Nat := grp data f.u unitsWidth

/-- Both digit groups hold a decimal digit (R176). -/
def FieldDesc.digitsValid (f : FieldDesc) (data : DataField) : Bool :=
  f.tens data ≤ 9 && f.units data ≤ 9

/-- The field value `10 * tens + units` (R170, R176). -/
def FieldDesc.value (f : FieldDesc) (data : DataField) : Nat := 10 * f.tens data + f.units data

/-- The legal range of the field (R174). -/
def FieldDesc.inRange (f : FieldDesc) (v : Nat) : Bool := f.lo ≤ v && v ≤ f.hi

/-- The tens digit of `v` fits the tens group (R175). -/
def FieldDesc.fits (f : FieldDesc) (v : Nat) : Bool := v / 10 < 2 ^ f.tw

/-- Write the two digits of `v` into the field's groups (R175). -/
def FieldDesc.write (f : FieldDesc) (v : Nat) (data : DataField) : DataField :=
  setGrp (setGrp data f.t f.tw (v / 10)) f.u unitsWidth (v % 10)

/-- The six digit groups of a layout as (least significant bit, width), field by field, tens first
(R170, R84). -/
def Layout.groups (L : Layout) : List (Nat × Nat) :=
  [(L.f1.t, L.f1.tw), (L.f1.u, unitsWidth), (L.f2.t, L.f2.tw), (L.f2.u, unitsWidth),
    (L.f3.t, L.f3.tw), (L.f3.u, unitsWidth)]

end Sys2Proof
end

