-- ==== Sys2Proof/WellFormed.lean ====
section
/-! DEFINITION. Which operations a request frame can carry. Every operand but a string has the width
its type gives it; a string has a length in 0 to 255 (R76). Whether a ROM is well-formed (R102) is
`romWf` of `Machine/Rom.lean`. -/

namespace Sys2Proof

/-- `S.len` is an 8-bit length (R71, R76). -/
def stringFits (s : Bytes) : Bool := s.length < 256

/-- An operation a frame can carry (R76). -/
def Instr.wellFormed : Instr → Bool
  | .lookup _ => true
  | .labelRaw _ => true
  | .labelName _ => true
  | .labelUnits _ => true
  | .labelOctal _ => true
  | .octalParse str => stringFits str
  | .pack _ _ _ _ => true
  | .unpack _ => true
  | .bnrToField _ _ => true
  | .bnrToPhys _ _ => true
  | .bcdToField _ _ => true
  | .bcdToCal _ _ => true
  | .ssmInterpret _ _ => true
  | .encode _ _ _ _ => true
  | .decode _ => true
  | .toPhysical _ _ => true

end Sys2Proof
end

