-- ==== Sys2Proof/Decode.lean ====
section
/-! DEFINITION. Decoding a request frame into an operation, total on every frame and rejecting by
name (R72 to R80, R90), and the encoder that writes the frame of an operation (R72, R93). -/

namespace Sys2Proof

/-- The reserved operand encodings that make a request refused (R90), and the string that no frame
can hold (R76). -/
inductive Reserved where
  /-- `H[7:6]` is not 0 (R90). -/
  | headerBits
  /-- op = ENCODE and `vtag` = 3 (R80, R90). -/
  | valueTag
  /-- The format reads `C` and `C[7:1]` is not 0 (R90). -/
  | calendarBits
  /-- The format is LD and `A[31:19]` is not 0 (R90). -/
  | dataBits
  /-- op = SSM_INTERPRET and `H.ssm[7:2]` is not 0 (R90). -/
  | ssmBits
  /-- The format reads `S` and it holds more than 255 bytes: not a frame of the port (R76).
  DESIGN CHOICE (log entry 8). -/
  | oversizeString
deriving DecidableEq, Repr

/-! ### The fields of the frame -/

/-- `H.op` (R72). -/
def Frame.op (f : Frame) : BitVec 4 := f.H.extractLsb' 0 4
/-- `H.vtag` (R72). -/
def Frame.vtag (f : Frame) : BitVec 2 := f.H.extractLsb' 4 2
/-- The reserved bits `H[7:6]` (R72). -/
def Frame.reserved (f : Frame) : BitVec 2 := f.H.extractLsb' 6 2
/-- `H.code` (R72). -/
def Frame.code (f : Frame) : Byte := f.H.extractLsb' 8 8
/-- `H.sdi` (R72). -/
def Frame.sdi (f : Frame) : Byte := f.H.extractLsb' 16 8
/-- `H.ssm` (R72). -/
def Frame.ssm (f : Frame) : Byte := f.H.extractLsb' 24 8

/-- The data operand of format LD: `A[18:0]`, with `A[31:19]` = 0 (R73, R78). -/
def Frame.dataOperand (f : Frame) : Except Reserved DataField :=
  if f.A.extractLsb' 19 13 = 0 then .ok (f.A.extractLsb' 0 19) else .error .dataBits

/-- `ctag` of slot `C`: 0 = Date, 1 = Time (R75). -/
def CalTag.ofBit (b : Bool) : CalTag := if b then .time else .date

/-- The bit of `ctag` (R75). -/
def CalTag.bit : CalTag → Bool
  | .date => false
  | .time => true

/-- The calendar operand in slot `C`, with `C[7:1]` = 0 (R75). -/
def Frame.calendarOperand (f : Frame) : Except Reserved Calendar :=
  if f.C.extractLsb' 1 7 = 0 then
    .ok { tag := CalTag.ofBit (f.C.getLsbD 0), f1 := f.C.extractLsb' 8 8,
          f2 := f.C.extractLsb' 16 8, f3 := f.C.extractLsb' 24 8 }
  else .error .calendarBits

/-- The SSM operand of SSM_INTERPRET: `H.ssm[1:0]`, with `H.ssm[7:2]` = 0 (R78). -/
def Frame.ssmOperand (f : Frame) : Except Reserved (BitVec 2) :=
  if f.ssm.extractLsb' 2 6 = 0 then .ok (f.ssm.extractLsb' 0 2) else .error .ssmBits

/-- The string operand in slot `S` (R76). -/
def Frame.stringOperand (f : Frame) : Except Reserved Bytes :=
  if stringFits f.S then .ok f.S else .error .oversizeString

/-- The value operand of ENCODE, selected by `vtag` (R80): its bits are `H[5]` and `H[4]`. -/
def Frame.valueOperand (f : Frame) : Except Reserved Value :=
  match f.H.getLsbD 5, f.H.getLsbD 4 with
  | false, false => .ok (.physical f.B)
  | false, true => f.calendarOperand.map .calendar
  | true, false => .ok (.raw f.A)
  | true, true => .error .valueTag

/-- The operation that `H[3:0]` selects, with the operands its format reads (R77, R78). All sixteen
values name operations (R89). -/
def decodeOp (f : Frame) : Except Reserved Instr :=
  match f.H.getLsbD 3, f.H.getLsbD 2, f.H.getLsbD 1, f.H.getLsbD 0 with
  | false, false, false, false => .ok (.lookup f.code)
  | false, false, false, true => .ok (.labelRaw f.code)
  | false, false, true, false => .ok (.labelName f.code)
  | false, false, true, true => .ok (.labelUnits f.code)
  | false, true, false, false => .ok (.labelOctal f.code)
  | false, true, false, true => f.stringOperand.map .octalParse
  | false, true, true, false => .ok (.pack f.code f.sdi f.A f.ssm)
  | false, true, true, true => .ok (.unpack f.A)
  | true, false, false, false => .ok (.bnrToField f.code f.B)
  | true, false, false, true => f.dataOperand.map (.bnrToPhys f.code)
  | true, false, true, false => f.calendarOperand.map (.bcdToField f.code)
  | true, false, true, true => f.dataOperand.map (.bcdToCal f.code)
  | true, true, false, false => f.ssmOperand.map (.ssmInterpret f.code)
  | true, true, false, true => f.valueOperand.map (.encode f.code f.sdi · f.ssm)
  | true, true, true, false => .ok (.decode f.A)
  | true, true, true, true => f.dataOperand.map (.toPhysical f.code)

/-- Decode a request frame. Every format requires `H[7:6]` = 0 (R78, R90). -/
def decode (f : Frame) : Except Reserved Instr :=
  if f.reserved = 0 then decodeOp f else .error .headerBits

/-! ### The encoder -/

/-- The operation code of an instruction (R77). -/
def Instr.opcode : Instr → BitVec 4
  | .lookup _ => 0x0
  | .labelRaw _ => 0x1
  | .labelName _ => 0x2
  | .labelUnits _ => 0x3
  | .labelOctal _ => 0x4
  | .octalParse _ => 0x5
  | .pack _ _ _ _ => 0x6
  | .unpack _ => 0x7
  | .bnrToField _ _ => 0x8
  | .bnrToPhys _ _ => 0x9
  | .bcdToField _ _ => 0xA
  | .bcdToCal _ _ => 0xB
  | .ssmInterpret _ _ => 0xC
  | .encode _ _ _ _ => 0xD
  | .decode _ => 0xE
  | .toPhysical _ _ => 0xF

/-- The header slot (R72), its reserved bits 0. -/
def header (op : BitVec 4) (vtag : BitVec 2) (code sdi ssm : Byte) : Word :=
  ssm ++ sdi ++ code ++ 0#2 ++ vtag ++ op

/-- Slot `C` of a calendar value (R75), its reserved bits 0. -/
def Calendar.toSlot (c : Calendar) : Word :=
  c.f3 ++ c.f2 ++ c.f1 ++ 0#7 ++ BitVec.ofBool c.tag.bit

/-- The value tag of ENCODE's value (R80). -/
def Value.vtag : Value → BitVec 2
  | .physical _ => 0
  | .calendar _ => 1
  | .raw _ => 2

/-- A frame with header `h` and every other slot 0 or empty (R93). -/
def Frame.ofHeader (h : Word) : Frame := { H := h, A := 0, B := 0, C := 0, S := [] }

/-- ENCODE's frame: the value stands in the slot its tag names (R80). -/
def encodeValue (code sdi : Byte) (ssm : Byte) (v : Value) : Frame :=
  let f := Frame.ofHeader (header 0xD v.vtag code sdi ssm)
  match v with
  | .physical x => { f with B := x }
  | .calendar c => { f with C := c.toSlot }
  | .raw r => { f with A := r }

/-- The frame of an instruction. Fields its format does not read are 0 (R93). -/
def encode : Instr → Frame
  | .lookup code => .ofHeader (header 0x0 0 code 0 0)
  | .labelRaw code => .ofHeader (header 0x1 0 code 0 0)
  | .labelName code => .ofHeader (header 0x2 0 code 0 0)
  | .labelUnits code => .ofHeader (header 0x3 0 code 0 0)
  | .labelOctal code => .ofHeader (header 0x4 0 code 0 0)
  | .octalParse str => { Frame.ofHeader (header 0x5 0 0 0 0) with S := str }
  | .pack code sdi data ssm => { Frame.ofHeader (header 0x6 0 code sdi ssm) with A := data }
  | .unpack w => { Frame.ofHeader (header 0x7 0 0 0 0) with A := w }
  | .bnrToField code x => { Frame.ofHeader (header 0x8 0 code 0 0) with B := x }
  | .bnrToPhys code data => { Frame.ofHeader (header 0x9 0 code 0 0) with A := data.setWidth 32 }
  | .bcdToField code c => { Frame.ofHeader (header 0xA 0 code 0 0) with C := c.toSlot }
  | .bcdToCal code data => { Frame.ofHeader (header 0xB 0 code 0 0) with A := data.setWidth 32 }
  | .ssmInterpret code ssm => .ofHeader (header 0xC 0 code 0 (ssm.setWidth 8))
  | .encode code sdi v ssm => encodeValue code sdi ssm v
  | .decode w => { Frame.ofHeader (header 0xE 0 0 0 0) with A := w }
  | .toPhysical code data => { Frame.ofHeader (header 0xF 0 code 0 0) with A := data.setWidth 32 }

/-! ### A frame written as one number

The opcode table numbers the bits of the header H, bit 0 least significant. The slots A, B, C, then
`S.len` and the bytes of S count on from it. DESIGN CHOICE: the spec's slots are not a byte sequence
(R42), so this order is the model's, for the host's table words only (log entry 9). -/

/-- The first `n` bytes of a number, least significant first. -/
def bytesOfNat : Nat → Nat → Bytes
  | 0, _ => []
  | n + 1, w => BitVec.ofNat 8 w :: bytesOfNat n (w / 256)

/-- The frame whose slots, laid end to end from H, are the number `w` (log entry 9). -/
def Frame.ofNat (w : Nat) : Frame :=
  { H := BitVec.ofNat 32 w
    A := BitVec.ofNat 32 (w >>> 32)
    B := BitVec.ofNat 64 (w >>> 64)
    C := BitVec.ofNat 32 (w >>> 128)
    S := bytesOfNat ((w >>> 160) % 256) (w >>> 168) }

/-- The frame of a table word of `nbits` bits: every bit above them is 0. -/
def frameOfTableWord (nbits w : Nat) : Frame := Frame.ofNat (w % 2 ^ nbits)

/-- The instruction the decoder reads from a table word. -/
def decodeTableWord (nbits w : Nat) : Option Instr :=
  match decode (frameOfTableWord nbits w) with
  | .ok i => some i
  | .error _ => none

end Sys2Proof
end

