-- ==== Sys2Proof/Machine/Defaults.lean ====
section
/-! DEFINITION. The default values of the parameters: ROM (R104 to R109), TIE (R9) and SSM_TABLE (R201),
with the default BCD layouts (R172, R173). The spec marks some of them as general knowledge (log
entry 4). -/

namespace Sys2Proof.Machine

/-- The DATE layout (R172): day, month, year. -/
def dateLayout : Layout :=
  { tag := .date
    f1 := { t := 17, tw := 2, u := 13, lo := 1, hi := 31 }
    f2 := { t := 12, tw := 1, u := 8, lo := 1, hi := 12 }
    f3 := { t := 4, tw := 4, u := 0, lo := 0, hi := 99 } }

/-- The TIME layout (R173): hour, minute, second. -/
def timeLayout : Layout :=
  { tag := .time
    f1 := { t := 18, tw := 1, u := 14, lo := 0, hi := 23 }
    f2 := { t := 11, tw := 3, u := 7, lo := 0, hi := 59 }
    f3 := { t := 4, tw := 3, u := 0, lo := 0, hi := 59 } }

/-- Entry 012: `"Ground Speed"`, `"knots"`, BNR, W 16, 0.125 (R104, R105). -/
def groundSpeed : LabelEntry :=
  { code := 10
    name := [0x47, 0x72, 0x6F, 0x75, 0x6E, 0x64, 0x20, 0x53, 0x70, 0x65, 0x65, 0x64]
    units := [0x6B, 0x6E, 0x6F, 0x74, 0x73]
    width := 16
    encoding := .bnr 0x3FC0000000000000 }

/-- Entry 150: `"UTC Time"`, no units, BCD, W 19, TIME (R104, R106). -/
def utcTime : LabelEntry :=
  { code := 104
    name := [0x55, 0x54, 0x43, 0x20, 0x54, 0x69, 0x6D, 0x65]
    units := []
    width := 19
    encoding := .bcd timeLayout }

/-- Entry 203: `"Pressure Altitude"`, `"feet"`, BNR, W 18, 1.0 (R104, R107). -/
def pressureAltitude : LabelEntry :=
  { code := 131
    name := [0x50, 0x72, 0x65, 0x73, 0x73, 0x75, 0x72, 0x65, 0x20, 0x41, 0x6C, 0x74, 0x69, 0x74,
      0x75, 0x64, 0x65]
    units := [0x66, 0x65, 0x65, 0x74]
    width := 18
    encoding := .bnr 0x3FF0000000000000 }

/-- Entry 260: `"Date"`, no units, BCD, W 19, DATE (R104, R108). -/
def dateEntry : LabelEntry :=
  { code := 176
    name := [0x44, 0x61, 0x74, 0x65]
    units := []
    width := 19
    encoding := .bcd dateLayout }

/-- The default ROM holds exactly four entries (R104). -/
def defaultRom : Rom :=
  [(10, groundSpeed), (104, utcTime), (131, pressureAltitude), (176, dateEntry)]

/-- The default TIE (R9). -/
def defaultTie : Tie := .tiesToEven

/-- The default SSM_TABLE (R201). -/
def defaultSsmTable : SsmTable :=
  { bnr := #v[.failureWarning, .noComputedData, .functionalTest, .normalOperation]
    bcd := #v[.plus, .noComputedData, .functionalTest, .minus]
    discrete := #v[.normalOperation, .noComputedData, .functionalTest, .failureWarning] }

end Sys2Proof.Machine
end

