-- ==== Sys2Proof/Machine/State.lean ====
section
/-! DEFINITION. Failures, result records, responses, refusals, the machine's state and its reset. -/

namespace Sys2Proof.Machine

/-- The six failure kinds (R240). A failure is a defined response (R253), not a fault of the machine. -/
inductive Failure where
  | unknownLabel
  | parityError
  | outOfRange
  | unsupportedConversion
  | invalidDigit
  | invalidField
deriving DecidableEq, Repr

/-- The fields of a word, as UNPACK returns them (R83, R133). -/
structure WireFields where
  code : Byte
  sdi : BitVec 2
  data : DataField
  ssm : BitVec 2
deriving DecidableEq, Repr

/-- The DecodedWord record (R221). `cal` is present if and only if the label is BCD. -/
structure DecodedWord where
  label : LabelEntry
  sdi : BitVec 2
  data : DataField
  ssm : BitVec 2
  status : SsmStatus
  cal : Option Calendar
deriving DecidableEq, Repr

/-- The result records (R83 to R87), by shape. Their numbers on the port are in `Machine/Port.lean`. -/
inductive Result where
  /-- LOOKUP (R84). -/
  | entry (e : LabelEntry)
  /-- LABEL_RAW, OCTAL_PARSE. -/
  | code (c : Byte)
  /-- LABEL_NAME, LABEL_UNITS, LABEL_OCTAL. -/
  | string (s : Bytes)
  /-- PACK, ENCODE. -/
  | word (w : Word)
  /-- UNPACK. -/
  | fields (f : WireFields)
  /-- BNR_TO_FIELD: the signed integer `n`. -/
  | signedInt (n : Int)
  /-- BNR_TO_PHYS. -/
  | float (x : F64)
  /-- BCD_TO_FIELD. -/
  | data (d : DataField)
  /-- BCD_TO_CAL (R86). -/
  | calendar (c : Calendar)
  /-- SSM_INTERPRET (R85). -/
  | status (s : SsmStatus)
  /-- DECODE (R221). -/
  | decoded (d : DecodedWord)
  /-- TO_PHYSICAL (R87). -/
  | physical (value : F64) (units : Bytes)
deriving DecidableEq, Repr

/-- A response: a result, or a failure and nothing else (R81, R248). DESIGN CHOICE: the spec's
`Except Failure Result` under names of its own, because State must have decidable equality (log
entry 11). -/
inductive Response where
  | success (r : Result)
  | failure (f : Failure)
deriving DecidableEq, Repr

/-- The response as the spec writes it (R81). -/
def Response.ofExcept : Except Failure Result → Response
  | .ok r => .success r
  | .error f => .failure f

/-- The machine never stops with a fault: it has no trap, and a failure is a response that changes no
state (R251). DEDUCED (log entry 17). Safe: there is no constructor, so nothing raises one. -/
inductive Fault where
deriving DecidableEq, Repr

/-- Why a step has no result. -/
inductive Refusal where
  /-- An instruction whose meaning is not modelled yet; raised by exec's arm. Safe. No arm raises it. -/
  | notModelled (mnemonic : String)
  /-- The request uses a reserved operand encoding (R90); raised by step. Safe: the spec gives such a
  request no response and asks a model to refuse it. -/
  | reservedEncoding (why : Reserved)
  /-- The ROM fails the check of R102; raised by step. Safe: the spec asks a model to refuse it. -/
  | illFormedRom
deriving DecidableEq, Repr

/-- The machine's state. `rom` is the architectural state (R20); `tie` and `ssmTable` are the
parameters fixed for the life of the block (R24, log entry 3); `request` and `response` are the
model's own fields for the two ports (R70, log entry 1). -/
structure State where
  rom : Rom
  tie : Tie
  ssmTable : SsmTable
  request : Option Frame
  response : Option Response
deriving DecidableEq, Repr

/-- The state after reset: ROM holds its configured content, by default R104 (R28, R270); the
parameters have their defaults (R9); no request has been presented (log entry 1). -/
def State.reset : State :=
  { rom := defaultRom
    tie := defaultTie
    ssmTable := defaultSsmTable
    request := none
    response := none }

end Sys2Proof.Machine
end

