-- ==== Sys2Proof/Machine/Rom.lean ====
section
/-! DEFINITION. Reading the Label ROM (R41) and the check that a ROM is well-formed (R102, R170, R171). -/

namespace Sys2Proof.Machine

/-- `RomRead(code)`: the entry at `code`, or `none` (R12, R41). -/
def romRead (rom : Rom) (code : Byte) : Option LabelEntry := rom.lookup code

/-- The entry of `code`, or UnknownLabel: how every operation that needs an entry begins (R241). -/
def resolve (rom : Rom) (code : Byte) : Except Failure LabelEntry :=
  match romRead rom code with
  | some e => .ok e
  | none => .error .unknownLabel

/-- The list is in the canonical form of log entry 5: addresses strictly rising. -/
def Rom.canonical (rom : Rom) : Bool := rom.Pairwise fun p q => p.1.toNat < q.1.toNat

/-- An ASCII string of length 0 to 255 (R102 item 5). -/
def asciiString (s : Bytes) : Bool := stringFits s && s.all fun b => b.toNat < 128

/-- `res * 2^(W-1)` is at most the largest finite binary64, `(2^53 - 1) * 2^971` (R102 item 3):
compared at the scale where both are integers. -/
def resolutionBounded (width : Nat) (res : F64) : Bool :=
  let s := F64.scale res + (width - 1)
  s ≤ 2046 || F64.significand res * 2 ^ (s - 2046) ≤ 2 ^ 53 - 1

/-- A BNR resolution is finite, above 0, and no product overflows (R102 item 3). -/
def resolutionWf (width : Nat) (res : F64) : Bool :=
  F64.isFinite res && !F64.sign res && 0 < F64.significand res && resolutionBounded width res

/-- Two digit groups share no bit (R171). -/
def groupsApart (g h : Nat × Nat) : Bool := g.1 + g.2 ≤ h.1 || h.1 + h.2 ≤ g.1

end Sys2Proof.Machine

namespace Sys2Proof

open Machine

/-- A field descriptor: tens width 1 to 4 and `0 <= lo <= hi <= 99` (R170). -/
def FieldDesc.wf (f : FieldDesc) : Bool :=
  1 ≤ f.tw && f.tw ≤ 4 && f.lo ≤ f.hi && f.hi ≤ 99

/-- A layout is well-formed for width `W`: its six groups lie inside `data[W-1:0]` and do not overlap
(R171). -/
def Layout.wf (L : Layout) (width : Nat) : Bool :=
  L.f1.wf && L.f2.wf && L.f3.wf && L.groups.all (fun g => g.1 + g.2 ≤ width)
    && L.groups.Pairwise (fun g h => groupsApart g h)

end Sys2Proof

namespace Sys2Proof.Machine

/-- What R102 asks of the part of an entry that its kind decides. -/
def encodingWf (width : Nat) : Encoding → Bool
  | .bnr res => 2 ≤ width && resolutionWf width res
  | .bcd L => L.wf width
  | .discrete => true

/-- A present entry `e` at address `c` is well-formed (R102). -/
def entryWf (c : Byte) (e : LabelEntry) : Bool :=
  e.code = c && 1 ≤ e.width && e.width ≤ 19 && asciiString e.name && asciiString e.units
    && encodingWf e.width e.encoding

/-- The ROM is well-formed (R102), and the list is in canonical form (log entry 5). -/
def romWf (rom : Rom) : Bool := Rom.canonical rom && rom.all fun p => entryWf p.1 p.2

end Sys2Proof.Machine
end

