-- ==== Sys2Proof/Machine/Ops.lean ====
section
/-! DEFINITION. The shared operations over the state: presenting a request, answering one, reporting a
failure, and a step with nothing to answer. No operation writes `rom`, `tie` or `ssmTable`. -/

namespace Sys2Proof.Machine

/-- The host presents a request on the request port (R70, R262). -/
def State.present (s : State) (f : Frame) : State := { s with request := some f }

/-- The core answers the request with exactly one response; no field of the request stays (R21, R70).
Nothing else changes (R20). -/
def State.answered (s : State) (r : Response) : State :=
  { s with request := none, response := some r }

/-- A step with no request on the port: no response is on the port either (log entry 2). -/
def State.idle (s : State) : State := { s with response := none }

/-- How every operation ends: `return r` or `raise E` (R12, R81). A failure changes no state (R251);
it is a response like any other, so reporting it is this one operation. -/
def respond (s : State) (r : Except Failure Result) : Host.Outcome State Fault Refusal :=
  .next (s.answered (Response.ofExcept r))

end Sys2Proof.Machine
end

