-- ==== Sys2Proof/Machine/LabelRom.lean ====
section
/-! DEFINITION. The label operations (R110 to R116): LOOKUP, LABEL_RAW, LABEL_NAME, LABEL_UNITS,
LABEL_OCTAL, OCTAL_PARSE. -/

namespace Sys2Proof.Machine

/-- The code of a string of three octal digits in 000 to 377, else UnknownLabel (R115). -/
def parseOctal (s : Bytes) : Except Failure Byte :=
  match s with
  | [a, b, c] =>
    if isOctalDigit a && isOctalDigit b && isOctalDigit c && a.toNat ≤ 0x33 then
      .ok (BitVec.ofNat 8 (64 * (a.toNat - 0x30) + 8 * (b.toNat - 0x30) + (c.toNat - 0x30)))
    else .error .unknownLabel
  | _ => .error .unknownLabel

/-- LOOKUP (R110). -/
def execLookup (code : Byte) (s : State) : Host.Outcome State Fault Refusal :=
  respond s ((resolve s.rom code).map .entry)

/-- LABEL_RAW (R111). -/
def execLabelRaw (code : Byte) (s : State) : Host.Outcome State Fault Refusal :=
  respond s ((resolve s.rom code).map fun e => .code e.code)

/-- LABEL_NAME (R112). -/
def execLabelName (code : Byte) (s : State) : Host.Outcome State Fault Refusal :=
  respond s ((resolve s.rom code).map fun e => .string e.name)

/-- LABEL_UNITS (R113). -/
def execLabelUnits (code : Byte) (s : State) : Host.Outcome State Fault Refusal :=
  respond s ((resolve s.rom code).map fun e => .string e.units)

/-- LABEL_OCTAL (R114). -/
def execLabelOctal (code : Byte) (s : State) : Host.Outcome State Fault Refusal :=
  respond s ((resolve s.rom code).map fun e => .string (octal3 e.code))

/-- OCTAL_PARSE (R115): it does not read the ROM. -/
def execOctalParse (str : Bytes) (s : State) : Host.Outcome State Fault Refusal :=
  respond s ((parseOctal str).map .code)

end Sys2Proof.Machine
end

