-- ==== Sys2Proof/Machine/Bcd.lean ====
section
/-! DEFINITION. The BCD Converter (R170 to R176): BCD_TO_FIELD and BCD_TO_CAL. -/

namespace Sys2Proof.Machine

/-- The layout of a BCD entry, else UnsupportedConversion (R244). -/
def bcdLayout (e : LabelEntry) : Except Failure Layout :=
  match e.encoding with
  | .bnr _ => .error .unsupportedConversion
  | .bcd L => .ok L
  | .discrete => .error .unsupportedConversion

/-- Calendar value to data field, after the tag check: all ranges, then the tens widths, then the six
groups, the bits no group covers staying 0 (R175, R171). -/
def packCalendar (L : Layout) (c : Calendar) : Except Failure DataField :=
  if !(L.f1.inRange c.f1.toNat && L.f2.inRange c.f2.toNat
      && L.f3.inRange c.f3.toNat) then .error .outOfRange
  else if !(L.f1.fits c.f1.toNat && L.f2.fits c.f2.toNat
      && L.f3.fits c.f3.toNat) then .error .outOfRange
  else .ok (L.f3.write c.f3.toNat
    (L.f2.write c.f2.toNat (L.f1.write c.f1.toNat 0)))

/-- Data field to calendar value: all digits, then all fields (R176). -/
def unpackCalendar (L : Layout) (data : DataField) : Except Failure Calendar :=
  if !(L.f1.digitsValid data && L.f2.digitsValid data
      && L.f3.digitsValid data) then .error .invalidDigit
  else if !(L.f1.inRange (L.f1.value data)
      && L.f2.inRange (L.f2.value data)
      && L.f3.inRange (L.f3.value data)) then .error .invalidField
  else .ok { tag := L.tag, f1 := BitVec.ofNat 8 (L.f1.value data),
             f2 := BitVec.ofNat 8 (L.f2.value data),
             f3 := BitVec.ofNat 8 (L.f3.value data) }

/-- The operation of BCD_TO_FIELD (R175). -/
def bcdToField (rom : Rom) (code : Byte) (c : Calendar) : Except Failure DataField := do
  let e ← resolve rom code
  let L ← bcdLayout e
  if c.tag = L.tag then packCalendar L c else .error .unsupportedConversion

/-- The operation of BCD_TO_CAL (R176). -/
def bcdToCal (rom : Rom) (code : Byte) (data : DataField) : Except Failure Calendar := do
  let e ← resolve rom code
  let L ← bcdLayout e
  unpackCalendar L data

/-- BCD_TO_FIELD (R175). -/
def execBcdToField (code : Byte) (c : Calendar) (s : State) : Host.Outcome State Fault Refusal :=
  respond s ((bcdToField s.rom code c).map .data)

/-- BCD_TO_CAL (R176). -/
def execBcdToCal (code : Byte) (data : DataField) (s : State) : Host.Outcome State Fault Refusal :=
  respond s ((bcdToCal s.rom code data).map .calendar)

end Sys2Proof.Machine
end

