-- ==== Sys2Proof/Machine/Bnr.lean ====
section
/-! DEFINITION. The BNR Converter (R150 to R153): BNR_TO_FIELD and BNR_TO_PHYS. -/

namespace Sys2Proof.Machine

/-- The resolution of a BNR entry, else UnsupportedConversion (R244). -/
def bnrResolution (e : LabelEntry) : Except Failure F64 :=
  match e.encoding with
  | .bnr res => .ok res
  | .bcd _ => .error .unsupportedConversion
  | .discrete => .error .unsupportedConversion

/-- Physical value to BNR integer for a width and a resolution: divide exactly, round once, check the
range of the rounded value (R152). -/
def quantize (tie : Tie) (width : Nat) (res x : F64) : Except Failure Int :=
  if F64.isFinite x then
    let n := rne tie ((F64.ratio x).div (F64.ratio res))
    if inSignedRange width n then .ok n else .error .outOfRange
  else .error .outOfRange

/-- `to_f64(sext_W(data[W-1:0]) * res)` (R153). -/
def physicalValue (width : Nat) (res : F64) (data : DataField) : F64 :=
  toF64 (Ratio.times (bnrInteger width data) (F64.ratio res))

/-- The operation of BNR_TO_FIELD (R152). -/
def bnrToField (rom : Rom) (tie : Tie) (code : Byte) (x : F64) : Except Failure Int := do
  let e ← resolve rom code
  let res ← bnrResolution e
  quantize tie e.width res x

/-- The operation of BNR_TO_PHYS (R153). -/
def bnrToPhys (rom : Rom) (code : Byte) (data : DataField) : Except Failure F64 := do
  let e ← resolve rom code
  let res ← bnrResolution e
  .ok (physicalValue e.width res data)

/-- BNR_TO_FIELD (R152). -/
def execBnrToField (code : Byte) (x : F64) (s : State) : Host.Outcome State Fault Refusal :=
  respond s ((bnrToField s.rom s.tie code x).map .signedInt)

/-- BNR_TO_PHYS (R153). -/
def execBnrToPhys (code : Byte) (data : DataField) (s : State) : Host.Outcome State Fault Refusal :=
  respond s ((bnrToPhys s.rom code data).map .float)

end Sys2Proof.Machine
end

