-- ==== Sys2Proof/Machine/Ssm.lean ====
section
/-! DEFINITION. The SSM Interpreter (R200 to R203). -/

namespace Sys2Proof.Machine

/-- The column of SSM_TABLE for a kind (R200). -/
def ssmColumn (T : SsmTable) : Kind → Vector SsmStatus 4
  | .bnr => T.bnr
  | .bcd => T.bcd
  | .discrete => T.discrete

/-- `SSM_TABLE(kind, s)`, a total function (R200). -/
def ssmStatus (T : SsmTable) (k : Kind) (ssm : BitVec 2) : SsmStatus :=
  (ssmColumn T k)[ssm.toNat]'ssm.isLt

/-- SSM_INTERPRET (R202). -/
def execSsmInterpret (code : Byte) (ssm : BitVec 2) (s : State) :
    Host.Outcome State Fault Refusal :=
  respond s ((resolve s.rom code).map fun e => .status (ssmStatus s.ssmTable e.kind ssm))

end Sys2Proof.Machine
end

