-- ==== Sys2Proof/Machine/Flags.lean ====
section
/-! DEFINITION. The parity computation. The core has no flags or condition codes (R23): the one bit an
operation computes over a whole value is the word's odd parity (R65, R131). -/

namespace Sys2Proof.Machine

/-- How many of the `k` low bits of `v` are 1. -/
def onesBelow {n : Nat} (v : BitVec n) : Nat → Nat
  | 0 => 0
  | k + 1 => onesBelow v k + (v.getLsbD k).toNat

/-- `popcount(v)` (R11). -/
def popcount {n : Nat} (v : BitVec n) : Nat := onesBelow v n

/-- `xor_reduce(v) = popcount(v) mod 2` (R11). -/
def xorReduce {n : Nat} (v : BitVec n) : Nat := popcount v % 2

/-- `parity_bit(v31) = 1 - xor_reduce(v31)` (R65, R131). -/
def parityBit (v31 : BitVec 31) : BitVec 1 := BitVec.ofNat 1 (1 - xorReduce v31)

end Sys2Proof.Machine
end

