-- ==== Sys2Proof/Machine/WordCodec.lean ====
section
/-! DEFINITION. The Word Codec (R130 to R133): PACK and UNPACK over the wire word (R60 to R68). -/

namespace Sys2Proof.Machine

/-- `w = {p, ssm, data, sdi, reverse8(code)}` with `p` the odd parity of the other 31 bits (R68). -/
def assembleWord (code : Byte) (sdi : BitVec 2) (data : DataField) (ssm : BitVec 2) : Word :=
  let w31 : BitVec 31 := ssm ++ data ++ sdi ++ reverse8 code
  parityBit w31 ++ w31

/-- PACK's checks and word (R132). -/
def packWord (rom : Rom) (code sdi : Byte) (data : Word) (ssm : Byte) : Except Failure Word := do
  let e ← resolve rom code
  if 4 ≤ sdi.toNat then .error .outOfRange
  else if 2 ^ e.width ≤ data.toNat then .error .outOfRange
  else if 4 ≤ ssm.toNat then .error .outOfRange
  else .ok (assembleWord code (sdi.setWidth 2) (data.setWidth 19) (ssm.setWidth 2))

/-- The parity check and the fields of a word (R133). The ROM is not read. -/
def unpackWord (w : Word) : Except Failure WireFields :=
  if xorReduce w = 0 then .error .parityError
  else .ok { code := reverse8 (w.extractLsb' 0 8), sdi := w.extractLsb' 8 2,
             data := w.extractLsb' 10 19, ssm := w.extractLsb' 29 2 }

/-- PACK (R132). -/
def execPack (code sdi : Byte) (data : Word) (ssm : Byte) (s : State) :
    Host.Outcome State Fault Refusal :=
  respond s ((packWord s.rom code sdi data ssm).map .word)

/-- UNPACK (R133). -/
def execUnpack (w : Word) (s : State) : Host.Outcome State Fault Refusal :=
  respond s ((unpackWord w).map .fields)

end Sys2Proof.Machine
end

