-- ==== Sys2Proof/Machine/TopLevel.lean ====
section
/-! DEFINITION. The top-level operations, which chain the units (R210 to R222): ENCODE, DECODE,
TO_PHYSICAL. -/

namespace Sys2Proof.Machine

/-- The value's kind suits the label (R211): Physical for BNR, Calendar for BCD with the layout's tag,
Raw for every kind. -/
def valueSuits (enc : Encoding) (v : Value) : Bool :=
  match v, enc with
  | .physical _, .bnr _ => true
  | .physical _, .bcd _ => false
  | .physical _, .discrete => false
  | .calendar _, .bnr _ => false
  | .calendar c, .bcd L => c.tag = L.tag
  | .calendar _, .discrete => false
  | .raw _, .bnr _ => true
  | .raw _, .bcd _ => true
  | .raw _, .discrete => true

/-- A raw value is packed as it is, if it fits `W` bits (R210, R211). -/
def rawField (width : Nat) (r : Word) : Except Failure DataField :=
  if 2 ^ width ≤ r.toNat then .error .outOfRange else .ok (r.setWidth 19)

/-- The data field of a value (R210, step 3). The pairs step 1 has turned away answer
UnsupportedConversion again. -/
def valueField (tie : Tie) (width : Nat) (enc : Encoding) (v : Value) : Except Failure DataField :=
  match v, enc with
  | .physical x, .bnr res => (quantize tie width res x).map (bnrField width)
  | .physical _, .bcd _ => .error .unsupportedConversion
  | .physical _, .discrete => .error .unsupportedConversion
  | .calendar _, .bnr _ => .error .unsupportedConversion
  | .calendar c, .bcd L => packCalendar L c
  | .calendar _, .discrete => .error .unsupportedConversion
  | .raw r, .bnr _ => rawField width r
  | .raw r, .bcd _ => rawField width r
  | .raw r, .discrete => rawField width r

/-- The operation of ENCODE (R210): the label, the value's kind, sdi and ssm, the data field, the
word. -/
def encodeWord (rom : Rom) (tie : Tie) (code sdi : Byte) (v : Value) (ssm : Byte) :
    Except Failure Word := do
  let e ← resolve rom code
  if !valueSuits e.encoding v then .error .unsupportedConversion
  else if 4 ≤ sdi.toNat then .error .outOfRange
  else if 4 ≤ ssm.toNat then .error .outOfRange
  else
    (valueField tie e.width e.encoding v).map fun data =>
      assembleWord code (sdi.setWidth 2) data (ssm.setWidth 2)

/-- The calendar of a DecodedWord: present if and only if the label is BCD (R220, R221). -/
def decodedCalendar (enc : Encoding) (data : DataField) : Except Failure (Option Calendar) :=
  match enc with
  | .bnr _ => .ok none
  | .bcd L => (unpackCalendar L data).map some
  | .discrete => .ok none

/-- The operation of DECODE (R220): the parity, the label, the status, the calendar. -/
def decodeWord (rom : Rom) (T : SsmTable) (w : Word) : Except Failure DecodedWord := do
  let f ← unpackWord w
  let e ← resolve rom f.code
  let cal ← decodedCalendar e.encoding f.data
  .ok { label := e, sdi := f.sdi, data := f.data, ssm := f.ssm,
        status := ssmStatus T e.kind f.ssm, cal := cal }

/-- The operation of TO_PHYSICAL (R222): the value with the label's units. -/
def toPhysical (rom : Rom) (code : Byte) (data : DataField) : Except Failure (F64 × Bytes) := do
  let e ← resolve rom code
  let res ← bnrResolution e
  .ok (physicalValue e.width res data, e.units)

/-- ENCODE (R210). -/
def execEncode (code sdi : Byte) (v : Value) (ssm : Byte) (s : State) :
    Host.Outcome State Fault Refusal :=
  respond s ((encodeWord s.rom s.tie code sdi v ssm).map .word)

/-- DECODE (R220). -/
def execDecode (w : Word) (s : State) : Host.Outcome State Fault Refusal :=
  respond s ((decodeWord s.rom s.ssmTable w).map .decoded)

/-- TO_PHYSICAL (R222). -/
def execToPhysical (code : Byte) (data : DataField) (s : State) :
    Host.Outcome State Fault Refusal :=
  respond s ((toPhysical s.rom code data).map fun p => .physical p.1 p.2)

end Sys2Proof.Machine
end

