-- ==== Sys2Proof/Machine/Dispatch.lean ====
section
/-! DEFINITION. The one match from an instruction to its meaning (R77). -/

namespace Sys2Proof.Machine

def exec (i : Instr) (s : State) : Host.Outcome State Fault Refusal :=
  match i with
  | .lookup code => Sys2Proof.Machine.execLookup code s
  | .labelRaw code => Sys2Proof.Machine.execLabelRaw code s
  | .labelName code => Sys2Proof.Machine.execLabelName code s
  | .labelUnits code => Sys2Proof.Machine.execLabelUnits code s
  | .labelOctal code => Sys2Proof.Machine.execLabelOctal code s
  | .octalParse str => Sys2Proof.Machine.execOctalParse str s
  | .pack code sdi data ssm => Sys2Proof.Machine.execPack code sdi data ssm s
  | .unpack w => Sys2Proof.Machine.execUnpack w s
  | .bnrToField code x => Sys2Proof.Machine.execBnrToField code x s
  | .bnrToPhys code data => Sys2Proof.Machine.execBnrToPhys code data s
  | .bcdToField code c => Sys2Proof.Machine.execBcdToField code c s
  | .bcdToCal code data => Sys2Proof.Machine.execBcdToCal code data s
  | .ssmInterpret code ssm => Sys2Proof.Machine.execSsmInterpret code ssm s
  | .encode code sdi v ssm => Sys2Proof.Machine.execEncode code sdi v ssm s
  | .decode w => Sys2Proof.Machine.execDecode w s
  | .toPhysical code data => Sys2Proof.Machine.execToPhysical code data s

end Sys2Proof.Machine
end

