-- ==== Sys2Proof/Machine/Step.lean ====
section
/-! DEFINITION. One step: the request on the port is decoded and answered (R70, R276). -/

namespace Sys2Proof.Machine

/-- One step. A ROM that fails the check is refused before anything runs (R102); a request with a
reserved encoding is refused before any check of its operands (R90, R250); with no request on the
port nothing is answered (log entry 2). -/
def step (s : State) : Host.Outcome State Fault Refusal :=
  if romWf s.rom then
    match s.request with
    | none => .next s.idle
    | some f =>
      match decode f with
      | .ok i => exec i s
      | .error why => .refused (.reservedEncoding why)
  else .refused .illFormedRom

/-- The state whose next step runs the table word `w`: the host presents its frame on the request
port. There is no program memory; a program is the host's sequence of requests (R22, log entry 10). -/
def State.withFetchWord (s : State) (nbits w : Nat) : State :=
  s.present (frameOfTableWord nbits w)

end Sys2Proof.Machine
end

