-- ==== Sys2Proof/Machine/Assembler.lean ====
section
/-! DEFINITION. The textual syntax of requests (R93) and the pseudo-operations (R94). Both are the
host's: the core sees request frames only. What the spec leaves open in the syntax is a DESIGN CHOICE
(log entry 15). -/

namespace Sys2Proof.Machine

/-- A line or a piece of one, character by character. -/
abbrev Text := List Char

/-- What one line stands for: a request, or a pseudo-operation (R94). -/
inductive AsmLine where
  /-- One request. -/
  | request (f : Frame)
  /-- `LOOKUP "ddd"`. -/
  | lookupOctal (str : Bytes)
  /-- `ENCODE "ddd", sdi, v, ssm`: `f` is the request, its code still 0. -/
  | encodeOctal (str : Bytes) (f : Frame)
  /-- `DECODE_PHYS word`. -/
  | decodePhys (w : Word)
deriving DecidableEq, Repr

/-! ### Characters and numbers -/

/-- A digit of a base up to 16. -/
def digitValue (base : Nat) (c : Char) : Option Nat :=
  let n := c.toNat
  let d := if 48 ≤ n ∧ n ≤ 57 then n - 48
    else if 97 ≤ n ∧ n ≤ 102 then n - 87
    else if 65 ≤ n ∧ n ≤ 70 then n - 55
    else 16
  if d < base then some d else none

/-- The value of a string of digits read after `acc`. -/
def digitsFrom (base : Nat) : Nat → Text → Option Nat
  | acc, [] => some acc
  | acc, c :: cs =>
    match digitValue base c with
    | some d => digitsFrom base (base * acc + d) cs
    | none => none

/-- The value of a non-empty string of digits. -/
def digits (base : Nat) (t : Text) : Option Nat :=
  if t = [] then none else digitsFrom base 0 t

/-- A number in hex (`0x...`) or decimal (R93), below `2^bits`. -/
def number (bits : Nat) (t : Text) : Option (BitVec bits) :=
  let n := match t with
    | '0' :: 'x' :: hex => digits 16 hex
    | _ => digits 10 t
  match n with
  | some n => if n < 2 ^ bits then some (BitVec.ofNat bits n) else none
  | none => none

/-- A label code, written in octal (R14, R93). -/
def octalCode (t : Text) : Option Byte :=
  match digits 8 t with
  | some n => if n < 256 then some (BitVec.ofNat 8 n) else none
  | none => none

/-- The bytes of a quoted string (R93). DESIGN CHOICE (log entry 15): a string with a character that is
not ASCII is none of R44's, and the spec does not say how such a line assembles; it does not. -/
def quoted (t : Text) : Option Bytes :=
  match t with
  | '"' :: rest =>
    match rest.reverse with
    | '"' :: body =>
      if body.all fun c => c.toNat < 128 then
        some (body.reverse.map fun c => BitVec.ofNat 8 c.toNat)
      else none
    | _ => none
  | _ => none

/-- An optional sign: whether it is minus, and the rest. -/
def splitSign (t : Text) : Bool × Text :=
  match t with
  | '-' :: cs => (true, cs)
  | '+' :: cs => (false, cs)
  | _ => (false, t)

/-- The exponent part of a decimal literal, after its `e`. -/
def exponentPart (t : Text) : Option Int :=
  let (neg, ds) := splitSign t
  (digits 10 ds).map fun n => if neg then -(n : Int) else n

/-- The magnitude of a decimal literal `ddd`, `ddd.ddd`, each with an optional `e` part, exactly. -/
def decimalMagnitude (t : Text) : Option Ratio :=
  let mantissa := t.takeWhile fun c => c ≠ 'e' && c ≠ 'E'
  let whole := mantissa.takeWhile (· ≠ '.')
  let frac := (mantissa.dropWhile (· ≠ '.')).drop 1
  let exp := match t.drop mantissa.length with
    | [] => some 0
    | _ :: e => exponentPart e
  match digits 10 (whole ++ frac), exp with
  | some n, some e =>
    let e := e - frac.length
    some { num := (n * 10 ^ e.toNat : Nat), den := 10 ^ (-e).toNat }
  | _, _ => none

/-- The magnitude of a literal: a decimal, converted with `to_f64` (R93), or the `inf` and `NaN` that the
spec's vectors write (log entry 15). -/
def floatMagnitude (t : Text) : Option F64 :=
  if t = "NaN".toList then some 0x7FF8000000000000
  else if t = "inf".toList then some 0x7FF0000000000000
  else (decimalMagnitude t).map toF64

/-- A floating literal. A minus sign sets the sign bit, so that `-0.0` is the negative zero of the
spec's vectors (log entry 15). -/
def floatLiteral (t : Text) : Option F64 :=
  let (neg, body) := splitSign t
  (floatMagnitude body).map fun x => if neg then x ||| (1#64 <<< 63) else x

/-! ### Operands -/

/-- Drop the blanks at both ends. -/
def trim (t : Text) : Text :=
  ((t.dropWhile (· = ' ')).reverse.dropWhile (· = ' ')).reverse

/-- Split at the commas that stand outside parentheses: `acc` is the piece being read, reversed. -/
def splitCommas : Nat → Text → Text → List Text
  | _, acc, [] => [trim acc.reverse]
  | depth, acc, c :: cs =>
    if c = ',' ∧ depth = 0 then trim acc.reverse :: splitCommas depth [] cs
    else if c = '(' then splitCommas (depth + 1) (c :: acc) cs
    else if c = ')' then splitCommas (depth - 1) (c :: acc) cs
    else splitCommas depth (c :: acc) cs

/-- The operands of a line: none, or the pieces between commas. -/
def operands (t : Text) : List Text :=
  if trim t = [] then [] else splitCommas 0 [] t

/-- The arguments of `NAME(...)`, if the text is of that form. -/
def arguments (name : String) (t : Text) : Option (List Text) :=
  let open' := name.toList ++ ['(']
  if open'.isPrefixOf t then
    match (t.drop open'.length).reverse with
    | ')' :: body => some (splitCommas 0 [] body.reverse)
    | _ => none
  else none

/-- `DATE(day, month, year)` or `TIME(hour, minute, second)` (R93). -/
def calendarLiteral (t : Text) : Option Calendar :=
  let make (tag : CalTag) (args : List Text) : Option Calendar :=
    match args with
    | [a, b, c] =>
      match number 8 a, number 8 b, number 8 c with
      | some f1, some f2, some f3 => some { tag := tag, f1 := f1, f2 := f2, f3 := f3 }
      | _, _, _ => none
    | _ => none
  match arguments "DATE" t, arguments "TIME" t with
  | some args, _ => make .date args
  | none, some args => make .time args
  | none, none => none

/-- The value operand of ENCODE: `PHYS(x)`, `DATE(...)`, `TIME(...)` or `RAW(n)` (R93). -/
def valueLiteral (t : Text) : Option Value :=
  match arguments "PHYS" t, arguments "RAW" t with
  | some [x], _ => (floatLiteral x).map .physical
  | _, some [n] => (number 32 n).map .raw
  | _, _ => (calendarLiteral t).map .calendar

/-! ### Lines -/

/-- What a mnemonic's operands are (R93). -/
inductive OperandForm where
  | code
  | string
  | pack
  | word
  | codeFloat
  | codeData
  | codeCalendar
  | codeSsm
  | encode
deriving DecidableEq, Repr

/-- The mnemonics with their operation codes (R77) and operand forms (R93). -/
def mnemonicTable : List (String × BitVec 4 × OperandForm) :=
  [("LOOKUP", 0x0, .code), ("LABEL_RAW", 0x1, .code), ("LABEL_NAME", 0x2, .code),
    ("LABEL_UNITS", 0x3, .code), ("LABEL_OCTAL", 0x4, .code), ("OCTAL_PARSE", 0x5, .string),
    ("PACK", 0x6, .pack), ("UNPACK", 0x7, .word), ("BNR_TO_FIELD", 0x8, .codeFloat),
    ("BNR_TO_PHYS", 0x9, .codeData), ("BCD_TO_FIELD", 0xA, .codeCalendar),
    ("BCD_TO_CAL", 0xB, .codeData), ("SSM_INTERPRET", 0xC, .codeSsm), ("ENCODE", 0xD, .encode),
    ("DECODE", 0xE, .word), ("TO_PHYSICAL", 0xF, .codeData)]

/-- The frame of one request from its operands. Fields the format does not read assemble as 0 (R93).
Operands that a format refuses (R90) assemble as they are written: refusing is the core's. -/
def assembleRequest (op : BitVec 4) (form : OperandForm) (args : List Text) : Option Frame :=
  match form, args with
  | .code, [c] => (octalCode c).map fun code => .ofHeader (header op 0 code 0 0)
  | .string, [s] => (quoted s).map fun str => { Frame.ofHeader (header op 0 0 0 0) with S := str }
  | .pack, [c, s, d, m] =>
    match octalCode c, number 8 s, number 32 d, number 8 m with
    | some code, some sdi, some data, some ssm =>
      some { Frame.ofHeader (header op 0 code sdi ssm) with A := data }
    | _, _, _, _ => none
  | .word, [w] => (number 32 w).map fun w => { Frame.ofHeader (header op 0 0 0 0) with A := w }
  | .codeFloat, [c, x] =>
    match octalCode c, floatLiteral x with
    | some code, some x => some { Frame.ofHeader (header op 0 code 0 0) with B := x }
    | _, _ => none
  | .codeData, [c, d] =>
    match octalCode c, number 32 d with
    | some code, some data => some { Frame.ofHeader (header op 0 code 0 0) with A := data }
    | _, _ => none
  | .codeCalendar, [c, v] =>
    match octalCode c, calendarLiteral v with
    | some code, some cal => some { Frame.ofHeader (header op 0 code 0 0) with C := cal.toSlot }
    | _, _ => none
  | .codeSsm, [c, m] =>
    match octalCode c, number 8 m with
    | some code, some ssm => some (.ofHeader (header op 0 code 0 ssm))
    | _, _ => none
  | .encode, [c, s, v, m] =>
    match octalCode c, number 8 s, valueLiteral v, number 8 m with
    | some code, some sdi, some value, some ssm => some (encodeValue code sdi ssm value)
    | _, _, _, _ => none
  | _, _ => none

/-- A line with a pseudo-operation (R94), or the request its mnemonic and operands assemble to. -/
def assembleLine (mnemonic : Text) (args : List Text) : Option AsmLine :=
  match args with
  | [w] =>
    if mnemonic = "DECODE_PHYS".toList then (number 32 w).map .decodePhys
    else if mnemonic = "LOOKUP".toList ∧ (quoted w).isSome then (quoted w).map .lookupOctal
    else plain
  | [c, s, v, m] =>
    if mnemonic = "ENCODE".toList ∧ (quoted c).isSome then
      match quoted c, number 8 s, valueLiteral v, number 8 m with
      | some str, some sdi, some value, some ssm =>
        some (.encodeOctal str (encodeValue 0 sdi ssm value))
      | _, _, _, _ => none
    else plain
  | _ => plain
where
  /-- The line as one request. -/
  plain : Option AsmLine :=
    match mnemonicTable.find? (fun row => row.1.toList = mnemonic) with
    | some (_, op, form) => (assembleRequest op form args).map .request
    | none => none

/-- One line: a mnemonic, then operands separated by commas (R93). -/
def parseLine (t : Text) : Option AsmLine :=
  let t := trim t
  let mnemonic := t.takeWhile (· ≠ ' ')
  assembleLine mnemonic (operands (t.drop mnemonic.length))

/-! ### Running a line

The "stop" of a pseudo-operation is the host's: it leaves the response of the step that failed on the
port and presents nothing more (R94, R252). -/

/-- The host presents one request and the core answers it (R262). -/
def serve (s : State) (f : Frame) : Host.Outcome State Fault Refusal := step (s.present f)

/-- The request with the code a parse returned (R94). -/
def Frame.withCode (f : Frame) (code : Byte) : Frame :=
  { f with H := f.H ||| (code.setWidth 32 <<< 8) }

/-- OCTAL_PARSE, then the request for the code it returned; stop if it failed (R94). -/
def serveOctal (s : State) (str : Bytes) (next : Byte → Frame) :
    Host.Outcome State Fault Refusal :=
  match serve s (encode (.octalParse str)) with
  | .next t =>
    match t.response with
    | some (.success (.code c)) => serve t (next c)
    | _ => .next t
  | .fault r => .fault r
  | .refused r => .refused r

/-- DECODE, then TO_PHYSICAL of the record's code and data; stop if it failed (R94). -/
def serveDecodePhys (s : State) (w : Word) : Host.Outcome State Fault Refusal :=
  match serve s (encode (.decode w)) with
  | .next t =>
    match t.response with
    | some (.success (.decoded d)) => serve t (encode (.toPhysical d.label.code d.data))
    | _ => .next t
  | .fault r => .fault r
  | .refused r => .refused r

/-- The host runs one line (R93, R94). -/
def runLine (s : State) : AsmLine → Host.Outcome State Fault Refusal
  | .request f => serve s f
  | .lookupOctal str => serveOctal s str fun c => encode (.lookup c)
  | .encodeOctal str f => serveOctal s str (Frame.withCode f)
  | .decodePhys w => serveDecodePhys s w

end Sys2Proof.Machine
end

