-- ==== Sys2Proof/Machine/Port.lean ====
section
/-! DEFINITION. The numbers of a response on the port (R81 to R87): status codes, result records and
their encodings. -/

namespace Sys2Proof.Machine

/-- The status code of a failure kind (R82). 0 is success and 7 is never produced. -/
def Failure.statusCode : Failure → BitVec 3
  | .unknownLabel => 1
  | .parityError => 2
  | .outOfRange => 3
  | .unsupportedConversion => 4
  | .invalidDigit => 5
  | .invalidField => 6

/-- The code of an encoding kind (R84). -/
def kindCode : Kind → BitVec 2
  | .bnr => 0
  | .bcd => 1
  | .discrete => 2

/-- The code of an SSM status (R85). -/
def ssmStatusCode : SsmStatus → BitVec 3
  | .failureWarning => 0
  | .noComputedData => 1
  | .functionalTest => 2
  | .normalOperation => 3
  | .plus => 4
  | .minus => 5

/-- A string on the port: its length, then its bytes (R76). -/
structure StringRecord where
  len : Byte
  bytes : Bytes
deriving DecidableEq, Repr

/-- A layout on the port: the tag's bit and six digit-group descriptors, each a least significant data
bit and a width (R84, R170). DEDUCED: the ranges stay inside the entry (log entry 12). -/
structure LayoutRecord where
  tag : Bool
  groups : List (Nat × Nat)
deriving DecidableEq, Repr

/-- A label entry on the port (R84). -/
structure EntryRecord where
  code : Byte
  name : StringRecord
  units : StringRecord
  kind : BitVec 2
  width : BitVec 5
  resolution : Option F64
  layout : Option LayoutRecord
deriving DecidableEq, Repr

/-- A DecodedWord on the port (R221). -/
structure DecodedRecord where
  label : EntryRecord
  sdi : BitVec 2
  data : DataField
  ssm : BitVec 2
  status : BitVec 3
  cal : Option Word
deriving DecidableEq, Repr

/-- The result records on the port (R83). -/
inductive PortResult where
  | entry (e : EntryRecord)
  | u8 (c : Byte)
  | string (s : StringRecord)
  | u32 (w : Word)
  | fields (code : Byte) (sdi : BitVec 2) (data : DataField) (ssm : BitVec 2)
  | binary64 (x : F64)
  | u19 (d : DataField)
  | u3 (s : BitVec 3)
  | decoded (d : DecodedRecord)
  | physical (value : F64) (units : StringRecord)
deriving DecidableEq, Repr

/-- A response on the port: a 3-bit status and, when it is 0, a result record (R81). -/
structure PortResponse where
  status : BitVec 3
  result : Option PortResult
deriving DecidableEq, Repr

/-- A string as its record (R76). -/
def stringRecord (s : Bytes) : StringRecord := { len := BitVec.ofNat 8 s.length, bytes := s }

/-- A layout as its record (R84). -/
def layoutRecord (L : Layout) : LayoutRecord := { tag := L.tag.bit, groups := L.groups }

/-- The resolution, present if and only if the kind is BNR (R84). -/
def encodingResolution : Encoding → Option F64
  | .bnr res => some res
  | .bcd _ => none
  | .discrete => none

/-- The layout, present if and only if the kind is BCD (R84). -/
def encodingLayout : Encoding → Option Layout
  | .bnr _ => none
  | .bcd L => some L
  | .discrete => none

/-- A label entry as its record (R84). -/
def entryRecord (e : LabelEntry) : EntryRecord :=
  { code := e.code
    name := stringRecord e.name
    units := stringRecord e.units
    kind := kindCode e.kind
    width := BitVec.ofNat 5 e.width
    resolution := encodingResolution e.encoding
    layout := (encodingLayout e.encoding).map layoutRecord }

/-- The signed integer of BNR_TO_FIELD on the port: `n mod 2^32` (R83). -/
def signedWord (n : Int) : Word := BitVec.ofInt 32 n

/-- A DecodedWord as its record (R221). -/
def decodedRecord (d : DecodedWord) : DecodedRecord :=
  { label := entryRecord d.label
    sdi := d.sdi
    data := d.data
    ssm := d.ssm
    status := ssmStatusCode d.status
    cal := d.cal.map Calendar.toSlot }

/-- A result as its record on the port (R83 to R87). -/
def Result.record : Result → PortResult
  | .entry e => .entry (entryRecord e)
  | .code c => .u8 c
  | .string s => .string (stringRecord s)
  | .word w => .u32 w
  | .fields f => .fields f.code f.sdi f.data f.ssm
  | .signedInt n => .u32 (signedWord n)
  | .float x => .binary64 x
  | .data d => .u19 d
  | .calendar c => .u32 c.toSlot
  | .status s => .u3 (ssmStatusCode s)
  | .decoded d => .decoded (decodedRecord d)
  | .physical v u => .physical v (stringRecord u)

/-- A response as it stands on the port (R81). -/
def Response.toPort : Response → PortResponse
  | .success r => { status := 0, result := some r.record }
  | .failure f => { status := f.statusCode, result := none }

end Sys2Proof.Machine
end

