-- ==== Sys2Proof/Safety.lean ====
section
/-! DEFINITION. The terms the claims are stated in: what the spec's values and roundings mean as rational
numbers, what a word holds, which fields a format reads, the invariant of the machine, and sequences
of requests. Nothing here is part of the machine's step. -/

namespace Sys2Proof.Machine

/-! ### Values and roundings (R11, R12) -/

/-- The exact value of a finite binary64 (R74). -/
def F64.value (x : F64) : ℚ :=
  (if F64.sign x then -1 else 1) * (F64.significand x : ℚ) * 2 ^ ((F64.scale x : ℤ) - 1075)

/-- `n = rne(q)` (R12): `n` is nearest `q`, and an exact half goes to the even integer, or to the one of
larger magnitude. -/
def IsRounded (tie : Tie) (q : ℚ) (n : ℤ) : Prop :=
  |(n : ℚ) - q| ≤ 1 / 2 ∧
    (|(n : ℚ) - q| = 1 / 2 →
      match tie with
      | .tiesToEven => n % 2 = 0
      | .tiesAway => |q| < |(n : ℚ)|)

/-- `r = to_f64(q)` for a `q` within the finite range (R12): `r` is a finite binary64, no finite binary64
is nearer, and where another one is as near, `r` has the even fraction. -/
def IsNearestF64 (q : ℚ) (r : F64) : Prop :=
  F64.isFinite r = true ∧
    ∀ y : F64, F64.isFinite y = true →
      |F64.value r - q| ≤ |F64.value y - q| ∧
        (|F64.value r - q| = |F64.value y - q| → F64.value y = F64.value r ∨ F64.fraction r % 2 = 0)

/-- The value is a power of two (R151). -/
def IsPowerOfTwo (q : ℚ) : Prop := ∃ k : ℤ, q = 2 ^ k

/-- The largest finite binary64, `(2^53 - 1) * 2^971` (R102). -/
def maxFinite : ℚ := (2 ^ 53 - 1) * 2 ^ 971

/-- The bytes of an ASCII string (R44). -/
def ascii (s : String) : Bytes := s.toList.map fun c => BitVec.ofNat 8 c.toNat

/-! ### Words and data fields -/

/-- The word holds these fields in the layout of R60 to R68, with odd parity (R66). -/
def WordHolds (w : Word) (code : Byte) (sdi data ssm : Nat) : Prop :=
  (∀ i < 8, w.getLsbD i = code.getLsbD (7 - i)) ∧ (w.extractLsb' 8 2).toNat = sdi ∧
    (w.extractLsb' 10 19).toNat = data ∧ (w.extractLsb' 29 2).toNat = ssm ∧ popcount w % 2 = 1

/-- Data bit `i` belongs to a digit group of the layout (R170). -/
def Covered (L : Layout) (i : Nat) : Prop := ∃ g ∈ L.groups, g.1 ≤ i ∧ i < g.1 + g.2

/-- The three fields of a layout, each with the calendar field it describes (R170). -/
def fieldPairs (L : Layout) (c : Calendar) : List (FieldDesc × Nat) :=
  [(L.f1, c.f1.toNat), (L.f2, c.f2.toNat), (L.f3, c.f3.toNat)]

/-- The three field descriptors of a layout (R170). -/
def fieldDescs (L : Layout) : List FieldDesc := [L.f1, L.f2, L.f3]

/-- The value's kind suits the label (R211). -/
def Suits (e : LabelEntry) (v : Value) : Prop :=
  match v with
  | .physical _ => e.kind = .bnr
  | .calendar c => ∃ L, e.encoding = .bcd L ∧ c.tag = L.tag
  | .raw _ => True

/-! ### Formats (R78) -/

/-- The formats. -/
inductive Format where
  | L
  | S
  | P
  | W
  | BP
  | LD
  | BC
  | SS
  | E
deriving DecidableEq, Repr

/-- The format of each operation code (R77). -/
def formatOf (op : BitVec 4) : Format :=
  (#v[.L, .L, .L, .L, .L, .S, .P, .W, .BP, .LD, .BC, .LD, .SS, .E, .W, .LD] :
    Vector Format 16)[op.toNat]'op.isLt

/-- The header bits a format reads: `op` and `H[7:6]` always, then its header fields (R78). -/
def headerMask : Format → Word
  | .L => 0x0000FFCF
  | .S => 0x000000CF
  | .P => 0xFFFFFFCF
  | .W => 0x000000CF
  | .BP => 0x0000FFCF
  | .LD => 0x0000FFCF
  | .BC => 0x0000FFCF
  | .SS => 0xFF00FFCF
  | .E => 0xFFFFFFFF

/-- The format reads slot `A` (R78). -/
def readsA (f : Frame) : Bool :=
  match formatOf f.op with
  | .P => true
  | .W => true
  | .LD => true
  | .E => f.vtag = 2
  | .L => false
  | .S => false
  | .BP => false
  | .BC => false
  | .SS => false

/-- The format reads slot `B` (R78). -/
def readsB (f : Frame) : Bool :=
  formatOf f.op = .BP || formatOf f.op = .E && f.vtag = 0

/-- The format reads slot `C` (R78). -/
def readsC (f : Frame) : Bool :=
  formatOf f.op = .BC || formatOf f.op = .E && f.vtag = 1

/-- The format reads slot `S` (R78). -/
def readsS (f : Frame) : Bool := formatOf f.op = .S

/-- The frame with every field its format does not read set to 0 (R78, R88). -/
def readFields (f : Frame) : Frame :=
  { H := f.H &&& headerMask (formatOf f.op)
    A := if readsA f then f.A else 0
    B := if readsB f then f.B else 0
    C := if readsC f then f.C else 0
    S := if readsS f then f.S else [] }

/-- The request is refused by R90. -/
def ReservedRequest (f : Frame) : Prop :=
  f.reserved ≠ 0 ∨ (f.op = 0xD ∧ f.vtag = 3) ∨ (readsC f = true ∧ f.C.extractLsb' 1 7 ≠ 0) ∨
    (formatOf f.op = .LD ∧ f.A.extractLsb' 19 13 ≠ 0) ∨ (f.op = 0xC ∧ f.ssm.extractLsb' 2 6 ≠ 0)

/-! ### What operations may answer -/

/-- The failure kinds each operation can raise (R240). -/
def mayRaise : Instr → List Failure
  | .lookup _ => [.unknownLabel]
  | .labelRaw _ => [.unknownLabel]
  | .labelName _ => [.unknownLabel]
  | .labelUnits _ => [.unknownLabel]
  | .labelOctal _ => [.unknownLabel]
  | .octalParse _ => [.unknownLabel]
  | .pack _ _ _ _ => [.unknownLabel, .outOfRange]
  | .unpack _ => [.parityError]
  | .bnrToField _ _ => [.unknownLabel, .outOfRange, .unsupportedConversion]
  | .bnrToPhys _ _ => [.unknownLabel, .unsupportedConversion]
  | .bcdToField _ _ => [.unknownLabel, .outOfRange, .unsupportedConversion]
  | .bcdToCal _ _ => [.unknownLabel, .unsupportedConversion, .invalidDigit, .invalidField]
  | .ssmInterpret _ _ => [.unknownLabel]
  | .encode _ _ _ _ => [.unknownLabel, .outOfRange, .unsupportedConversion]
  | .decode _ => [.unknownLabel, .parityError, .invalidDigit, .invalidField]
  | .toPhysical _ _ => [.unknownLabel, .unsupportedConversion]

/-- The ROM address an operation reads, if it reads one (R29, R46): DECODE reads the entry of the code
in the word, UNPACK and OCTAL_PARSE read none. -/
def romAddress : Instr → Option Byte
  | .lookup c => some c
  | .labelRaw c => some c
  | .labelName c => some c
  | .labelUnits c => some c
  | .labelOctal c => some c
  | .octalParse _ => none
  | .pack c _ _ _ => some c
  | .unpack _ => none
  | .bnrToField c _ => some c
  | .bnrToPhys c _ => some c
  | .bcdToField c _ => some c
  | .bcdToCal c _ => some c
  | .ssmInterpret c _ => some c
  | .encode c _ _ _ => some c
  | .decode w => some (reverse8 (w.extractLsb' 0 8))
  | .toPhysical c _ => some c

/-! ### The invariant -/

/-- Some slot of the ROM holds the entry. -/
def inRom (rom : Rom) (e : LabelEntry) : Bool := rom.any fun p => p.2 = e

/-- Every field of the calendar value is a two-digit number (R170). -/
def twoDigit (c : Calendar) : Bool := c.f1.toNat ≤ 99 && c.f2.toNat ≤ 99 && c.f3.toNat ≤ 99

/-- What holds of every result record: a word has odd parity (R134, R210), an entry comes from the ROM,
strings are ASCII of at most 255 characters (R102), integers fit 19 bits (R150), physical values are
finite (R153), calendar fields have two digits, and a DecodedWord has a calendar if and only if its
label is BCD (R221). -/
def resultLegal (rom : Rom) : Result → Bool
  | .entry e => inRom rom e
  | .code _ => true
  | .string s => asciiString s
  | .word w => popcount w % 2 = 1
  | .fields _ => true
  | .signedInt n => -(2 ^ 18 : Int) ≤ n && n ≤ 2 ^ 18 - 1
  | .float x => F64.isFinite x
  | .data _ => true
  | .calendar c => twoDigit c
  | .status _ => true
  | .decoded d =>
    inRom rom d.label && (d.cal.isSome == (d.label.kind = .bcd : Bool)) && d.cal.all twoDigit
  | .physical x u => F64.isFinite x && asciiString u

/-- A response is a failure, or a legal result. -/
def responseLegal (rom : Rom) : Response → Bool
  | .success r => resultLegal rom r
  | .failure _ => true

/-- The invariant: the ROM is well-formed (R102) and the response on the port is legal. -/
def State.inv (s : State) : Bool := romWf s.rom && s.response.all (responseLegal s.rom)

/-! ### Sequences of requests (R22, R49) -/

/-- The response to a request, if the core answers it. -/
def answerTo (s : State) (f : Frame) : Option Response :=
  match serve s f with
  | .next t => t.response
  | .fault _ => none
  | .refused _ => none

/-- `t` comes from `s` by answering some requests, one after the other. -/
inductive Reaches : State → State → Prop where
  | here (s : State) : Reaches s s
  | served (s t u : State) (f : Frame) : Reaches s t → serve t f = .next u → Reaches s u

end Sys2Proof.Machine
end

