-- ==== Sys2Proof/Certificates/Slice0/Obligations.lean ====
section
/-! DEFINITION. The statements for the provers. `s.answered r` is `s` with `response := some r` and
`request := none`, every other field unchanged, so a statement that ends in it states the frame of the
operation with its result. A clause over frames says which fields of the request are the operands. -/

open Sys2Proof Sys2Proof.Machine

/-! ### Reset and the invariant -/

/-- The default ROM holds exactly the four entries of R104, and ROM is at its configured content after reset
(R28, R270). What the spec itself marks as general knowledge in it (entry 203, the code 260 and the DATE
layout) is log entry 4; that ROM stands in State is log entry 3. -/
def Obligations.ResetHoldsTheDefaultRom : Prop :=
  ∀ c : Byte, romRead State.reset.rom c =
    if c = 0o012 then some
      { code := 10, name := ascii "Ground Speed", units := ascii "knots", width := 16,
        encoding := .bnr 0x3FC0000000000000 }
    else if c = 0o150 then some
      { code := 104, name := ascii "UTC Time", units := ascii "", width := 19,
        encoding := .bcd timeLayout }
    else if c = 0o203 then some
      { code := 131, name := ascii "Pressure Altitude", units := ascii "feet", width := 18,
        encoding := .bnr 0x3FF0000000000000 }
    else if c = 0o260 then some
      { code := 176, name := ascii "Date", units := ascii "", width := 19,
        encoding := .bcd dateLayout }
    else none

/-- The default parameters TIE and SSM_TABLE (R9, R201): each of the twelve pairs. All but BNR code 3 is
what the spec marks as general knowledge (log entry 4); that they stand in State is log entry 3. -/
def Obligations.ResetHoldsTheDefaultParameters : Prop :=
  State.reset.tie = .tiesToEven ∧
  (∀ k, ssmStatus State.reset.ssmTable k 1 = .noComputedData) ∧
  (∀ k, ssmStatus State.reset.ssmTable k 2 = .functionalTest) ∧
  ssmStatus State.reset.ssmTable .bnr 0 = .failureWarning ∧
  ssmStatus State.reset.ssmTable .bnr 3 = .normalOperation ∧
  ssmStatus State.reset.ssmTable .bcd 0 = .plus ∧
  ssmStatus State.reset.ssmTable .bcd 3 = .minus ∧
  ssmStatus State.reset.ssmTable .discrete 0 = .normalOperation ∧
  ssmStatus State.reset.ssmTable .discrete 3 = .failureWarning

/-- The invariant holds after reset. -/
def Obligations.InvariantHoldsAtReset : Prop := State.reset.inv = true

/-- Every step keeps the invariant: the ROM stays well-formed and the response on the port is legal (R20,
R102, R134, R150, R153, R170, R221). -/
def Obligations.StepKeepsTheInvariant : Prop :=
  ∀ s t : State, s.inv = true → step s = .next t → t.inv = true

/-- What the ROM check accepts is what R102 asks, item by item, of every present entry. The list form
(addresses strictly rising) is the model's (log entry 5). -/
def Obligations.RomCheckIsTheSpecsList : Prop :=
  ∀ rom : Rom, (rom.Pairwise fun p q => p.1.toNat < q.1.toNat) →
    (romWf rom = true ↔
      ∀ c e, romRead rom c = some e →
        e.code = c ∧ 1 ≤ e.width ∧ e.width ≤ 19 ∧
        (e.name.length ≤ 255 ∧ ∀ b ∈ e.name, b.toNat < 128) ∧
        (e.units.length ≤ 255 ∧ ∀ b ∈ e.units, b.toNat < 128) ∧
        (∀ res, e.encoding = .bnr res →
          2 ≤ e.width ∧ F64.isFinite res = true ∧ 0 < F64.value res ∧
            F64.value res * 2 ^ (e.width - 1) ≤ maxFinite) ∧
        (∀ L, e.encoding = .bcd L →
          (∀ f ∈ fieldDescs L, 1 ≤ f.tw ∧ f.tw ≤ 4 ∧ f.lo ≤ f.hi ∧ f.hi ≤ 99) ∧
          (∀ g ∈ L.groups, g.1 + g.2 ≤ e.width) ∧
          (L.groups.Pairwise fun g h => ∀ i, ¬((g.1 ≤ i ∧ i < g.1 + g.2) ∧ (h.1 ≤ i ∧ i < h.1 + h.2)))))

/-! ### The step -/

/-- A step runs the decoded instruction: with a well-formed ROM, a request that decodes to `i` is answered
by exec of `i`. -/
def Obligations.StepRunsTheDecodedInstruction : Prop :=
  ∀ (s : State) (f : Frame) (i : Instr),
    romWf s.rom = true → s.request = some f → decode f = .ok i → step s = exec i s

/-- With a well-formed ROM a request is refused exactly when R90 says so, and every other request is
answered (R89, R90). -/
def Obligations.StepRefusesExactlyTheReservedRequests : Prop :=
  ∀ (s : State) (f : Frame),
    romWf s.rom = true → s.request = some f → f.S.length ≤ 255 →
      ((ReservedRequest f → ∃ why, step s = .refused (.reservedEncoding why)) ∧
        (¬ReservedRequest f → ∃ r, step s = .next (s.answered r)))

/-- A ROM that fails the check is refused, whatever the request (R102). That the check stands in every step
is log entry 6. -/
def Obligations.StepRefusesAnIllFormedRom : Prop :=
  ∀ s : State, romWf s.rom = false → step s = .refused .illFormedRom

/-- Every operation is answered in every state, with exactly one response (R70, R90). -/
def Obligations.EveryOperationIsAnswered : Prop :=
  ∀ (i : Instr) (s : State), ∃ r, exec i s = .next (s.answered r)

/-- The frame of every operation and of every step: no state the spec gives the machine is written, the
parameters stay, and no field of the request stays (R20, R21, R251). The parameters and the request are
State's by log entries 1 to 3. -/
def Obligations.NoOperationWritesState : Prop :=
  (∀ (i : Instr) (s t : State), exec i s = .next t →
    t.rom = s.rom ∧ t.tie = s.tie ∧ t.ssmTable = s.ssmTable ∧ t.request = none) ∧
  (∀ s t : State, step s = .next t →
    t.rom = s.rom ∧ t.tie = s.tie ∧ t.ssmTable = s.ssmTable ∧ t.request = none)

/-- A response is a function of the request and of one ROM entry at most: two states with the same
parameters whose ROMs agree at the one address the operation reads give the same response, whatever else
they hold (R20, R29, R46). -/
def Obligations.OneRomEntryDecidesTheResponse : Prop :=
  ∀ (i : Instr) (s t : State), s.tie = t.tie → s.ssmTable = t.ssmTable →
    (∀ c, romAddress i = some c → romRead s.rom c = romRead t.rom c) →
      ∃ r, exec i s = .next (s.answered r) ∧ exec i t = .next (t.answered r)

/-- The same request gets the same response whatever requests were answered before it (R49; R272, which the
spec derives from R20). -/
def Obligations.HistoryNeverChangesAResponse : Prop :=
  ∀ (s t : State) (f : Frame), Reaches s t →
    answerTo t f = answerTo s f ∧ (∀ why, serve t f = .refused why ↔ serve s f = .refused why)

/-! ### Encoding -/

/-- Decoding the frame of a well-formed instruction gives it back. -/
def Obligations.DecodeOfEncodeIsTheInstruction : Prop :=
  ∀ i : Instr, i.wellFormed = true → decode (encode i) = .ok i

/-- The encoder gives back every bit a format reads: what decodes to `i` is the frame of `i` once the unread
fields are 0, and `i` is well-formed. -/
def Obligations.EncodeOfDecodeIsTheReadFields : Prop :=
  ∀ (f : Frame) (i : Instr), decode f = .ok i → encode i = readFields f ∧ i.wellFormed = true

/-- Fields a format does not read never change the decoding, a refusal included, nor the outcome of the step
that answers the request (R88). -/
def Obligations.UnreadFieldsNeverMatter : Prop :=
  ∀ f g : Frame, readFields f = readFields g →
    decode f = decode g ∧ ∀ s : State, step (s.present f) = step (s.present g)

/-- Nine frames written out from R72, R75, R77 and R80, one or more of each family. The table words of 64
bits hold slot A above H: that order of slots is the model's choice (log entry 9). -/
def Obligations.WrittenOutFramesDecode : Prop :=
  decodeTableWord 32 0x00000A00 = some (.lookup 0o012) ∧
  decode { H := 0x00000005, A := 0, B := 0, C := 0, S := [0x30, 0x31, 0x32] } =
    .ok (.octalParse (ascii "012")) ∧
  decodeTableWord 64 0x000007D003000A06 = some (.pack 0o012 0 2000 3) ∧
  decodeTableWord 64 0xE01F405000000007 = some (.unpack 0xE01F4050) ∧
  decode { H := 0x00000A08, A := 0, B := 0x406F400000000000, C := 0, S := [] } =
    .ok (.bnrToField 0o012 0x406F400000000000) ∧
  decode { H := 0x0000680A, A := 0, B := 0, C := 0x001E0E01, S := [] } =
    .ok (.bcdToField 0o150 { tag := .time, f1 := 14, f2 := 30, f3 := 0 }) ∧
  decodeTableWord 32 0x03000A0C = some (.ssmInterpret 0o012 3) ∧
  decode { H := 0x0001681D, A := 0, B := 0, C := 0x001E0E01, S := [] } =
    .ok (.encode 0o150 1 (.calendar { tag := .time, f1 := 14, f2 := 30, f3 := 0 }) 0) ∧
  decodeTableWord 64 0x0003FB2E0000830F = some (.toPhysical 0o203 0x3FB2E)

/-! ### The label operations -/

/-- LOOKUP (R110): its frame and its two outcomes. -/
def Obligations.LookupReturnsTheWholeEntry : Prop :=
  (∀ f : Frame, f.reserved = 0 → f.op = 0x0 → decode f = .ok (.lookup f.code)) ∧
  ∀ (s : State) (code : Byte),
    (romRead s.rom code = none → exec (.lookup code) s = .next (s.answered (.failure .unknownLabel))) ∧
    (∀ e, romRead s.rom code = some e →
      exec (.lookup code) s = .next (s.answered (.success (.entry e))))

/-- LABEL_RAW, LABEL_NAME and LABEL_UNITS (R111, R112, R113). In a well-formed ROM LABEL_RAW's result is the
code of the request. -/
def Obligations.LabelAccessorsReturnTheFields : Prop :=
  (∀ f : Frame, f.reserved = 0 →
    (f.op = 0x1 → decode f = .ok (.labelRaw f.code)) ∧
    (f.op = 0x2 → decode f = .ok (.labelName f.code)) ∧
    (f.op = 0x3 → decode f = .ok (.labelUnits f.code))) ∧
  ∀ (s : State) (code : Byte),
    (romRead s.rom code = none →
      exec (.labelRaw code) s = .next (s.answered (.failure .unknownLabel)) ∧
      exec (.labelName code) s = .next (s.answered (.failure .unknownLabel)) ∧
      exec (.labelUnits code) s = .next (s.answered (.failure .unknownLabel))) ∧
    (∀ e, romRead s.rom code = some e →
      exec (.labelRaw code) s = .next (s.answered (.success (.code e.code))) ∧
      exec (.labelName code) s = .next (s.answered (.success (.string e.name))) ∧
      exec (.labelUnits code) s = .next (s.answered (.success (.string e.units)))) ∧
    (∀ e, romWf s.rom = true → romRead s.rom code = some e →
      exec (.labelRaw code) s = .next (s.answered (.success (.code code))))

/-- LABEL_OCTAL (R114, R116): three characters, each an octal digit of the code, zero-padded. -/
def Obligations.LabelOctalWritesThreeDigits : Prop :=
  (∀ f : Frame, f.reserved = 0 → f.op = 0x4 → decode f = .ok (.labelOctal f.code)) ∧
  ∀ (s : State) (code : Byte),
    (romRead s.rom code = none →
      exec (.labelOctal code) s = .next (s.answered (.failure .unknownLabel))) ∧
    (∀ e, romRead s.rom code = some e →
      exec (.labelOctal code) s = .next (s.answered (.success (.string
        [BitVec.ofNat 8 (0x30 + e.code.toNat / 64), BitVec.ofNat 8 (0x30 + e.code.toNat / 8 % 8),
          BitVec.ofNat 8 (0x30 + e.code.toNat % 8)]))))

/-- OCTAL_PARSE (R115): a string of three octal digits in 000 to 377 gives its value, every other string
fails with UnknownLabel. -/
def Obligations.OctalParseReadsThreeOctalDigits : Prop :=
  (∀ f : Frame, f.reserved = 0 → f.op = 0x5 → f.S.length ≤ 255 → decode f = .ok (.octalParse f.S)) ∧
  ∀ (s : State) (str : Bytes),
    (∀ a b c : Byte, str = [a, b, c] →
      0x30 ≤ a.toNat → a.toNat ≤ 0x33 → 0x30 ≤ b.toNat → b.toNat ≤ 0x37 → 0x30 ≤ c.toNat →
      c.toNat ≤ 0x37 →
      ∃ v : Byte, v.toNat = 64 * (a.toNat - 0x30) + 8 * (b.toNat - 0x30) + (c.toNat - 0x30) ∧
        exec (.octalParse str) s = .next (s.answered (.success (.code v)))) ∧
    ((¬∃ a b c : Byte, str = [a, b, c] ∧ 0x30 ≤ a.toNat ∧ a.toNat ≤ 0x33 ∧ 0x30 ≤ b.toNat ∧
        b.toNat ≤ 0x37 ∧ 0x30 ≤ c.toNat ∧ c.toNat ≤ 0x37) →
      exec (.octalParse str) s = .next (s.answered (.failure .unknownLabel)))

/-- The octal notation goes round, both ways (R117, which the spec derives from R115 and R116). -/
def Obligations.OctalNotationGoesRound : Prop :=
  (∀ (s : State) (c : Byte),
    exec (.octalParse (octal3 c)) s = .next (s.answered (.success (.code c)))) ∧
  (∀ (s : State) (str : Bytes) (c : Byte),
    exec (.octalParse str) s = .next (s.answered (.success (.code c))) → octal3 c = str)

/-! ### The Word Codec -/

/-- Bit reversal (R130): bit i is bit 7-i, reversing twice changes nothing, it is a bijection, and its fixed
points are the sixteen bytes of the rule. -/
def Obligations.BitReversalIsItsOwnInverse : Prop :=
  (∀ (b : Byte) (i : Nat), i < 8 → (reverse8 b).getLsbD i = b.getLsbD (7 - i)) ∧
  (∀ b : Byte, reverse8 (reverse8 b) = b) ∧ Function.Bijective reverse8 ∧
  (∀ b : Byte, reverse8 b = b ↔
    b ∈ ([0x00, 0xFF, 0x18, 0x24, 0x3C, 0x42, 0x5A, 0x66, 0x7E, 0x81, 0x99, 0xA5, 0xBD, 0xC3, 0xDB,
      0xE7] : List Byte))

/-- PACK (R132): the checks, and the word in the layout of R60 to R68 with odd parity. -/
def Obligations.PackLaysOutTheWord : Prop :=
  (∀ f : Frame, f.reserved = 0 → f.op = 0x6 → decode f = .ok (.pack f.code f.sdi f.A f.ssm)) ∧
  ∀ (s : State) (code sdi : Byte) (data : Word) (ssm : Byte), romWf s.rom = true →
    (romRead s.rom code = none →
      exec (.pack code sdi data ssm) s = .next (s.answered (.failure .unknownLabel))) ∧
    (∀ e, romRead s.rom code = some e →
      4 ≤ sdi.toNat ∨ 2 ^ e.width ≤ data.toNat ∨ 4 ≤ ssm.toNat →
      exec (.pack code sdi data ssm) s = .next (s.answered (.failure .outOfRange))) ∧
    (∀ e, romRead s.rom code = some e →
      sdi.toNat < 4 → data.toNat < 2 ^ e.width → ssm.toNat < 4 →
      ∃ w, WordHolds w code sdi.toNat data.toNat ssm.toNat ∧
        exec (.pack code sdi data ssm) s = .next (s.answered (.success (.word w))))

/-- UNPACK (R133): the parity check, then the fields. It answers in every ROM. -/
def Obligations.UnpackChecksParityAndSplits : Prop :=
  (∀ f : Frame, f.reserved = 0 → f.op = 0x7 → decode f = .ok (.unpack f.A)) ∧
  ∀ (s : State) (w : Word),
    (popcount w % 2 = 0 → exec (.unpack w) s = .next (s.answered (.failure .parityError))) ∧
    (popcount w % 2 = 1 → ∃ f : WireFields,
      (∀ i < 8, f.code.getLsbD i = w.getLsbD (7 - i)) ∧ f.sdi = w.extractLsb' 8 2 ∧
      f.data = w.extractLsb' 10 19 ∧ f.ssm = w.extractLsb' 29 2 ∧
      exec (.unpack w) s = .next (s.answered (.success (.fields f))))

/-- Every word PACK or ENCODE returns has an odd number of 1 bits (R66; R134, which the spec derives from
R131 and R132). -/
def Obligations.ReturnedWordsHaveOddParity : Prop :=
  ∀ (s : State) (w : Word),
    (∀ code sdi data ssm,
      exec (.pack code sdi data ssm) s = .next (s.answered (.success (.word w))) →
        popcount w % 2 = 1) ∧
    (∀ code sdi v ssm,
      exec (.encode code sdi v ssm) s = .next (s.answered (.success (.word w))) →
        popcount w % 2 = 1)

/-- UNPACK undoes PACK and PACK undoes UNPACK (R135, which the spec derives from R130, R132 and R133). -/
def Obligations.PackAndUnpackAreInverse : Prop :=
  (∀ (s : State) (code sdi : Byte) (data : Word) (ssm : Byte) (e : LabelEntry),
    romWf s.rom = true → romRead s.rom code = some e →
    sdi.toNat < 4 → data.toNat < 2 ^ e.width → ssm.toNat < 4 →
    ∃ w, exec (.pack code sdi data ssm) s = .next (s.answered (.success (.word w))) ∧
      exec (.unpack w) s = .next (s.answered (.success (.fields
        { code := code, sdi := sdi.setWidth 2, data := data.setWidth 19, ssm := ssm.setWidth 2 })))) ∧
  (∀ (s : State) (w : Word) (f : WireFields) (e : LabelEntry),
    romWf s.rom = true → exec (.unpack w) s = .next (s.answered (.success (.fields f))) →
    romRead s.rom f.code = some e → f.data.toNat < 2 ^ e.width →
    exec (.pack f.code (f.sdi.setWidth 8) (f.data.setWidth 32) (f.ssm.setWidth 8)) s =
      .next (s.answered (.success (.word w))))

/-- Flipping an odd number of bits of a word that passes the parity check is detected by UNPACK and DECODE;
flipping an even number is not detected by the parity check (R136, which the spec derives from R131 and
R133). -/
def Obligations.OddBitFlipsAreDetected : Prop :=
  ∀ (s : State) (w m : Word), popcount w % 2 = 1 →
    (popcount m % 2 = 1 →
      exec (.unpack (w ^^^ m)) s = .next (s.answered (.failure .parityError)) ∧
      exec (.decode (w ^^^ m)) s = .next (s.answered (.failure .parityError))) ∧
    (popcount m % 2 = 0 →
      (∃ f, exec (.unpack (w ^^^ m)) s = .next (s.answered (.success (.fields f)))) ∧
      exec (.decode (w ^^^ m)) s ≠ .next (s.answered (.failure .parityError)))

/-! ### The BNR Converter -/

/-- BNR_TO_FIELD (R152): the label, the kind, a finite input; then the exact quotient is rounded once and
the rounded value is checked. -/
def Obligations.BnrToFieldRoundsTheExactQuotient : Prop :=
  (∀ f : Frame, f.reserved = 0 → f.op = 0x8 → decode f = .ok (.bnrToField f.code f.B)) ∧
  ∀ (s : State) (code : Byte) (x : F64), romWf s.rom = true →
    (romRead s.rom code = none →
      exec (.bnrToField code x) s = .next (s.answered (.failure .unknownLabel))) ∧
    (∀ e, romRead s.rom code = some e → e.kind ≠ .bnr →
      exec (.bnrToField code x) s = .next (s.answered (.failure .unsupportedConversion))) ∧
    (∀ e res, romRead s.rom code = some e → e.encoding = .bnr res → F64.isFinite x = false →
      exec (.bnrToField code x) s = .next (s.answered (.failure .outOfRange))) ∧
    (∀ e res, romRead s.rom code = some e → e.encoding = .bnr res → F64.isFinite x = true →
      ∃ n : ℤ, IsRounded s.tie (F64.value x / F64.value res) n ∧
        (-(2 : ℤ) ^ (e.width - 1) ≤ n ∧ n ≤ 2 ^ (e.width - 1) - 1 →
          exec (.bnrToField code x) s = .next (s.answered (.success (.signedInt n)))) ∧
        (n < -(2 : ℤ) ^ (e.width - 1) ∨ 2 ^ (e.width - 1) - 1 < n →
          exec (.bnrToField code x) s = .next (s.answered (.failure .outOfRange))))

/-- The field pattern of a BNR integer and its inverse (R150), and the bits above the width are 0. -/
def Obligations.BnrFieldPatternIsTwosComplement : Prop :=
  ∀ (width : Nat) (n : ℤ), 1 ≤ width → width ≤ 19 →
    ((bnrField width n).toNat : ℤ) = n % 2 ^ width ∧
    (-(2 : ℤ) ^ (width - 1) ≤ n → n ≤ 2 ^ (width - 1) - 1 → bnrInteger width (bnrField width n) = n)

/-- BNR_TO_PHYS (R153): the `width` low data bits read as two's complement, times the resolution, is rounded
once to the nearest binary64; zero gives +0.0, and the bits above the width do not matter. -/
def Obligations.BnrToPhysRoundsTheExactProduct : Prop :=
  (∀ f : Frame, f.reserved = 0 → f.op = 0x9 → f.A.extractLsb' 19 13 = 0 →
    decode f = .ok (.bnrToPhys f.code (f.A.extractLsb' 0 19))) ∧
  ∀ (s : State) (code : Byte) (data : DataField), romWf s.rom = true →
    (romRead s.rom code = none →
      exec (.bnrToPhys code data) s = .next (s.answered (.failure .unknownLabel))) ∧
    (∀ e, romRead s.rom code = some e → e.kind ≠ .bnr →
      exec (.bnrToPhys code data) s = .next (s.answered (.failure .unsupportedConversion))) ∧
    (∀ e res, romRead s.rom code = some e → e.encoding = .bnr res →
      ∃ r : F64, IsNearestF64 (((data.setWidth e.width).toInt : ℚ) * F64.value res) r ∧
        ((data.setWidth e.width).toInt = 0 → r = 0) ∧
        exec (.bnrToPhys code data) s = .next (s.answered (.success (.float r))))

/-- The quantization bound, and for a resolution that is a power of two the recovered value is exact, so the
conversion back never rounds (R151; R154, which the spec derives from R150, R152 and R153). -/
def Obligations.QuantizationErrsByAtMostHalfAStep : Prop :=
  ∀ (s : State) (code : Byte) (x : F64) (n : ℤ) (e : LabelEntry) (res : F64),
    romWf s.rom = true → romRead s.rom code = some e → e.encoding = .bnr res →
    exec (.bnrToField code x) s = .next (s.answered (.success (.signedInt n))) →
    |(n : ℚ) * F64.value res - F64.value x| ≤ F64.value res / 2 ∧
    (IsPowerOfTwo (F64.value res) →
      ∃ r : F64, exec (.bnrToPhys code (bnrField e.width n)) s = .next (s.answered (.success (.float r))) ∧
        F64.isFinite r = true ∧ F64.value r = (n : ℚ) * F64.value res)

/-- Exact multiples of the resolution convert exactly both ways (R155, which the spec derives from R152 and
R153). DEDUCED (log entry 14): the negative zero comes back as +0.0, because R153 says data 0 gives +0.0,
never -0.0. -/
def Obligations.ExactMultiplesConvertExactly : Prop :=
  ∀ (s : State) (code : Byte) (x : F64) (n : ℤ) (e : LabelEntry) (res : F64),
    romWf s.rom = true → romRead s.rom code = some e → e.encoding = .bnr res →
    F64.isFinite x = true → F64.value x = (n : ℚ) * F64.value res →
    -(2 : ℤ) ^ (e.width - 1) ≤ n → n ≤ 2 ^ (e.width - 1) - 1 →
    exec (.bnrToField code x) s = .next (s.answered (.success (.signedInt n))) ∧
    (x ≠ 0x8000000000000000 →
      exec (.bnrToPhys code (bnrField e.width n)) s = .next (s.answered (.success (.float x)))) ∧
    (x = 0x8000000000000000 →
      exec (.bnrToPhys code (bnrField e.width n)) s = .next (s.answered (.success (.float 0))))

/-- Which finite physical values a BNR label accepts, under each TIE, and the two default labels' ranges
(R156, which the spec derives from R152). -/
def Obligations.AcceptedPhysicalRange : Prop :=
  (∀ (s : State) (code : Byte) (x : F64) (e : LabelEntry) (res : F64),
    romWf s.rom = true → romRead s.rom code = some e → e.encoding = .bnr res →
    F64.isFinite x = true →
    ((∃ n, exec (.bnrToField code x) s = .next (s.answered (.success (.signedInt n)))) ↔
      match s.tie with
      | .tiesToEven =>
        (-(2 : ℚ) ^ (e.width - 1) - 1 / 2) * F64.value res ≤ F64.value x ∧
          F64.value x < ((2 : ℚ) ^ (e.width - 1) - 1 / 2) * F64.value res
      | .tiesAway =>
        (-(2 : ℚ) ^ (e.width - 1) - 1 / 2) * F64.value res < F64.value x ∧
          F64.value x < ((2 : ℚ) ^ (e.width - 1) - 1 / 2) * F64.value res)) ∧
  (∀ (s : State) (x : F64), s.rom = State.reset.rom → F64.isFinite x = true →
    ((∃ n, exec (.bnrToField 0o012 x) s = .next (s.answered (.success (.signedInt n)))) ↔
      ((s.tie = .tiesToEven ∧ (-4096.0625 : ℚ) ≤ F64.value x ∨
        s.tie = .tiesAway ∧ (-4096.0625 : ℚ) < F64.value x) ∧ F64.value x < 4095.9375)) ∧
    ((∃ n, exec (.bnrToField 0o203 x) s = .next (s.answered (.success (.signedInt n)))) ↔
      ((s.tie = .tiesToEven ∧ (-131072.5 : ℚ) ≤ F64.value x ∨
        s.tie = .tiesAway ∧ (-131072.5 : ℚ) < F64.value x) ∧ F64.value x < 131071.5)))

/-! ### The BCD Converter -/

/-- The default layouts (R172, R173; the spec marks the DATE layout as general knowledge, log entry 4):
where each digit lies, the ranges, and every data bit is covered. -/
def Obligations.DefaultLayoutsAreTheSpecs : Prop :=
  (∀ d : DataField,
    dateLayout.f1.tens d = (d.extractLsb' 17 2).toNat ∧ dateLayout.f1.units d = (d.extractLsb' 13 4).toNat ∧
    dateLayout.f2.tens d = (d.extractLsb' 12 1).toNat ∧ dateLayout.f2.units d = (d.extractLsb' 8 4).toNat ∧
    dateLayout.f3.tens d = (d.extractLsb' 4 4).toNat ∧ dateLayout.f3.units d = (d.extractLsb' 0 4).toNat ∧
    timeLayout.f1.tens d = (d.extractLsb' 18 1).toNat ∧ timeLayout.f1.units d = (d.extractLsb' 14 4).toNat ∧
    timeLayout.f2.tens d = (d.extractLsb' 11 3).toNat ∧ timeLayout.f2.units d = (d.extractLsb' 7 4).toNat ∧
    timeLayout.f3.tens d = (d.extractLsb' 4 3).toNat ∧ timeLayout.f3.units d = (d.extractLsb' 0 4).toNat) ∧
  (∀ v : Nat,
    (dateLayout.f1.inRange v = true ↔ 1 ≤ v ∧ v ≤ 31) ∧ (dateLayout.f2.inRange v = true ↔ 1 ≤ v ∧ v ≤ 12) ∧
    (dateLayout.f3.inRange v = true ↔ v ≤ 99) ∧ (timeLayout.f1.inRange v = true ↔ v ≤ 23) ∧
    (timeLayout.f2.inRange v = true ↔ v ≤ 59) ∧ (timeLayout.f3.inRange v = true ↔ v ≤ 59)) ∧
  (∀ i < 19, Covered dateLayout i ∧ Covered timeLayout i)

/-- BCD_TO_FIELD (R175): the label, the kind, the tag; all ranges, the tens widths; then each group holds
its digit and every bit no group covers is 0 (R171). -/
def Obligations.BcdToFieldPacksTheDigits : Prop :=
  (∀ f : Frame, f.reserved = 0 → f.op = 0xA → f.C.extractLsb' 1 7 = 0 →
    decode f = .ok (.bcdToField f.code
      { tag := if f.C.getLsbD 0 then .time else .date, f1 := f.C.extractLsb' 8 8,
        f2 := f.C.extractLsb' 16 8, f3 := f.C.extractLsb' 24 8 })) ∧
  ∀ (s : State) (code : Byte) (c : Calendar), romWf s.rom = true →
    (romRead s.rom code = none →
      exec (.bcdToField code c) s = .next (s.answered (.failure .unknownLabel))) ∧
    (∀ e, romRead s.rom code = some e → e.kind ≠ .bcd →
      exec (.bcdToField code c) s = .next (s.answered (.failure .unsupportedConversion))) ∧
    (∀ e L, romRead s.rom code = some e → e.encoding = .bcd L → c.tag ≠ L.tag →
      exec (.bcdToField code c) s = .next (s.answered (.failure .unsupportedConversion))) ∧
    (∀ e L, romRead s.rom code = some e → e.encoding = .bcd L → c.tag = L.tag →
      (∃ p ∈ fieldPairs L c, p.2 < p.1.lo ∨ p.1.hi < p.2 ∨ 2 ^ p.1.tw ≤ p.2 / 10) →
      exec (.bcdToField code c) s = .next (s.answered (.failure .outOfRange))) ∧
    (∀ e L, romRead s.rom code = some e → e.encoding = .bcd L → c.tag = L.tag →
      (∀ p ∈ fieldPairs L c, p.1.lo ≤ p.2 ∧ p.2 ≤ p.1.hi ∧ p.2 / 10 < 2 ^ p.1.tw) →
      ∃ d : DataField,
        (∀ p ∈ fieldPairs L c, grp d p.1.t p.1.tw = p.2 / 10 ∧ grp d p.1.u 4 = p.2 % 10) ∧
        (∀ i, ¬Covered L i → d.getLsbD i = false) ∧
        exec (.bcdToField code c) s = .next (s.answered (.success (.data d))))

/-- BCD_TO_CAL (R176): the label, the kind; all digits, then all fields; then the calendar record. -/
def Obligations.BcdToCalReadsTheDigits : Prop :=
  (∀ f : Frame, f.reserved = 0 → f.op = 0xB → f.A.extractLsb' 19 13 = 0 →
    decode f = .ok (.bcdToCal f.code (f.A.extractLsb' 0 19))) ∧
  ∀ (s : State) (code : Byte) (d : DataField), romWf s.rom = true →
    (romRead s.rom code = none →
      exec (.bcdToCal code d) s = .next (s.answered (.failure .unknownLabel))) ∧
    (∀ e, romRead s.rom code = some e → e.kind ≠ .bcd →
      exec (.bcdToCal code d) s = .next (s.answered (.failure .unsupportedConversion))) ∧
    (∀ e L, romRead s.rom code = some e → e.encoding = .bcd L →
      (∃ f ∈ fieldDescs L, 9 < grp d f.t f.tw ∨ 9 < grp d f.u 4) →
      exec (.bcdToCal code d) s = .next (s.answered (.failure .invalidDigit))) ∧
    (∀ e L, romRead s.rom code = some e → e.encoding = .bcd L →
      (∀ f ∈ fieldDescs L, grp d f.t f.tw ≤ 9 ∧ grp d f.u 4 ≤ 9) →
      (∃ f ∈ fieldDescs L, 10 * grp d f.t f.tw + grp d f.u 4 < f.lo ∨
        f.hi < 10 * grp d f.t f.tw + grp d f.u 4) →
      exec (.bcdToCal code d) s = .next (s.answered (.failure .invalidField))) ∧
    (∀ e L, romRead s.rom code = some e → e.encoding = .bcd L →
      (∀ f ∈ fieldDescs L, grp d f.t f.tw ≤ 9 ∧ grp d f.u 4 ≤ 9 ∧
        f.lo ≤ 10 * grp d f.t f.tw + grp d f.u 4 ∧ 10 * grp d f.t f.tw + grp d f.u 4 ≤ f.hi) →
      ∃ c : Calendar, c.tag = L.tag ∧
        (∀ p ∈ fieldPairs L c, p.2 = 10 * grp d p.1.t p.1.tw + grp d p.1.u 4) ∧
        exec (.bcdToCal code d) s = .next (s.answered (.success (.calendar c))))

/-- BCD_TO_CAL undoes BCD_TO_FIELD (R178, which the spec derives from R175 and R176). -/
def Obligations.CalendarsGoRound : Prop :=
  ∀ (s : State) (code : Byte) (c : Calendar) (d : DataField), romWf s.rom = true →
    exec (.bcdToField code c) s = .next (s.answered (.success (.data d))) →
    exec (.bcdToCal code d) s = .next (s.answered (.success (.calendar c)))

/-- What the default layouts can represent (R177, which the spec derives from R172, R173 and R175): every
date in range, and every time with an hour up to 19; hours 20 to 23 pass the range check and fail the width
check. -/
def Obligations.RepresentableCalendarsOfTheDefaults : Prop :=
  ∀ (s : State) (a b c : Byte), s.rom = State.reset.rom →
    (1 ≤ a.toNat → a.toNat ≤ 31 → 1 ≤ b.toNat → b.toNat ≤ 12 → c.toNat ≤ 99 →
      ∃ d, exec (.bcdToField 0o260 { tag := .date, f1 := a, f2 := b, f3 := c }) s =
        .next (s.answered (.success (.data d)))) ∧
    (a.toNat ≤ 19 → b.toNat ≤ 59 → c.toNat ≤ 59 →
      ∃ d, exec (.bcdToField 0o150 { tag := .time, f1 := a, f2 := b, f3 := c }) s =
        .next (s.answered (.success (.data d)))) ∧
    (20 ≤ a.toNat → a.toNat ≤ 23 → b.toNat ≤ 59 → c.toNat ≤ 59 →
      timeLayout.f1.inRange a.toNat = true ∧ timeLayout.f1.fits a.toNat = false ∧
      exec (.bcdToField 0o150 { tag := .time, f1 := a, f2 := b, f3 := c }) s =
        .next (s.answered (.failure .outOfRange)))

/-- InvalidDigit comes from a group of width 4 that holds 10 to 15, in BCD_TO_CAL and in DECODE, and from
nothing else (R179, which the spec derives from R172, R173 and R176). In the default layouts those groups
are the ones R179 lists. -/
def Obligations.OnlyFullNibblesRaiseInvalidDigit : Prop :=
  (∀ (s : State) (code : Byte) (d : DataField) (e : LabelEntry) (L : Layout),
    romWf s.rom = true → romRead s.rom code = some e → e.encoding = .bcd L →
    (exec (.bcdToCal code d) s = .next (s.answered (.failure .invalidDigit)) ↔
      ∃ g ∈ L.groups, g.2 = 4 ∧ 10 ≤ grp d g.1 g.2)) ∧
  (∀ (s : State) (w : Word) (e : LabelEntry) (L : Layout),
    romWf s.rom = true → popcount w % 2 = 1 →
    romRead s.rom (reverse8 (w.extractLsb' 0 8)) = some e → e.encoding = .bcd L →
    (exec (.decode w) s = .next (s.answered (.failure .invalidDigit)) ↔
      ∃ g ∈ L.groups, g.2 = 4 ∧ 10 ≤ grp (w.extractLsb' 10 19) g.1 g.2)) ∧
  dateLayout.groups.filter (fun g => g.2 = 4) = [(13, 4), (8, 4), (4, 4), (0, 4)] ∧
  timeLayout.groups.filter (fun g => g.2 = 4) = [(14, 4), (7, 4), (0, 4)]

/-! ### The SSM Interpreter -/

/-- SSM_INTERPRET (R200, R202): the status of the label's kind and the code; every code is valid for every
kind. -/
def Obligations.SsmInterpretReadsTheTable : Prop :=
  (∀ f : Frame, f.reserved = 0 → f.op = 0xC → f.ssm.extractLsb' 2 6 = 0 →
    decode f = .ok (.ssmInterpret f.code (f.ssm.extractLsb' 0 2))) ∧
  ∀ (s : State) (code : Byte) (ssm : BitVec 2),
    (romRead s.rom code = none →
      exec (.ssmInterpret code ssm) s = .next (s.answered (.failure .unknownLabel))) ∧
    (∀ e, romRead s.rom code = some e →
      exec (.ssmInterpret code ssm) s =
        .next (s.answered (.success (.status (ssmStatus s.ssmTable e.kind ssm))))) ∧
    (∀ i (h : i < 4),
      ssmStatus s.ssmTable .bnr (BitVec.ofNat 2 i) = s.ssmTable.bnr[i] ∧
      ssmStatus s.ssmTable .bcd (BitVec.ofNat 2 i) = s.ssmTable.bcd[i] ∧
      ssmStatus s.ssmTable .discrete (BitVec.ofNat 2 i) = s.ssmTable.discrete[i])

/-- The SSM code is carried unchanged by PACK, ENCODE, UNPACK and DECODE (R203, which the spec derives from
R132 and R133). -/
def Obligations.SsmCodeIsCarriedUnchanged : Prop :=
  ∀ (s : State) (w : Word),
    (∀ code sdi data ssm,
      exec (.pack code sdi data ssm) s = .next (s.answered (.success (.word w))) →
        (w.extractLsb' 29 2).toNat = ssm.toNat) ∧
    (∀ code sdi v ssm,
      exec (.encode code sdi v ssm) s = .next (s.answered (.success (.word w))) →
        (w.extractLsb' 29 2).toNat = ssm.toNat) ∧
    (∀ f, exec (.unpack w) s = .next (s.answered (.success (.fields f))) →
      f.ssm = w.extractLsb' 29 2) ∧
    (∀ d, exec (.decode w) s = .next (s.answered (.success (.decoded d))) →
      d.ssm = w.extractLsb' 29 2)

/-! ### The top-level operations -/

/-- ENCODE (R210, R211, R250): its frame for each value tag; the label, the value's kind, then sdi and ssm;
then the value's own checks and the word, which holds the operands and the data field. -/
def Obligations.EncodeConvertsAndAssembles : Prop :=
  (∀ f : Frame, f.reserved = 0 → f.op = 0xD →
    (f.vtag = 0 → decode f = .ok (.encode f.code f.sdi (.physical f.B) f.ssm)) ∧
    (f.vtag = 1 → f.C.extractLsb' 1 7 = 0 →
      decode f = .ok (.encode f.code f.sdi (.calendar
        { tag := if f.C.getLsbD 0 then .time else .date, f1 := f.C.extractLsb' 8 8,
          f2 := f.C.extractLsb' 16 8, f3 := f.C.extractLsb' 24 8 }) f.ssm)) ∧
    (f.vtag = 2 → decode f = .ok (.encode f.code f.sdi (.raw f.A) f.ssm)) ∧
    (f.vtag = 3 → ∃ why, decode f = .error why)) ∧
  (∀ (s : State) (code sdi ssm : Byte) (v : Value), romWf s.rom = true →
    (romRead s.rom code = none →
      exec (.encode code sdi v ssm) s = .next (s.answered (.failure .unknownLabel))) ∧
    (∀ e, romRead s.rom code = some e → ¬Suits e v →
      exec (.encode code sdi v ssm) s = .next (s.answered (.failure .unsupportedConversion))) ∧
    (∀ e, romRead s.rom code = some e → Suits e v → 4 ≤ sdi.toNat ∨ 4 ≤ ssm.toNat →
      exec (.encode code sdi v ssm) s = .next (s.answered (.failure .outOfRange)))) ∧
  (∀ (s : State) (code sdi ssm : Byte) (e : LabelEntry),
    romWf s.rom = true → romRead s.rom code = some e → sdi.toNat < 4 → ssm.toNat < 4 →
    (∀ x res, e.encoding = .bnr res → F64.isFinite x = false →
      exec (.encode code sdi (.physical x) ssm) s = .next (s.answered (.failure .outOfRange))) ∧
    (∀ x res, e.encoding = .bnr res → F64.isFinite x = true →
      ∃ n : ℤ, IsRounded s.tie (F64.value x / F64.value res) n ∧
        (-(2 : ℤ) ^ (e.width - 1) ≤ n ∧ n ≤ 2 ^ (e.width - 1) - 1 →
          ∃ (w : Word) (data : Nat), (data : ℤ) = n % 2 ^ e.width ∧
            WordHolds w code sdi.toNat data ssm.toNat ∧
            exec (.encode code sdi (.physical x) ssm) s = .next (s.answered (.success (.word w)))) ∧
        (n < -(2 : ℤ) ^ (e.width - 1) ∨ 2 ^ (e.width - 1) - 1 < n →
          exec (.encode code sdi (.physical x) ssm) s = .next (s.answered (.failure .outOfRange)))) ∧
    (∀ (c : Calendar) L, e.encoding = .bcd L → c.tag = L.tag →
      ((∃ p ∈ fieldPairs L c, p.2 < p.1.lo ∨ p.1.hi < p.2 ∨ 2 ^ p.1.tw ≤ p.2 / 10) →
        exec (.encode code sdi (.calendar c) ssm) s = .next (s.answered (.failure .outOfRange))) ∧
      ((∀ p ∈ fieldPairs L c, p.1.lo ≤ p.2 ∧ p.2 ≤ p.1.hi ∧ p.2 / 10 < 2 ^ p.1.tw) →
        ∃ (w : Word) (d : DataField),
          (∀ p ∈ fieldPairs L c, grp d p.1.t p.1.tw = p.2 / 10 ∧ grp d p.1.u 4 = p.2 % 10) ∧
          (∀ i, ¬Covered L i → d.getLsbD i = false) ∧
          WordHolds w code sdi.toNat d.toNat ssm.toNat ∧
          exec (.encode code sdi (.calendar c) ssm) s = .next (s.answered (.success (.word w))))) ∧
    (∀ r : Word, r.toNat < 2 ^ e.width →
      ∃ w : Word, WordHolds w code sdi.toNat r.toNat ssm.toNat ∧
        exec (.encode code sdi (.raw r) ssm) s = .next (s.answered (.success (.word w)))) ∧
    (∀ r : Word, 2 ^ e.width ≤ r.toNat →
      exec (.encode code sdi (.raw r) ssm) s = .next (s.answered (.failure .outOfRange))))

/-- DECODE (R220, R221): parity before anything else, then the label, then for a BCD label all digits and
all fields; the record holds the fields as read, the status, and a calendar if and only if the label is
BCD. -/
def Obligations.DecodeFillsTheRecord : Prop :=
  (∀ f : Frame, f.reserved = 0 → f.op = 0xE → decode f = .ok (.decode f.A)) ∧
  ∀ (s : State) (w : Word) (code : Byte) (d : DataField), romWf s.rom = true →
    (∀ i < 8, code.getLsbD i = w.getLsbD (7 - i)) → d = w.extractLsb' 10 19 →
    (popcount w % 2 = 0 → exec (.decode w) s = .next (s.answered (.failure .parityError))) ∧
    (popcount w % 2 = 1 → romRead s.rom code = none →
      exec (.decode w) s = .next (s.answered (.failure .unknownLabel))) ∧
    (∀ e, popcount w % 2 = 1 → romRead s.rom code = some e → e.kind ≠ .bcd →
      exec (.decode w) s = .next (s.answered (.success (.decoded
        { label := e, sdi := w.extractLsb' 8 2, data := d, ssm := w.extractLsb' 29 2,
          status := ssmStatus s.ssmTable e.kind (w.extractLsb' 29 2), cal := none })))) ∧
    (∀ e L, popcount w % 2 = 1 → romRead s.rom code = some e → e.encoding = .bcd L →
      (∃ f ∈ fieldDescs L, 9 < grp d f.t f.tw ∨ 9 < grp d f.u 4) →
      exec (.decode w) s = .next (s.answered (.failure .invalidDigit))) ∧
    (∀ e L, popcount w % 2 = 1 → romRead s.rom code = some e → e.encoding = .bcd L →
      (∀ f ∈ fieldDescs L, grp d f.t f.tw ≤ 9 ∧ grp d f.u 4 ≤ 9) →
      (∃ f ∈ fieldDescs L, 10 * grp d f.t f.tw + grp d f.u 4 < f.lo ∨
        f.hi < 10 * grp d f.t f.tw + grp d f.u 4) →
      exec (.decode w) s = .next (s.answered (.failure .invalidField))) ∧
    (∀ e L, popcount w % 2 = 1 → romRead s.rom code = some e → e.encoding = .bcd L →
      (∀ f ∈ fieldDescs L, grp d f.t f.tw ≤ 9 ∧ grp d f.u 4 ≤ 9 ∧
        f.lo ≤ 10 * grp d f.t f.tw + grp d f.u 4 ∧ 10 * grp d f.t f.tw + grp d f.u 4 ≤ f.hi) →
      ∃ c : Calendar, c.tag = L.tag ∧
        (∀ p ∈ fieldPairs L c, p.2 = 10 * grp d p.1.t p.1.tw + grp d p.1.u 4) ∧
        exec (.decode w) s = .next (s.answered (.success (.decoded
          { label := e, sdi := w.extractLsb' 8 2, data := d, ssm := w.extractLsb' 29 2,
            status := ssmStatus s.ssmTable .bcd (w.extractLsb' 29 2), cal := some c }))))

/-- TO_PHYSICAL (R222): BNR_TO_PHYS's value with the label's units. -/
def Obligations.ToPhysicalAddsTheUnits : Prop :=
  (∀ f : Frame, f.reserved = 0 → f.op = 0xF → f.A.extractLsb' 19 13 = 0 →
    decode f = .ok (.toPhysical f.code (f.A.extractLsb' 0 19))) ∧
  ∀ (s : State) (code : Byte) (data : DataField), romWf s.rom = true →
    (romRead s.rom code = none →
      exec (.toPhysical code data) s = .next (s.answered (.failure .unknownLabel))) ∧
    (∀ e, romRead s.rom code = some e → e.kind ≠ .bnr →
      exec (.toPhysical code data) s = .next (s.answered (.failure .unsupportedConversion))) ∧
    (∀ e res, romRead s.rom code = some e → e.encoding = .bnr res →
      ∃ r : F64, IsNearestF64 (((data.setWidth e.width).toInt : ℚ) * F64.value res) r ∧
        exec (.bnrToPhys code data) s = .next (s.answered (.success (.float r))) ∧
        exec (.toPhysical code data) s = .next (s.answered (.success (.physical r e.units))))

/-- DECODE undoes ENCODE (R223, an inference of the spec's own): the same label, sdi and ssm, the status of
the table, and the value. The half-step bound is stated for a resolution that is a power of two, as R154
states it, and one step for every resolution, which is the source's own bound (log entry 20). -/
def Obligations.DecodeUndoesEncode : Prop :=
  ∀ (s : State) (code sdi ssm : Byte) (v : Value) (e : LabelEntry) (w : Word),
    romWf s.rom = true → romRead s.rom code = some e →
    exec (.encode code sdi v ssm) s = .next (s.answered (.success (.word w))) →
    ((∃ r f, v = .raw r ∧ e.kind = .bcd ∧ (f = .invalidDigit ∨ f = .invalidField) ∧
        exec (.bcdToCal code (r.setWidth 19)) s = .next (s.answered (.failure f))) ∨
      ∃ d, exec (.decode w) s = .next (s.answered (.success (.decoded d)))) ∧
    (∀ d, exec (.decode w) s = .next (s.answered (.success (.decoded d))) →
      d.label = e ∧ d.sdi.toNat = sdi.toNat ∧ d.ssm.toNat = ssm.toNat ∧
      d.status = ssmStatus s.ssmTable e.kind d.ssm ∧
      (∀ x res, v = .physical x → e.encoding = .bnr res →
        ∃ p, exec (.toPhysical code d.data) s = .next (s.answered (.success (.physical p e.units))) ∧
          |F64.value p - F64.value x| ≤ F64.value res ∧
          (IsPowerOfTwo (F64.value res) → |F64.value p - F64.value x| ≤ F64.value res / 2)) ∧
      (∀ c, v = .calendar c → d.cal = some c) ∧
      (∀ r, v = .raw r → d.data.toNat = r.toNat))

/-! ### Failures and the port -/

/-- An operation raises no failure kind but those R240 lists for it. -/
def Obligations.OperationsRaiseOnlyTheirKinds : Prop :=
  ∀ (i : Instr) (s : State) (f : Failure),
    exec i s = .next (s.answered (.failure f)) → f ∈ mayRaise i

/-- The status of a response on the port (R81, R82): 0 exactly when there is a result, and the number of
each failure kind; 7 is never produced. -/
def Obligations.StatusCodesOnThePort : Prop :=
  (∀ r : Response, (r.toPort.status = 0 ↔ r.toPort.result.isSome) ∧ r.toPort.status ≠ 7) ∧
  (Response.failure .unknownLabel).toPort.status = 1 ∧
  (Response.failure .parityError).toPort.status = 2 ∧
  (Response.failure .outOfRange).toPort.status = 3 ∧
  (Response.failure .unsupportedConversion).toPort.status = 4 ∧
  (Response.failure .invalidDigit).toPort.status = 5 ∧
  (Response.failure .invalidField).toPort.status = 6

/-- The values of the result records (R83 to R86): a BNR integer comes back from its 32-bit two's
complement; an entry's record has its code, its name and its units, each with its length, the number of
its kind, its width, its resolution if and only if it is BNR and its layout if and only if it is BCD; the
six SSM statuses have their numbers; and a calendar record has slot C's layout. That a layout's record is
its tag and its six groups in R170's order is log entry 12. -/
def Obligations.ResultRecordsOnThePort : Prop :=
  (∀ s code x n, romWf s.rom = true →
    exec (.bnrToField code x) s = .next (s.answered (.success (.signedInt n))) →
    (Result.signedInt n).record = .u32 (signedWord n) ∧ (signedWord n).toInt = n) ∧
  (∀ (rom : Rom) (c : Byte) (e : LabelEntry), romWf rom = true → romRead rom c = some e →
    ∃ r : EntryRecord, (Result.entry e).record = .entry r ∧
      r.code = c ∧ r.width.toNat = e.width ∧
      r.name.len.toNat = e.name.length ∧ r.name.bytes = e.name ∧
      r.units.len.toNat = e.units.length ∧ r.units.bytes = e.units ∧
      (r.kind = 0 ↔ e.kind = .bnr) ∧ (r.kind = 1 ↔ e.kind = .bcd) ∧ (r.kind = 2 ↔ e.kind = .discrete) ∧
      r.kind ≠ 3 ∧
      (∀ res, r.resolution = some res ↔ e.encoding = .bnr res) ∧
      (r.layout.isSome ↔ e.kind = .bcd) ∧
      (∀ L, e.encoding = .bcd L → ∃ l : LayoutRecord, r.layout = some l ∧
        (l.tag = true ↔ L.tag = .time) ∧
        l.groups = [(L.f1.t, L.f1.tw), (L.f1.u, 4), (L.f2.t, L.f2.tw), (L.f2.u, 4), (L.f3.t, L.f3.tw),
          (L.f3.u, 4)])) ∧
  ((Result.status .failureWarning).record = .u3 0 ∧ (Result.status .noComputedData).record = .u3 1 ∧
    (Result.status .functionalTest).record = .u3 2 ∧ (Result.status .normalOperation).record = .u3 3 ∧
    (Result.status .plus).record = .u3 4 ∧ (Result.status .minus).record = .u3 5) ∧
  (∀ c : Calendar, (Result.calendar c).record = .u32 c.toSlot ∧
    (c.toSlot.getLsbD 0 = true ↔ c.tag = .time) ∧ c.toSlot.extractLsb' 1 7 = 0 ∧
    c.toSlot.extractLsb' 8 8 = c.f1 ∧ c.toSlot.extractLsb' 16 8 = c.f2 ∧
    c.toSlot.extractLsb' 24 8 = c.f3)

/-- The records of UNPACK, TO_PHYSICAL and DECODE on the port (R83, R87, R221). UNPACK's has the reversed low
byte and the fields of the word. TO_PHYSICAL's has BNR_TO_PHYS's value and the entry's units with their
length. DECODE's has the entry's record, the fields of the word, the number of the table's status for the
label's kind, and the word of BCD_TO_CAL's calendar if and only if the label is BCD. -/
def Obligations.FieldsAndPhysicalAndDecodedRecordsOnThePort : Prop :=
  (∀ (s : State) (w : Word) (code : Byte) (r : Result), (∀ i < 8, code.getLsbD i = w.getLsbD (7 - i)) →
    exec (.unpack w) s = .next (s.answered (.success r)) →
    r.record = .fields code (w.extractLsb' 8 2) (w.extractLsb' 10 19) (w.extractLsb' 29 2)) ∧
  (∀ (s : State) (code : Byte) (data : DataField) (e : LabelEntry) (r : Result), romWf s.rom = true →
    romRead s.rom code = some e →
    exec (.toPhysical code data) s = .next (s.answered (.success r)) →
    ∃ (x : F64) (u : StringRecord), r.record = .physical x u ∧
      exec (.bnrToPhys code data) s = .next (s.answered (.success (.float x))) ∧
      u.len.toNat = e.units.length ∧ u.bytes = e.units) ∧
  (∀ (s : State) (w : Word) (code : Byte) (e : LabelEntry) (r : Result), romWf s.rom = true →
    (∀ i < 8, code.getLsbD i = w.getLsbD (7 - i)) → romRead s.rom code = some e →
    exec (.decode w) s = .next (s.answered (.success r)) →
    ∃ (d : DecodedRecord) (st : BitVec 3), r.record = .decoded d ∧
      (Result.entry e).record = .entry d.label ∧ d.sdi = w.extractLsb' 8 2 ∧
      d.data = w.extractLsb' 10 19 ∧ d.ssm = w.extractLsb' 29 2 ∧
      (Result.status (ssmStatus s.ssmTable e.kind (w.extractLsb' 29 2))).record = .u3 st ∧
      d.status = st ∧ (d.cal.isSome ↔ e.kind = .bcd) ∧
      (∀ c, exec (.bcdToCal code (w.extractLsb' 10 19)) s = .next (s.answered (.success (.calendar c))) →
        d.cal = some c.toSlot))

/-- The result of every operation has the record shape R83 lists for it; LABEL_OCTAL's string has length 3. -/
def Obligations.EveryOperationHasItsResultRecord : Prop :=
  ∀ (i : Instr) (s : State) (r : Result), exec i s = .next (s.answered (.success r)) →
    match i with
    | .lookup _ => ∃ e, r.record = .entry e
    | .labelRaw _ => ∃ c, r.record = .u8 c
    | .labelName _ => ∃ t, r.record = .string t
    | .labelUnits _ => ∃ t, r.record = .string t
    | .labelOctal _ => ∃ t, r.record = .string t ∧ t.len = 3 ∧ t.bytes.length = 3
    | .octalParse _ => ∃ c, r.record = .u8 c
    | .pack _ _ _ _ => ∃ w, r.record = .u32 w
    | .unpack _ => ∃ code sdi data ssm, r.record = .fields code sdi data ssm
    | .bnrToField _ _ => ∃ w, r.record = .u32 w
    | .bnrToPhys _ _ => ∃ x, r.record = .binary64 x
    | .bcdToField _ _ => ∃ d, r.record = .u19 d
    | .bcdToCal _ _ => ∃ w, r.record = .u32 w
    | .ssmInterpret _ _ => ∃ st, r.record = .u3 st
    | .encode _ _ _ _ => ∃ w, r.record = .u32 w
    | .decode _ => ∃ d, r.record = .decoded d
    | .toPhysical _ _ => ∃ x u, r.record = .physical x u

/-! ### The host's syntax -/

/-- The assembled example and its response (R95, which the spec derives from R72, R74 and R80). -/
def Obligations.AssembledExample : Prop :=
  parseLine "ENCODE 012, 0, PHYS(250.0), 3".toList =
    some (.request { H := 0x03000A0D, A := 0, B := 0x406F400000000000, C := 0, S := [] }) ∧
  exec (.encode 0o012 0 (.physical 0x406F400000000000) 3) State.reset =
    .next (State.reset.answered (.success (.word 0xE01F4050)))

/-- The pseudo-operations (R94; what the host's stop leaves is log entry 21): after a good octal string the
second request runs with its code, a bad string stops with UnknownLabel, and DECODE_PHYS passes the record's
code and data on. -/
def Obligations.PseudoOperationsExpand : Prop :=
  ∀ s : State, romWf s.rom = true →
    (∀ c : Byte, runLine s (.lookupOctal (octal3 c)) = exec (.lookup c) s) ∧
    (∀ (c sdi ssm : Byte) (v : Value),
      runLine s (.encodeOctal (octal3 c) (encodeValue 0 sdi ssm v)) = exec (.encode c sdi v ssm) s) ∧
    (∀ (str : Bytes) (f : Frame), str.length ≤ 255 → (∀ c : Byte, octal3 c ≠ str) →
      runLine s (.lookupOctal str) = .next (s.answered (.failure .unknownLabel)) ∧
      runLine s (.encodeOctal str f) = .next (s.answered (.failure .unknownLabel))) ∧
    (∀ (w : Word) (d : DecodedWord),
      exec (.decode w) s = .next (s.answered (.success (.decoded d))) →
      runLine s (.decodePhys w) = exec (.toPhysical d.label.code d.data) s) ∧
    (∀ (w : Word) (f : Failure), exec (.decode w) s = .next (s.answered (.failure f)) →
      runLine s (.decodePhys w) = .next (s.answered (.failure f)))

/-- The model's choice (log entry 2): a step with no request on the port answers nothing and leaves the
response port empty. -/
def Obligations.StepWithoutARequestAnswersNothing : Prop :=
  ∀ s : State, romWf s.rom = true → s.request = none →
    step s = .next { s with response := none }
end

