-- ==== Sys2Proof/Laws/State.lean ====
section
/-! SUPPORT. One lemma per field per update of the state, and what the shared operations over the state
can do. -/

namespace Sys2Proof.Machine

variable (s : State) (r : Response) (f : Frame)

@[simp] theorem State.answered_rom : (s.answered r).rom = s.rom := rfl
@[simp] theorem State.answered_tie : (s.answered r).tie = s.tie := rfl
@[simp] theorem State.answered_ssmTable : (s.answered r).ssmTable = s.ssmTable := rfl
@[simp] theorem State.answered_request : (s.answered r).request = none := rfl
@[simp] theorem State.answered_response : (s.answered r).response = some r := rfl

@[simp] theorem State.present_rom : (s.present f).rom = s.rom := rfl
@[simp] theorem State.present_tie : (s.present f).tie = s.tie := rfl
@[simp] theorem State.present_ssmTable : (s.present f).ssmTable = s.ssmTable := rfl
@[simp] theorem State.present_request : (s.present f).request = some f := rfl
@[simp] theorem State.present_response : (s.present f).response = s.response := rfl

@[simp] theorem State.idle_rom : s.idle.rom = s.rom := rfl
@[simp] theorem State.idle_tie : s.idle.tie = s.tie := rfl
@[simp] theorem State.idle_ssmTable : s.idle.ssmTable = s.ssmTable := rfl
@[simp] theorem State.idle_request : s.idle.request = s.request := rfl
@[simp] theorem State.idle_response : s.idle.response = none := rfl

@[simp] theorem State.present_answered : (s.present f).answered r = s.answered r := rfl
@[simp] theorem State.answered_answered (r' : Response) :
    (s.answered r).answered r' = s.answered r' := rfl

@[simp] theorem State.withFetchWord_eq (nbits w : Nat) :
    s.withFetchWord nbits w = s.present (frameOfTableWord nbits w) := rfl

/-- Two answers of one state are the same state only for the same response. -/
@[simp] theorem State.answered_inj {r r' : Response} : s.answered r = s.answered r' ↔ r = r' := by
  constructor
  · intro h
    have := congrArg State.response h
    simpa using this
  · rintro rfl
    rfl

@[simp] theorem respond_ok (x : Result) : respond s (.ok x) = .next (s.answered (.success x)) := rfl
@[simp] theorem respond_error (e : Failure) :
    respond s (.error e) = .next (s.answered (.failure e)) := rfl

/-- `respond` answers a success exactly when the operation returned it. -/
@[simp] theorem respond_eq_success {x : Except Failure Result} {y : Result} :
    respond s x = .next (s.answered (.success y)) ↔ x = .ok y := by
  cases x <;> simp [respond, Response.ofExcept]

/-- `respond` answers a failure exactly when the operation raised it. -/
@[simp] theorem respond_eq_failure {x : Except Failure Result} {e : Failure} :
    respond s x = .next (s.answered (.failure e)) ↔ x = .error e := by
  cases x <;> simp [respond, Response.ofExcept]

/-- `respond` always answers, and its next state is the answered one. -/
theorem respond_cases {x : Except Failure Result} {t : State} (h : respond s x = .next t) :
    t = s.answered (Response.ofExcept x) := by
  simpa [respond] using h.symm

/-- Mapping the result of an operation succeeds exactly when the operation does. -/
theorem map_eq_ok {α β : Type} {x : Except Failure α} {g : α → β} {b : β} :
    x.map g = .ok b ↔ ∃ a, x = .ok a ∧ g a = b := by
  cases x <;> simp [Except.map]

/-- Mapping the result of an operation raises exactly what the operation raises. -/
theorem map_eq_error {α β : Type} {x : Except Failure α} {g : α → β} {e : Failure} :
    x.map g = .error e ↔ x = .error e := by
  cases x <;> simp [Except.map]

/-- A chain of two operations succeeds exactly when both do. -/
theorem bind_eq_ok {α β : Type} {x : Except Failure α} {g : α → Except Failure β} {b : β} :
    x >>= g = .ok b ↔ ∃ a, x = .ok a ∧ g a = .ok b := by
  cases x <;> simp [Bind.bind, Except.bind]

/-- A chain of two operations raises what its first part raises, or what its second part does. -/
theorem bind_eq_error {α β : Type} {x : Except Failure α} {g : α → Except Failure β} {e : Failure} :
    x >>= g = .error e ↔ x = .error e ∨ ∃ a, x = .ok a ∧ g a = .error e := by
  cases x <;> simp [Bind.bind, Except.bind]

end Sys2Proof.Machine
end

