-- ==== Sys2Proof/Laws/Rom.lean ====
section
/-! SUPPORT. What reading the Label ROM can answer, and what a well-formed ROM says of an entry read. -/

namespace Sys2Proof.Machine

/-- `resolve` answers the entry exactly when the ROM holds it. -/
@[simp] theorem resolve_eq_ok {rom : Rom} {code : Byte} {e : LabelEntry} :
    resolve rom code = .ok e ↔ romRead rom code = some e := by
  unfold resolve
  cases romRead rom code <;> simp

/-- `resolve` raises UnknownLabel, exactly when the slot is `none`, and nothing else. -/
@[simp] theorem resolve_eq_error {rom : Rom} {code : Byte} {f : Failure} :
    resolve rom code = .error f ↔ romRead rom code = none ∧ f = .unknownLabel := by
  unfold resolve
  cases romRead rom code <;> simp [eq_comm]

theorem resolve_of_some {rom : Rom} {code : Byte} {e : LabelEntry} (h : romRead rom code = some e) :
    resolve rom code = .ok e := resolve_eq_ok.2 h

theorem resolve_of_none {rom : Rom} {code : Byte} (h : romRead rom code = none) :
    resolve rom code = .error .unknownLabel := resolve_eq_error.2 ⟨h, rfl⟩

/-- An entry read stands in the list under its address. -/
theorem romRead_mem {rom : Rom} {code : Byte} {e : LabelEntry} (h : romRead rom code = some e) :
    (code, e) ∈ rom := by
  obtain ⟨l, r, rfl, _⟩ := List.lookup_eq_some_iff.1 h
  simp

/-- In a ROM in canonical form every pair of the list is what its address reads as. -/
theorem romRead_of_mem {rom : Rom} (hc : Rom.canonical rom = true) {code : Byte} {e : LabelEntry}
    (h : (code, e) ∈ rom) : romRead rom code = some e := by
  have hp : rom.Pairwise fun p q => p.1.toNat < q.1.toNat := by simpa [Rom.canonical] using hc
  obtain ⟨l, r, rfl⟩ := List.append_of_mem h
  refine List.lookup_eq_some_iff.2 ⟨l, r, rfl, fun p hpl => ?_⟩
  have hlt := (List.pairwise_append.1 hp).2.2 p hpl (code, e) (by simp)
  have hne : code ≠ p.1 := by
    rintro rfl
    exact absurd hlt (Nat.lt_irrefl _)
  simpa using hne

/-- The parts of the check of a whole ROM. -/
theorem romWf_iff {rom : Rom} :
    romWf rom = true ↔ Rom.canonical rom = true ∧ ∀ p ∈ rom, entryWf p.1 p.2 = true := by
  simp [romWf]

/-- An entry read from a well-formed ROM is well-formed at its address. -/
theorem entryWf_of_read {rom : Rom} (hw : romWf rom = true) {code : Byte} {e : LabelEntry}
    (h : romRead rom code = some e) : entryWf code e = true :=
  (romWf_iff.1 hw).2 _ (romRead_mem h)

/-- The check of an entry, item by item (R102). -/
theorem entryWf_iff {c : Byte} {e : LabelEntry} :
    entryWf c e = true ↔ e.code = c ∧ 1 ≤ e.width ∧ e.width ≤ 19 ∧ asciiString e.name = true ∧
      asciiString e.units = true ∧ encodingWf e.width e.encoding = true := by
  simp [entryWf, and_assoc]

/-- The width of an entry read from a well-formed ROM is 1 to 19. -/
theorem width_of_read {rom : Rom} (hw : romWf rom = true) {code : Byte} {e : LabelEntry}
    (h : romRead rom code = some e) : 1 ≤ e.width ∧ e.width ≤ 19 :=
  have := entryWf_iff.1 (entryWf_of_read hw h)
  ⟨this.2.1, this.2.2.1⟩

/-- The code of an entry read from a well-formed ROM is its address. -/
theorem code_of_read {rom : Rom} (hw : romWf rom = true) {code : Byte} {e : LabelEntry}
    (h : romRead rom code = some e) : e.code = code :=
  (entryWf_iff.1 (entryWf_of_read hw h)).1

/-- A BNR entry read from a well-formed ROM has a width of at least 2 and a well-formed resolution. -/
theorem bnr_of_read {rom : Rom} (hw : romWf rom = true) {code : Byte} {e : LabelEntry} {res : F64}
    (h : romRead rom code = some e) (he : e.encoding = .bnr res) :
    2 ≤ e.width ∧ resolutionWf e.width res = true := by
  have := (entryWf_iff.1 (entryWf_of_read hw h)).2.2.2.2.2
  simpa [he, encodingWf] using this

/-- A BCD entry read from a well-formed ROM has a layout that is well-formed for its width. -/
theorem bcd_of_read {rom : Rom} (hw : romWf rom = true) {code : Byte} {e : LabelEntry} {L : Layout}
    (h : romRead rom code = some e) (he : e.encoding = .bcd L) : L.wf e.width = true := by
  have := (entryWf_iff.1 (entryWf_of_read hw h)).2.2.2.2.2
  simpa [he, encodingWf] using this

/-- The kind of an entry is BNR exactly when it has a resolution. -/
theorem kind_bnr_iff {e : LabelEntry} : e.kind = .bnr ↔ ∃ res, e.encoding = .bnr res := by
  cases h : e.encoding <;> simp [LabelEntry.kind, h]

/-- The kind of an entry is BCD exactly when it has a layout. -/
theorem kind_bcd_iff {e : LabelEntry} : e.kind = .bcd ↔ ∃ L, e.encoding = .bcd L := by
  cases h : e.encoding <;> simp [LabelEntry.kind, h]

/-- `bnrResolution` answers the resolution, or raises UnsupportedConversion. -/
theorem bnrResolution_of_bnr {e : LabelEntry} {res : F64} (h : e.encoding = .bnr res) :
    bnrResolution e = .ok res := by simp [bnrResolution, h]

theorem bnrResolution_of_not_bnr {e : LabelEntry} (h : e.kind ≠ .bnr) :
    bnrResolution e = .error .unsupportedConversion := by
  unfold bnrResolution
  cases he : e.encoding with
  | bnr res => exact absurd (kind_bnr_iff.2 ⟨res, he⟩) h
  | bcd L => rfl
  | discrete => rfl

/-- `bcdLayout` answers the layout, or raises UnsupportedConversion. -/
theorem bcdLayout_of_bcd {e : LabelEntry} {L : Layout} (h : e.encoding = .bcd L) :
    bcdLayout e = .ok L := by simp [bcdLayout, h]

theorem bcdLayout_of_not_bcd {e : LabelEntry} (h : e.kind ≠ .bcd) :
    bcdLayout e = .error .unsupportedConversion := by
  unfold bcdLayout
  cases he : e.encoding with
  | bcd L => exact absurd (kind_bcd_iff.2 ⟨L, he⟩) h
  | bnr res => rfl
  | discrete => rfl

end Sys2Proof.Machine
end

