-- ==== Sys2Proof/Laws/Bcd.lean ====
section
/-! SUPPORT. What writing and reading digit groups does, and what the BCD Converter's operations can
answer. -/

namespace Sys2Proof.Machine

/-! ### Digit groups -/

/-- The bits of a group's value are the data bits from its position on. -/
theorem testBit_grp (d : DataField) (p n i : Nat) :
    (grp d p n).testBit i = (decide (i < n) && d.getLsbD (p + i)) := by
  rw [grp, BitVec.testBit_toNat, BitVec.getLsbD_extractLsb']

/-- Two data fields with the same bits in a group have the same group value. -/
theorem grp_congr {d d' : DataField} {p n : Nat}
    (h : ∀ i, p ≤ i → i < p + n → d.getLsbD i = d'.getLsbD i) : grp d p n = grp d' p n := by
  refine Nat.eq_of_testBit_eq fun i => ?_
  rw [testBit_grp, testBit_grp]
  by_cases hi : i < n
  · rw [h (p + i) (by omega) (by omega)]
  · simp [hi]

/-- A group's value fits its width. -/
theorem grp_lt (d : DataField) (p n : Nat) : grp d p n < 2 ^ n := BitVec.isLt _

/-- Writing a group writes its bits and no other. -/
theorem getLsbD_setGrp (d : DataField) {p n : Nat} (v : Nat) (hp : p + n ≤ 19) (i : Nat) :
    (setGrp d p n v).getLsbD i =
      if p ≤ i ∧ i < p + n then v.testBit (i - p) else d.getLsbD i := by
  by_cases hi : i < 19
  · have hm : n ≤ 19 := by omega
    simp only [setGrp, BitVec.getLsbD_or, BitVec.getLsbD_and, BitVec.getLsbD_not,
      BitVec.getLsbD_shiftLeft, BitVec.getLsbD_ofNat, Nat.testBit_mod_two_pow,
      Nat.testBit_two_pow_sub_one, hi, decide_true, Bool.true_and]
    by_cases h1 : p ≤ i
    · by_cases h2 : i < p + n
      · simp [h1, h2, show ¬i < p by omega, show i - p < 19 by omega, show i - p < n by omega]
      · simp [h1, h2, show ¬i < p by omega, show i - p < 19 by omega, show ¬i - p < n by omega]
    · simp [h1, show i < p by omega]
  · rw [BitVec.getLsbD_of_ge _ _ (by omega), BitVec.getLsbD_of_ge d _ (by omega), if_neg (by omega)]

/-- A group reads as what was written into it, if that fits. -/
theorem grp_setGrp_same (d : DataField) {p n v : Nat} (hp : p + n ≤ 19) (hv : v < 2 ^ n) :
    grp (setGrp d p n v) p n = v := by
  refine Nat.eq_of_testBit_eq fun i => ?_
  rw [testBit_grp, getLsbD_setGrp d v hp]
  by_cases hi : i < n
  · simp [hi]
  · have hv' : v < 2 ^ i := Nat.lt_of_lt_of_le hv (Nat.pow_le_pow_right (by decide) (by omega))
    simp [hi, Nat.testBit_lt_two_pow hv']

/-- Writing a group leaves the groups that share no bit with it alone. -/
theorem grp_setGrp_other (d : DataField) {p n v q m : Nat} (hp : p + n ≤ 19)
    (hd : groupsApart (p, n) (q, m) = true) : grp (setGrp d p n v) q m = grp d q m := by
  refine grp_congr fun i h1 h2 => ?_
  rw [getLsbD_setGrp d v hp, if_neg]
  simp [groupsApart] at hd
  omega

/-! ### Layouts -/

/-- What R170 and R171 ask of a layout, as facts about its fields. -/
structure LayoutFacts (L : Layout) (width : Nat) : Prop where
  f1 : L.f1.wf = true
  f2 : L.f2.wf = true
  f3 : L.f3.wf = true
  inside : ∀ g ∈ L.groups, g.1 + g.2 ≤ width
  apart : L.groups.Pairwise fun g h => groupsApart g h = true

theorem layoutFacts {L : Layout} {width : Nat} (h : L.wf width = true) : LayoutFacts L width := by
  simp only [Layout.wf, Bool.and_eq_true, List.all_eq_true, decide_eq_true_eq] at h
  exact ⟨h.1.1.1.1, h.1.1.1.2, h.1.1.2, h.1.2, h.2⟩

theorem fieldDesc_wf_iff {f : FieldDesc} :
    f.wf = true ↔ 1 ≤ f.tw ∧ f.tw ≤ 4 ∧ f.lo ≤ f.hi ∧ f.hi ≤ 99 := by
  simp [FieldDesc.wf, and_assoc]

/-- A field with its legal range and fitting tens digit reads back as it was written, and what shares no
bit with its two groups is left alone. -/
theorem write_spec {f : FieldDesc} {v : Nat} {d : DataField} (ht : f.t + f.tw ≤ 19)
    (hu : f.u + 4 ≤ 19) (hd : groupsApart (f.t, f.tw) (f.u, 4) = true) (hf : v / 10 < 2 ^ f.tw) :
    f.tens (f.write v d) = v / 10 ∧ f.units (f.write v d) = v % 10 ∧
      ∀ q m, groupsApart (f.t, f.tw) (q, m) = true → groupsApart (f.u, 4) (q, m) = true →
        grp (f.write v d) q m = grp d q m := by
  have hsym : groupsApart (f.u, 4) (f.t, f.tw) = true := by
    simp [groupsApart] at hd ⊢
    omega
  refine ⟨?_, ?_, fun q m h1 h2 => ?_⟩
  · rw [FieldDesc.tens, FieldDesc.write, unitsWidth, grp_setGrp_other _ hu hsym,
      grp_setGrp_same _ ht hf]
  · rw [FieldDesc.units, FieldDesc.write, unitsWidth, grp_setGrp_same _ hu (by omega)]
  · rw [FieldDesc.write, unitsWidth, grp_setGrp_other _ hu h2, grp_setGrp_other _ ht h1]

/-- Writing a field leaves every bit outside its two groups alone. -/
theorem getLsbD_write {f : FieldDesc} {v : Nat} {d : DataField} (ht : f.t + f.tw ≤ 19)
    (hu : f.u + 4 ≤ 19) {i : Nat} (h1 : ¬(f.t ≤ i ∧ i < f.t + f.tw)) (h2 : ¬(f.u ≤ i ∧ i < f.u + 4)) :
    (f.write v d).getLsbD i = d.getLsbD i := by
  rw [FieldDesc.write, unitsWidth, getLsbD_setGrp _ _ hu, if_neg h2, getLsbD_setGrp _ _ ht, if_neg h1]

/-! ### The converter -/

/-- Which answers packing a calendar value gives (R175). -/
theorem packCalendar_cases (L : Layout) (c : Calendar) :
    ((∃ p ∈ fieldPairs L c, ¬(p.1.inRange p.2 = true ∧ p.1.fits p.2 = true)) ∧
        packCalendar L c = .error .outOfRange) ∨
      ((∀ p ∈ fieldPairs L c, p.1.inRange p.2 = true ∧ p.1.fits p.2 = true) ∧
        packCalendar L c = .ok (L.f3.write c.f3.toNat
          (L.f2.write c.f2.toNat (L.f1.write c.f1.toNat 0)))) := by
  by_cases h : ∀ p ∈ fieldPairs L c, p.1.inRange p.2 = true ∧ p.1.fits p.2 = true
  · refine .inr ⟨h, ?_⟩
    simp only [fieldPairs, List.forall_mem_cons, List.not_mem_nil, false_imp_iff, implies_true,
      and_true] at h
    simp [packCalendar, h]
  · refine .inl ⟨by simpa only [not_forall, exists_prop] using h, ?_⟩
    unfold packCalendar
    split
    · rfl
    split
    · rfl
    · exfalso
      apply h
      simp_all [fieldPairs]

/-- Which answers reading a calendar value gives (R176). -/
theorem unpackCalendar_cases (L : Layout) (d : DataField) :
    ((∃ f ∈ fieldDescs L, f.digitsValid d = false) ∧
        unpackCalendar L d = .error .invalidDigit) ∨
      ((∀ f ∈ fieldDescs L, f.digitsValid d = true) ∧
        (∃ f ∈ fieldDescs L, f.inRange (f.value d) = false) ∧
        unpackCalendar L d = .error .invalidField) ∨
      ((∀ f ∈ fieldDescs L, f.digitsValid d = true ∧ f.inRange (f.value d) = true) ∧
        unpackCalendar L d = .ok
          { tag := L.tag, f1 := BitVec.ofNat 8 (L.f1.value d), f2 := BitVec.ofNat 8 (L.f2.value d),
            f3 := BitVec.ofNat 8 (L.f3.value d) }) := by
  unfold unpackCalendar
  simp only [fieldDescs, List.mem_cons, List.not_mem_nil, or_false, exists_eq_or_imp,
    exists_eq_left, forall_eq_or_imp, forall_eq]
  cases L.f1.digitsValid d <;> cases L.f2.digitsValid d <;> cases L.f3.digitsValid d <;>
    cases L.f1.inRange (L.f1.value d) <;> cases L.f2.inRange (L.f2.value d) <;>
    cases L.f3.inRange (L.f3.value d) <;> simp

end Sys2Proof.Machine
end

