-- ==== Sys2Proof/Laws/Binary64.lean ====
section
/-! SUPPORT. What the exact rationals and the two roundings compute: a binary64's ratio is its value,
`rne` rounds as R12 says, and `to_f64` gives the nearest binary64. -/

namespace Sys2Proof.Machine

/-! ### Exact rationals -/

/-- The rational a ratio stands for. -/
def Ratio.toRat (q : Ratio) : ℚ := (q.num : ℚ) / q.den

theorem two_zpow_pos (k : ℤ) : (0 : ℚ) < 2 ^ k := by positivity

/-- The ratio of a binary64 has a denominator above 0. -/
theorem ratio_den_pos (x : F64) : 0 < (F64.ratio x).den := by
  unfold F64.ratio
  dsimp only
  split
  · exact Nat.one_pos
  · exact Nat.two_pow_pos _

/-- The ratio of a binary64 is its value. -/
theorem ratio_toRat (x : F64) : (F64.ratio x).toRat = F64.value x := by
  have hm : ((if F64.sign x then -(F64.significand x : ℤ) else F64.significand x : ℤ) : ℚ) =
      (if F64.sign x then -1 else 1) * (F64.significand x : ℚ) := by
    cases F64.sign x <;> simp
  unfold F64.ratio Ratio.toRat F64.value
  dsimp only
  split
  case isTrue h =>
    rw [Int.cast_mul, hm, show ((F64.scale x : ℤ) - 1075) = ((F64.scale x - 1075 : ℕ) : ℤ) by omega,
      zpow_natCast]
    push_cast
    rw [div_one]
  case isFalse h =>
    rw [hm, show ((F64.scale x : ℤ) - 1075) = -((1075 - F64.scale x : ℕ) : ℤ) by omega, zpow_neg,
      zpow_natCast, div_eq_mul_inv]
    push_cast
    rfl

/-- The significand of a positive binary64 is above 0 exactly when its value is. -/
theorem value_pos_iff (x : F64) :
    0 < F64.value x ↔ F64.sign x = false ∧ 0 < F64.significand x := by
  have h2 := two_zpow_pos ((F64.scale x : ℤ) - 1075)
  unfold F64.value
  cases F64.sign x
  · simp [h2]
  · simp only [Bool.true_eq_false, false_and, iff_false, not_lt, if_true]
    have : (0 : ℚ) ≤ (F64.significand x : ℚ) * 2 ^ ((F64.scale x : ℤ) - 1075) := by positivity
    linarith

/-- A positive divisor's ratio has a numerator above 0. -/
theorem ratio_num_pos {x : F64} (h : 0 < F64.value x) : 0 < (F64.ratio x).num := by
  have hd : (0 : ℚ) < (F64.ratio x).den := by exact_mod_cast ratio_den_pos x
  rw [← ratio_toRat, Ratio.toRat] at h
  have := (div_pos_iff_of_pos_right hd).1 h
  exact_mod_cast this

/-- Division of ratios is exact, and its denominator is above 0, for a divisor above 0. -/
theorem div_toRat {x r : F64} (h : 0 < F64.value r) :
    ((F64.ratio x).div (F64.ratio r)).toRat = F64.value x / F64.value r ∧
      0 < ((F64.ratio x).div (F64.ratio r)).den := by
  have hn := ratio_num_pos h
  have hdx := ratio_den_pos x
  have hdr := ratio_den_pos r
  have hcast : (((F64.ratio r).num.toNat : ℕ) : ℚ) = ((F64.ratio r).num : ℚ) := by
    have : (((F64.ratio r).num.toNat : ℕ) : ℤ) = (F64.ratio r).num := by omega
    exact_mod_cast this
  refine ⟨?_, Nat.mul_pos hdx (by omega)⟩
  rw [← ratio_toRat, ← ratio_toRat, Ratio.toRat, Ratio.toRat, Ratio.toRat, Ratio.div]
  dsimp only
  push_cast
  rw [hcast]
  have h1 : ((F64.ratio r).num : ℚ) ≠ 0 := by exact_mod_cast hn.ne'
  have h2 : ((F64.ratio x).den : ℚ) ≠ 0 := by exact_mod_cast hdx.ne'
  have h3 : ((F64.ratio r).den : ℚ) ≠ 0 := by exact_mod_cast hdr.ne'
  field_simp

/-- A multiple of a ratio is exact. -/
theorem times_toRat (n : ℤ) (r : F64) :
    (Ratio.times n (F64.ratio r)).toRat = (n : ℚ) * F64.value r := by
  rw [← ratio_toRat, Ratio.toRat, Ratio.toRat, Ratio.times]
  push_cast
  ring

/-! ### Rounding to an integer -/

/-- At most one integer is the rounding of a rational (R12). -/
theorem IsRounded.unique {tie : Tie} {q : ℚ} {m n : ℤ} (hm : IsRounded tie q m)
    (hn : IsRounded tie q n) : m = n := by
  obtain ⟨hm1, hm2⟩ := hm
  obtain ⟨hn1, hn2⟩ := hn
  rcases lt_trichotomy m n with h | h | h
  · exfalso
    have h' : (m : ℚ) + 1 ≤ n := by exact_mod_cast h
    obtain ⟨a1, a2⟩ := abs_le.1 hm1
    obtain ⟨b1, b2⟩ := abs_le.1 hn1
    have em : (m : ℚ) - q = -(1 / 2) := by linarith
    have en : (n : ℚ) - q = 1 / 2 := by linarith
    have hmn : n = m + 1 := by
      have : (n : ℚ) = m + 1 := by linarith
      exact_mod_cast this
    have tm := hm2 (by rw [em]; norm_num [abs_of_nonneg])
    have tn := hn2 (by rw [en]; norm_num [abs_of_nonneg])
    cases tie
    · simp only at tm tn; omega
    · simp only at tm tn
      have hq : q = m + 1 / 2 := by linarith
      subst hmn
      push_cast at tn
      rw [hq] at tm tn
      rcases le_or_gt 0 m with h0 | h0
      · have h0' : (0 : ℚ) ≤ m := by exact_mod_cast h0
        rw [abs_of_nonneg (by linarith), abs_of_nonneg h0'] at tm
        linarith
      · have h0' : (m : ℚ) ≤ -1 := by exact_mod_cast (by omega : m ≤ -1)
        rw [abs_of_nonpos (by linarith), abs_of_nonpos (by linarith)] at tn
        linarith
  · exact h
  · exfalso
    have h' : (n : ℚ) + 1 ≤ m := by exact_mod_cast h
    obtain ⟨a1, a2⟩ := abs_le.1 hm1
    obtain ⟨b1, b2⟩ := abs_le.1 hn1
    have em : (m : ℚ) - q = 1 / 2 := by linarith
    have en : (n : ℚ) - q = -(1 / 2) := by linarith
    have hmn : m = n + 1 := by
      have : (m : ℚ) = n + 1 := by linarith
      exact_mod_cast this
    have tm := hm2 (by rw [em]; norm_num [abs_of_nonneg])
    have tn := hn2 (by rw [en]; norm_num [abs_of_nonneg])
    cases tie
    · simp only at tm tn; omega
    · simp only at tm tn
      have hq : q = n + 1 / 2 := by linarith
      subst hmn
      push_cast at tm
      rw [hq] at tm tn
      rcases le_or_gt 0 n with h0 | h0
      · have h0' : (0 : ℚ) ≤ n := by exact_mod_cast h0
        rw [abs_of_nonneg (by linarith), abs_of_nonneg h0'] at tn
        linarith
      · have h0' : (n : ℚ) ≤ -1 := by exact_mod_cast (by omega : n ≤ -1)
        rw [abs_of_nonpos (by linarith), abs_of_nonpos (by linarith)] at tm
        linarith

/-- `rne` is the rounding of R12. -/
theorem rne_isRounded (tie : Tie) {q : Ratio} (hd : 0 < q.den) : IsRounded tie q.toRat (rne tie q) := by
  have hdz : (0 : ℤ) < q.den := by exact_mod_cast hd
  have hdq : (0 : ℚ) < q.den := by exact_mod_cast hd
  have hdiv := Int.mul_ediv_add_emod q.num q.den
  have h0 := Int.emod_nonneg q.num hdz.ne'
  have h1 := Int.emod_lt_of_pos q.num hdz
  obtain ⟨k, hk⟩ : ∃ k, q.num / q.den = k := ⟨_, rfl⟩
  obtain ⟨r, hr⟩ : ∃ r, q.num % q.den = r := ⟨_, rfl⟩
  rw [hk, hr] at hdiv
  rw [hr] at h0 h1
  have hq : q.toRat = k + r / q.den := by
    rw [Ratio.toRat, ← hdiv]
    push_cast
    field_simp
  have f0 : (0 : ℚ) ≤ r / q.den := by
    have : (0 : ℚ) ≤ r := by exact_mod_cast h0
    positivity
  have f1 : (r : ℚ) / q.den < 1 := by
    rw [div_lt_one hdq]
    exact_mod_cast h1
  have cast2 : ∀ {P : ℤ}, ((P : ℤ) : ℚ) = (P : ℚ) := fun {_} => rfl
  unfold rne
  rw [hk, hr]
  dsimp only
  split
  case isTrue hlt =>
    have : (r : ℚ) / q.den < 1 / 2 := by
      rw [div_lt_div_iff₀ hdq two_pos]
      have : ((2 * r : ℤ) : ℚ) < ((q.den : ℤ) : ℚ) := by exact_mod_cast hlt
      push_cast at this
      linarith
    refine ⟨?_, fun he => ?_⟩
    · rw [hq, abs_le]; constructor <;> linarith
    · rw [hq, abs_of_nonpos (by linarith)] at he; linarith
  case isFalse hge =>
  split
  case isTrue hgt =>
    have : 1 / 2 < (r : ℚ) / q.den := by
      rw [div_lt_div_iff₀ two_pos hdq]
      have : ((q.den : ℤ) : ℚ) < ((2 * r : ℤ) : ℚ) := by exact_mod_cast hgt
      push_cast at this
      linarith
    refine ⟨?_, fun he => ?_⟩
    · rw [hq, abs_le]; push_cast; constructor <;> linarith
    · rw [hq, abs_of_nonneg (by push_cast; linarith)] at he; push_cast at he; linarith
  case isFalse hle =>
    have heq : 2 * r = q.den := by omega
    have hhalf : (r : ℚ) / q.den = 1 / 2 := by
      rw [div_eq_div_iff hdq.ne' two_ne_zero]
      have : ((2 * r : ℤ) : ℚ) = ((q.den : ℤ) : ℚ) := by exact_mod_cast heq
      push_cast at this
      linarith
    have hq' : q.toRat = k + 1 / 2 := by rw [hq, hhalf]
    have ha : |(k : ℚ) - q.toRat| ≤ 1 / 2 := by rw [hq', abs_le]; constructor <;> linarith
    have hb : |((k + 1 : ℤ) : ℚ) - q.toRat| ≤ 1 / 2 := by
      rw [hq', abs_le]; push_cast; constructor <;> linarith
    cases tie with
    | tiesToEven =>
      dsimp only
      split
      · exact ⟨ha, fun _ => ‹_›⟩
      · exact ⟨hb, fun _ => by show (k + 1) % 2 = 0; omega⟩
    | tiesAway =>
      dsimp only
      split
      case isTrue hk0 =>
        have hk0' : (0 : ℚ) ≤ k := by exact_mod_cast hk0
        refine ⟨hb, fun _ => ?_⟩
        show |q.toRat| < |((k + 1 : ℤ) : ℚ)|
        rw [hq', abs_of_nonneg (by linarith), abs_of_nonneg (by push_cast; linarith)]
        push_cast; linarith
      case isFalse hk0 =>
        have hk0' : (k : ℚ) ≤ -1 := by exact_mod_cast (by omega : k ≤ -1)
        refine ⟨ha, fun _ => ?_⟩
        show |q.toRat| < |(k : ℚ)|
        rw [hq', abs_of_nonpos (by linarith), abs_of_nonpos (by linarith)]
        linarith

/-! ### The magnitudes of the binary64 values

In units of `2^-1074` the magnitude of a finite binary64 is an integer, a rising function of its low 63
bits. -/

/-- The magnitude of the value with low bits `b`, in units of `2^-1074`. -/
def magnitude (b : Nat) : Nat :=
  if b < 2 ^ 52 then b else (2 ^ 52 + b % 2 ^ 52) * 2 ^ (b / 2 ^ 52 - 1)

/-- The next magnitude is one unit in the last place above. -/
theorem magnitude_succ (b : Nat) : magnitude (b + 1) = magnitude b + 2 ^ (b / 2 ^ 52 - 1) := by
  unfold magnitude
  norm_num only
  rcases Nat.lt_or_ge (b + 1) 4503599627370496 with h | h
  · rw [if_pos h, if_pos (by omega), show b / 4503599627370496 = 0 by omega]
    simp
  rcases Nat.lt_or_ge b 4503599627370496 with h' | h'
  · rw [if_neg (by omega), if_pos h', show b = 4503599627370495 by omega]
    simp
  rw [if_neg (by omega), if_neg (by omega)]
  obtain ⟨e, he⟩ : ∃ e, b / 4503599627370496 = e + 1 := ⟨b / 4503599627370496 - 1, by omega⟩
  rcases Nat.lt_or_ge (b % 4503599627370496 + 1) 4503599627370496 with hf | hf
  · rw [show (b + 1) % 4503599627370496 = b % 4503599627370496 + 1 by omega,
      show (b + 1) / 4503599627370496 = e + 1 by omega, he]
    simp only [Nat.add_sub_cancel]
    ring
  · rw [show (b + 1) % 4503599627370496 = 0 by omega,
      show (b + 1) / 4503599627370496 = e + 2 by omega, he,
      show b % 4503599627370496 = 4503599627370495 by omega]
    simp only [Nat.add_sub_cancel, show e + 2 - 1 = e + 1 by omega, pow_succ]
    ring

theorem magnitude_strictMono : StrictMono magnitude :=
  strictMono_nat_of_lt_succ fun b => by
    rw [magnitude_succ]
    exact Nat.lt_add_of_pos_right (Nat.two_pow_pos _)

/-- The significand `m` at exponent `k` has the bits `k * 2^52 + m`. -/
theorem magnitude_bits {k m : Nat} (h : k = 0 ∨ 2 ^ 52 ≤ m) (hm : m ≤ 2 ^ 53) :
    magnitude (k * 2 ^ 52 + m) = m * 2 ^ k := by
  unfold magnitude
  norm_num only at h hm ⊢
  rcases Nat.lt_or_ge m 4503599627370496 with h1 | h1
  · rcases h with rfl | h
    · rw [if_pos (by omega)]; simp
    · omega
  rw [if_neg (by omega)]
  rcases Nat.lt_or_ge m 9007199254740992 with h2 | h2
  · rw [show (k * 4503599627370496 + m) / 4503599627370496 = k + 1 by omega,
      show (k * 4503599627370496 + m) % 4503599627370496 = m - 4503599627370496 by omega,
      show 4503599627370496 + (m - 4503599627370496) = m by omega]
    simp
  · rw [show (k * 4503599627370496 + m) / 4503599627370496 = k + 2 by omega,
      show (k * 4503599627370496 + m) % 4503599627370496 = 0 by omega,
      show m = 9007199254740992 by omega, show k + 2 - 1 = k + 1 by omega, pow_succ]
    ring

/-- Rounding the significand to the nearest even gives the nearest magnitude, ties to even bits. -/
theorem magnitude_nearest {M : ℚ} {k : Nat} {m : ℤ} (hr : IsRounded .tiesToEven (M / 2 ^ k) m)
    (hM : k = 0 ∧ 0 ≤ M ∨ 2 ^ 52 ≤ M / 2 ^ k) (hM' : M / 2 ^ k < 2 ^ 53) (b' : Nat) :
    |(magnitude (k * 2 ^ 52 + m.toNat) : ℚ) - M| ≤ |(magnitude b' : ℚ) - M| ∧
      (|(magnitude (k * 2 ^ 52 + m.toNat) : ℚ) - M| = |(magnitude b' : ℚ) - M| →
        b' = k * 2 ^ 52 + m.toNat ∨ (k * 2 ^ 52 + m.toNat) % 2 = 0) := by
  have h2k : (0 : ℚ) < 2 ^ k := by positivity
  obtain ⟨hr1, hr2⟩ := hr
  obtain ⟨ra, rb⟩ := abs_le.1 hr1
  have hq0 : (0 : ℚ) ≤ M / 2 ^ k := by
    rcases hM with ⟨_, h⟩ | h
    · positivity
    · exact le_trans (by positivity) h
  have hm0 : 0 ≤ m := by
    have : (-1 : ℚ) < m := by linarith
    have : (-1 : ℤ) < m := by exact_mod_cast this
    omega
  obtain ⟨a, rfl⟩ : ∃ a : ℕ, m = a := ⟨m.toNat, by omega⟩
  simp only [Int.toNat_natCast, Int.cast_natCast] at *
  have hup : a ≤ 2 ^ 53 := by
    have : (a : ℚ) < ((2 ^ 53 + 1 : ℕ) : ℚ) := by push_cast; linarith
    have : a < 2 ^ 53 + 1 := by exact_mod_cast this
    omega
  have hlo : k = 0 ∨ 2 ^ 52 ≤ a := by
    rcases hM with ⟨h, _⟩ | h
    · exact .inl h
    · right
      have : ((2 ^ 52 - 1 : ℕ) : ℚ) < a := by push_cast; linarith
      have : 2 ^ 52 - 1 < a := by exact_mod_cast this
      omega
  have hV : (magnitude (k * 2 ^ 52 + a) : ℚ) = a * 2 ^ k := by
    rw [magnitude_bits hlo hup]; push_cast; ring
  have hMq : M = M / 2 ^ k * 2 ^ k := by field_simp
  generalize hbdef : k * 2 ^ 52 + a = b at hV ⊢
  have hev : (a : ℚ) - M / 2 ^ k = 1 / 2 ∨ (a : ℚ) - M / 2 ^ k = -(1 / 2) → b % 2 = 0 := by
    intro h
    have := hr2 (by rcases h with h | h <;> rw [h] <;> norm_num [abs_of_nonneg])
    rw [← hbdef]
    omega
  have hdist : (magnitude b : ℚ) - M = (a - M / 2 ^ k) * 2 ^ k := by
    rw [hV, sub_mul, ← hMq]
  have habs : |(magnitude b : ℚ) - M| ≤ 1 / 2 * 2 ^ k := by
    rw [hdist, abs_mul, abs_of_pos h2k]
    exact mul_le_mul_of_nonneg_right hr1 h2k.le
  rcases lt_trichotomy b' b with hlt | rfl | hgt
  · -- below
    obtain ⟨c, rfl⟩ : ∃ c, b = c + 1 := ⟨b - 1, by omega⟩
    have hle : (magnitude b' : ℚ) ≤ magnitude c := by
      exact_mod_cast magnitude_strictMono.monotone (by omega : b' ≤ c)
    have hs := magnitude_succ c
    have hs' : (magnitude (c + 1) : ℚ) = magnitude c + 2 ^ (c / 2 ^ 52 - 1) := by
      exact_mod_cast hs
    have hstep : (0 : ℚ) < 2 ^ (c / 2 ^ 52 - 1) := by positivity
    by_cases hfull : k = 0 ∨ 2 ^ 52 < a
    · have hk : k ≤ c / 2 ^ 52 - 1 := by
        norm_num only at *
        rcases hfull with h | h
        · omega
        · omega
      have hstep' : (2 : ℚ) ^ k ≤ 2 ^ (c / 2 ^ 52 - 1) := pow_le_pow_right₀ (by norm_num) hk
      have hM1 : (magnitude b' : ℚ) - M ≤ (a - M / 2 ^ k) * 2 ^ k - 2 ^ k := by
        rw [← hdist, hs']; linarith
      have hneg : (magnitude b' : ℚ) - M ≤ -(1 / 2 * 2 ^ k) := by
        have : ((a : ℚ) - M / 2 ^ k) * 2 ^ k ≤ 1 / 2 * 2 ^ k := mul_le_mul_of_nonneg_right rb h2k.le
        linarith
      have habs' : |(magnitude b' : ℚ) - M| = -((magnitude b' : ℚ) - M) :=
        abs_of_nonpos (by have : (0 : ℚ) ≤ 1 / 2 * 2 ^ k := by positivity
                          linarith)
      refine ⟨by rw [habs']; linarith, fun he => .inr (hev (.inl ?_))⟩
      rw [habs'] at he
      have h5 : 1 / 2 * 2 ^ k ≤ ((a : ℚ) - M / 2 ^ k) * 2 ^ k := by linarith
      have := le_of_mul_le_mul_right h5 h2k
      linarith
    · -- the lowest significand of a binade: the value is not below it
      have ha : a = 2 ^ 52 := by
        rcases hlo with h | h
        · exact absurd (.inl h) hfull
        · have : ¬ 2 ^ 52 < a := fun h' => hfull (.inr h')
          omega
      have hMlo : 2 ^ 52 ≤ M / 2 ^ k := by
        rcases hM with ⟨h, _⟩ | h
        · exact absurd (.inl h) hfull
        · exact h
      have hpos : (magnitude (c + 1) : ℚ) - M ≤ 0 := by
        rw [hdist, ha]
        have : (((2 ^ 52 : ℕ) : ℚ) - M / 2 ^ k) ≤ 0 := by push_cast; linarith
        exact mul_nonpos_of_nonpos_of_nonneg this h2k.le
      rw [abs_of_nonpos hpos, abs_of_nonpos (by linarith)]
      exact ⟨by linarith, fun he => by exfalso; linarith⟩
  · exact ⟨le_rfl, fun _ => .inl rfl⟩
  · -- above
    have hle : (magnitude (b + 1) : ℚ) ≤ magnitude b' := by
      exact_mod_cast magnitude_strictMono.monotone (by omega : b + 1 ≤ b')
    have hs' : (magnitude (b + 1) : ℚ) = magnitude b + 2 ^ (b / 2 ^ 52 - 1) := by
      exact_mod_cast magnitude_succ b
    have hk : k ≤ b / 2 ^ 52 - 1 := by
      norm_num only at *
      rcases hlo with h | h
      · omega
      · omega
    have hstep' : (2 : ℚ) ^ k ≤ 2 ^ (b / 2 ^ 52 - 1) := pow_le_pow_right₀ (by norm_num) hk
    have hM1 : (a - M / 2 ^ k) * 2 ^ k + 2 ^ k ≤ (magnitude b' : ℚ) - M := by
      rw [← hdist]; linarith
    have h3 : -(1 / 2 * 2 ^ k) ≤ ((a : ℚ) - M / 2 ^ k) * 2 ^ k := by
      have := mul_le_mul_of_nonneg_right ra h2k.le
      linarith
    have habs' : |(magnitude b' : ℚ) - M| = (magnitude b' : ℚ) - M :=
      abs_of_nonneg (by have : (0 : ℚ) ≤ 1 / 2 * 2 ^ k := by positivity
                        linarith)
    refine ⟨by rw [habs']; linarith, fun he => .inr (hev (.inr ?_))⟩
    rw [habs'] at he
    have h5 : ((a : ℚ) - M / 2 ^ k) * 2 ^ k ≤ -(1 / 2) * 2 ^ k := by linarith
    have := le_of_mul_le_mul_right h5 h2k
    linarith

/-- The magnitude of the largest finite binary64. -/
theorem magnitude_max : magnitude (2047 * 2 ^ 52 - 1) = (2 ^ 53 - 1) * 2 ^ 2045 := by
  have h1 : (2047 * 2 ^ 52 - 1) / 2 ^ 52 = 2046 := by norm_num
  have h2 : (2047 * 2 ^ 52 - 1) % 2 ^ 52 = 2 ^ 52 - 1 := by norm_num
  unfold magnitude
  rw [if_neg (by norm_num), h1, h2]
  congr 1

/-! ### The parts of a binary64 -/

/-- The low 63 bits: exponent and fraction. -/
def lowBits (x : F64) : Nat := x.toNat % 2 ^ 63

theorem exponent_eq (x : F64) : F64.exponent x = lowBits x / 2 ^ 52 := by
  rw [F64.exponent, BitVec.extractLsb'_toNat, lowBits, Nat.shiftRight_eq_div_pow]
  norm_num only
  omega

theorem fraction_eq (x : F64) : F64.fraction x = lowBits x % 2 ^ 52 := by
  rw [F64.fraction, BitVec.extractLsb'_toNat, lowBits, Nat.shiftRight_eq_div_pow]
  norm_num only
  omega

theorem isFinite_iff (x : F64) : F64.isFinite x = true ↔ lowBits x < 2047 * 2 ^ 52 := by
  have : lowBits x < 2 ^ 63 := Nat.mod_lt _ (by norm_num)
  rw [F64.isFinite, exponent_eq]
  norm_num only at this ⊢
  simp only [ne_eq, decide_not, Bool.not_eq_true', decide_eq_false_iff_not]
  omega

/-- A binary64 is its sign and its low bits. -/
theorem F64.ext {x y : F64} (hs : F64.sign x = F64.sign y) (hl : lowBits x = lowBits y) : x = y := by
  refine BitVec.eq_of_getLsbD_eq fun i hi => ?_
  rcases Nat.lt_or_ge i 63 with h | h
  · have := congrArg (fun n => n.testBit i) hl
    simp only [lowBits, Nat.testBit_mod_two_pow, h, decide_true, Bool.true_and] at this
    exact this
  · rw [show i = 63 by omega]
    exact hs

/-- The value of a binary64 from its sign and its magnitude. -/
theorem value_eq (x : F64) :
    F64.value x = (if F64.sign x then -1 else 1) * (magnitude (lowBits x) : ℚ) * 2 ^ (-1074 : ℤ) := by
  have key : (F64.significand x : ℚ) * 2 ^ ((F64.scale x : ℤ) - 1075) =
      (magnitude (lowBits x) : ℚ) * 2 ^ (-1074 : ℤ) := by
    rw [F64.significand, F64.scale, exponent_eq, fraction_eq, magnitude]
    by_cases h : lowBits x < 2 ^ 52
    · have h0 : lowBits x / 2 ^ 52 = 0 := Nat.div_eq_of_lt h
      rw [h0, if_pos rfl, if_pos rfl, if_pos h, Nat.mod_eq_of_lt h]
      norm_num
    · have h0 : lowBits x / 2 ^ 52 ≠ 0 := by
        norm_num only at h ⊢
        omega
      obtain ⟨e, he⟩ : ∃ e, lowBits x / 2 ^ 52 = e + 1 := ⟨lowBits x / 2 ^ 52 - 1, by omega⟩
      rw [if_neg h0, if_neg h0, if_neg h, he, Nat.add_sub_cancel,
        show (((e + 1 : ℕ) : ℤ) - 1075) = (e : ℤ) + (-1074) by push_cast; ring,
        zpow_add₀ (by norm_num), zpow_natCast]
      push_cast
      ring
  rw [F64.value, mul_assoc, key, ← mul_assoc]

/-- Two binary64 values of the same value that is not 0 are the same bits. -/
theorem eq_of_value_eq {x y : F64} (h : F64.value x = F64.value y) (h0 : F64.value x ≠ 0) : x = y := by
  rw [value_eq] at h0
  rw [value_eq, value_eq] at h
  have hu : (2 : ℚ) ^ (-1074 : ℤ) ≠ 0 := by positivity
  have h' := mul_right_cancel₀ hu h
  have hx : (magnitude (lowBits x) : ℚ) ≠ 0 := fun h1 => h0 (by rw [h1]; ring)
  have hxp : (0 : ℚ) < magnitude (lowBits x) := lt_of_le_of_ne (by positivity) hx.symm
  have hyp : (0 : ℚ) ≤ magnitude (lowBits y) := by positivity
  have main : F64.sign x = F64.sign y ∧ (magnitude (lowBits x) : ℚ) = magnitude (lowBits y) := by
    revert h'
    cases F64.sign x <;> cases F64.sign y <;>
      simp only [Bool.false_eq_true, if_false, if_true, one_mul, neg_mul] <;> intro h'
    · exact ⟨trivial, h'⟩
    · exfalso; linarith
    · exfalso; linarith
    · exact ⟨trivial, by linarith⟩
  exact F64.ext main.1 (magnitude_strictMono.injective (by exact_mod_cast main.2))

/-! ### `to_f64` -/

/-- `2^k` for an integer `k`, from two powers of natural exponents. -/
theorem two_pow_toNat_div (k : ℤ) : (2 : ℚ) ^ k.toNat / 2 ^ (-k).toNat = 2 ^ k := by
  rcases le_or_gt 0 k with h | h
  · rw [show (-k).toNat = 0 by omega, pow_zero, div_one, ← zpow_natCast]
    congr 1
    omega
  · rw [show k.toNat = 0 by omega, pow_zero, ← zpow_natCast, one_div, ← zpow_neg]
    congr 1
    omega

/-- `floorLog2` is the exponent of the leading bit. -/
theorem floorLog2_spec {p d : Nat} (hp : 0 < p) (hd : 0 < d) :
    (2 : ℚ) ^ floorLog2 p d ≤ (p : ℚ) / d ∧ (p : ℚ) / d < 2 ^ (floorLog2 p d + 1) := by
  have hdq : (0 : ℚ) < d := by exact_mod_cast hd
  have lp : ((2 : ℚ) ^ (p.log2 : ℤ)) ≤ p := by
    rw [zpow_natCast]; exact_mod_cast Nat.log2_self_le hp.ne'
  have up : (p : ℚ) < 2 ^ ((p.log2 : ℤ) + 1) := by
    rw [← Nat.cast_one, ← Nat.cast_add, zpow_natCast]; exact_mod_cast Nat.lt_log2_self
  have ld : ((2 : ℚ) ^ (d.log2 : ℤ)) ≤ d := by
    rw [zpow_natCast]; exact_mod_cast Nat.log2_self_le hd.ne'
  have ud : (d : ℚ) < 2 ^ ((d.log2 : ℤ) + 1) := by
    rw [← Nat.cast_one, ← Nat.cast_add, zpow_natCast]; exact_mod_cast Nat.lt_log2_self
  obtain ⟨k, hk⟩ : ∃ k : ℤ, (p.log2 : ℤ) - d.log2 = k := ⟨_, rfl⟩
  have hlow : (2 : ℚ) ^ (k - 1) ≤ p / d := by
    rw [le_div_iff₀ hdq]
    calc (2 : ℚ) ^ (k - 1) * d ≤ 2 ^ (k - 1) * 2 ^ ((d.log2 : ℤ) + 1) :=
          mul_le_mul_of_nonneg_left ud.le (by positivity)
      _ = 2 ^ (p.log2 : ℤ) := by rw [← zpow_add₀ (by norm_num)]; congr 1; omega
      _ ≤ p := lp
  have hhigh : (p : ℚ) / d < 2 ^ (k + 1) := by
    rw [div_lt_iff₀ hdq]
    calc (p : ℚ) < 2 ^ ((p.log2 : ℤ) + 1) := up
      _ = 2 ^ (k + 1) * 2 ^ (d.log2 : ℤ) := by rw [← zpow_add₀ (by norm_num)]; congr 1; omega
      _ ≤ 2 ^ (k + 1) * d := mul_le_mul_of_nonneg_left ld (by positivity)
  have hiff : p * 2 ^ (-k).toNat < d * 2 ^ k.toNat ↔ (p : ℚ) / d < 2 ^ k := by
    rw [← two_pow_toNat_div k, div_lt_div_iff₀ hdq (by positivity), mul_comm ((2 : ℚ) ^ k.toNat)]
    norm_cast
  unfold floorLog2
  rw [hk]
  dsimp only
  split
  case isTrue h =>
    refine ⟨hlow, ?_⟩
    rw [show k - 1 + 1 = k by ring]
    exact hiff.1 h
  case isFalse h => exact ⟨not_lt.1 fun h' => h (hiff.2 h'), hhigh⟩

/-- `roundMagnitude` gives a finite magnitude nearest `p/d`, ties to even bits, for a `p/d` within the
finite range. -/
theorem roundMagnitude_nearest {p d : Nat} (hd : 0 < d) (hmax : (p : ℚ) / d ≤ maxFinite) :
    roundMagnitude p d < 2047 * 2 ^ 52 ∧ ∀ b' : Nat,
      |(magnitude (roundMagnitude p d) : ℚ) - p / d * 2 ^ 1074| ≤
          |(magnitude b' : ℚ) - p / d * 2 ^ 1074| ∧
        (|(magnitude (roundMagnitude p d) : ℚ) - p / d * 2 ^ 1074| =
            |(magnitude b' : ℚ) - p / d * 2 ^ 1074| →
          b' = roundMagnitude p d ∨ roundMagnitude p d % 2 = 0) := by
  rcases Nat.eq_zero_or_pos p with rfl | hp
  · refine ⟨by simp [roundMagnitude], fun b' => ?_⟩
    simp [roundMagnitude, magnitude]
  have hdq : (0 : ℚ) < d := by exact_mod_cast hd
  have hpq : (0 : ℚ) < p := by exact_mod_cast hp
  obtain ⟨hf1, hf2⟩ := floorLog2_spec hp hd
  obtain ⟨u, hu⟩ : ∃ u, max (floorLog2 p d - 52) (-1074) = u := ⟨_, rfl⟩
  obtain ⟨k, hk⟩ : ∃ k : ℕ, (u + 1074).toNat = k := ⟨_, rfl⟩
  have hku : (k : ℤ) = u + 1074 := by omega
  obtain ⟨M, hM⟩ : ∃ M : ℚ, (p : ℚ) / d * 2 ^ 1074 = M := ⟨_, rfl⟩
  have hMk : M / 2 ^ k = p / d / 2 ^ u := by
    rw [← hM, ← zpow_natCast (2 : ℚ) k, hku, zpow_add₀ (by norm_num)]
    norm_num only [zpow_ofNat]
    field_simp
  obtain ⟨m, hm⟩ : ∃ m : ℤ, rne .tiesToEven
    { num := (p * 2 ^ (-u).toNat : ℕ), den := d * 2 ^ u.toNat } = m := ⟨_, rfl⟩
  have hr : IsRounded .tiesToEven (M / 2 ^ k) m := by
    have h := rne_isRounded .tiesToEven
      (q := { num := (p * 2 ^ (-u).toNat : ℕ), den := d * 2 ^ u.toNat })
      (Nat.mul_pos hd (Nat.two_pow_pos _))
    rw [hm] at h
    have hq : (Ratio.toRat { num := (p * 2 ^ (-u).toNat : ℕ), den := d * 2 ^ u.toNat } : ℚ) =
        M / 2 ^ k := by
      rw [hMk, Ratio.toRat, ← two_pow_toNat_div u]
      push_cast
      field_simp
    rwa [hq] at h
  have hlo : k = 0 ∧ 0 ≤ M ∨ 2 ^ 52 ≤ M / 2 ^ k := by
    rcases le_or_gt (floorLog2 p d - 52) (-1074) with h | h
    · left
      refine ⟨by omega, ?_⟩
      rw [← hM]; positivity
    · right
      rw [hMk, le_div_iff₀ (by positivity)]
      calc (2 : ℚ) ^ 52 * 2 ^ u = 2 ^ ((52 : ℤ) + u) := by rw [zpow_add₀ (by norm_num)]; norm_num
        _ = 2 ^ floorLog2 p d := by congr 1; omega
        _ ≤ p / d := hf1
  have hhi : M / 2 ^ k < 2 ^ 53 := by
    rw [hMk, div_lt_iff₀ (by positivity)]
    calc (p : ℚ) / d < 2 ^ (floorLog2 p d + 1) := hf2
      _ ≤ 2 ^ ((53 : ℤ) + u) := zpow_le_zpow_right₀ (by norm_num) (by omega)
      _ = 2 ^ 53 * 2 ^ u := by rw [zpow_add₀ (by norm_num)]; norm_num
  have near := magnitude_nearest hr hlo hhi
  have hfin : k * 2 ^ 52 + m.toNat < 2047 * 2 ^ 52 := by
    by_contra hge
    have hmono := magnitude_strictMono (a := 2047 * 2 ^ 52 - 1) (b := k * 2 ^ 52 + m.toNat)
      (by norm_num only at hge ⊢; omega)
    have hmono' : (magnitude (2047 * 2 ^ 52 - 1) : ℚ) < magnitude (k * 2 ^ 52 + m.toNat) := by
      exact_mod_cast hmono
    have hMmax : M ≤ magnitude (2047 * 2 ^ 52 - 1) := by
      have hcast : ((magnitude (2047 * 2 ^ 52 - 1) : ℕ) : ℚ) = maxFinite * 2 ^ 1074 := by
        rw [magnitude_max, maxFinite, mul_assoc, ← pow_add]
        push_cast
        norm_num only [Nat.cast_sub]
      rw [hcast, ← hM]
      exact mul_le_mul_of_nonneg_right hmax (by positivity)
    have := (near (2047 * 2 ^ 52 - 1)).1
    rw [abs_of_nonneg (by linarith), abs_of_nonneg (by linarith)] at this
    linarith
  have hround : roundMagnitude p d = k * 2 ^ 52 + m.toNat := by
    unfold roundMagnitude
    rw [if_neg hp.ne']
    dsimp only
    rw [hu, hm, hk]
    exact min_eq_left hfin.le
  rw [hround, hM]
  exact ⟨hfin, near⟩

/-- The sign of a `to_f64`. -/
theorem sign_toF64 (q : Ratio) : F64.sign (toF64 q) = decide (q.num < 0) := by
  show (BitVec.ofBool (q.num < 0) ++ BitVec.ofNat 63 _ : BitVec 64).getLsbD 63 = _
  rw [BitVec.getLsbD_append]
  simp

/-- The low bits of a `to_f64`. -/
theorem lowBits_toF64 (q : Ratio) (h : roundMagnitude q.num.natAbs q.den < 2 ^ 63) :
    lowBits (toF64 q) = roundMagnitude q.num.natAbs q.den := by
  refine Nat.eq_of_testBit_eq fun i => ?_
  rw [lowBits, Nat.testBit_mod_two_pow, BitVec.testBit_toNat]
  show (decide (i < 63) && (BitVec.ofBool (q.num < 0) ++ BitVec.ofNat 63 _ : BitVec 64).getLsbD i) = _
  rw [BitVec.getLsbD_append, BitVec.getLsbD_ofNat]
  by_cases hi : i < 63
  · simp [hi]
  · have h' : roundMagnitude q.num.natAbs q.den < 2 ^ i :=
      Nat.lt_of_lt_of_le h (Nat.pow_le_pow_right (by norm_num) (by omega))
    simp [hi, Nat.testBit_lt_two_pow h']

/-- `to_f64` gives a nearest finite binary64, ties to even, for a rational within the finite range
(R12). -/
theorem toF64_nearest {q : Ratio} (hd : 0 < q.den) (hmax : |q.toRat| ≤ maxFinite) :
    IsNearestF64 q.toRat (toF64 q) := by
  have hdq : (0 : ℚ) < q.den := by exact_mod_cast hd
  have hq : q.toRat = (if q.num < 0 then -1 else 1) * ((q.num.natAbs : ℚ) / q.den) := by
    rw [Ratio.toRat]
    split
    · have : (q.num : ℚ) = -(q.num.natAbs : ℚ) := by
        have : q.num = -(q.num.natAbs : ℤ) := by omega
        exact_mod_cast this
      rw [this]; ring
    · have h1 : q.num = (q.num.natAbs : ℤ) := by omega
      have : (q.num : ℚ) = (q.num.natAbs : ℚ) :=
        (congrArg (Int.cast : ℤ → ℚ) h1).trans (Int.cast_natCast _)
      rw [this]; ring
  have hpos : (0 : ℚ) ≤ (q.num.natAbs : ℚ) / q.den := by positivity
  have habs : |q.toRat| = (q.num.natAbs : ℚ) / q.den := by
    rw [hq]
    split
    · rw [neg_one_mul, abs_neg, abs_of_nonneg hpos]
    · rw [one_mul, abs_of_nonneg hpos]
  obtain ⟨hfin, near⟩ := roundMagnitude_nearest hd (habs ▸ hmax)
  have hlow := lowBits_toF64 q (by norm_num only at hfin ⊢; omega)
  obtain ⟨A, hA⟩ : ∃ A : ℚ, (q.num.natAbs : ℚ) / q.den = A := ⟨_, rfl⟩
  rw [hA] at near hq hpos
  obtain ⟨T, hT⟩ : ∃ T : ℚ, A * 2 ^ 1074 = T := ⟨_, rfl⟩
  have hT0 : 0 ≤ T := by rw [← hT]; positivity
  have hMA : T * 2 ^ (-1074 : ℤ) = A := by
    rw [← hT, mul_assoc, ← zpow_natCast, ← zpow_add₀ (by norm_num)]
    simp
  have hu : (0 : ℚ) < 2 ^ (-1074 : ℤ) := by positivity
  have hval := fun x => value_eq x
  rw [hT] at near
  clear hT
  generalize (2 : ℚ) ^ (-1074 : ℤ) = U at hMA hu hval
  have dist : ∀ (sg : Bool) (b : ℕ),
      |(if sg then -1 else 1) * (magnitude b : ℚ) * U - (if sg then -1 else 1) * A| =
        |(magnitude b : ℚ) - T| * U := by
    intro sg b
    have : |(magnitude b : ℚ) * U - A| = |(magnitude b : ℚ) - T| * U := by
      rw [← hMA, ← sub_mul, abs_mul, abs_of_pos hu]
    rw [← this]
    cases sg
    · simp
    · simp only [if_true]
      rw [← abs_neg]
      congr 1
      ring
  refine ⟨(isFinite_iff _).2 (by rw [hlow]; exact hfin), fun y hy => ?_⟩
  have hsign := sign_toF64 q
  rw [hval, hval, hlow, hq, fraction_eq, hlow]
  have hs : (if q.num < 0 then (-1 : ℚ) else 1) = if F64.sign (toF64 q) then -1 else 1 := by
    rw [hsign]; split <;> simp_all
  rw [hs, dist]
  obtain ⟨n1, n2⟩ := near (lowBits y)
  have heven : roundMagnitude q.num.natAbs q.den % 2 = 0 →
      roundMagnitude q.num.natAbs q.den % 2 ^ 52 % 2 = 0 := by
    intro h; norm_num only; omega
  by_cases hsame : F64.sign y = F64.sign (toF64 q)
  · rw [hsame, dist]
    refine ⟨mul_le_mul_of_nonneg_right n1 hu.le, fun he => ?_⟩
    rcases n2 (mul_right_cancel₀ hu.ne' he) with h | h
    · left; rw [h]
    · exact .inr (heven h)
  · have hmag : (0 : ℚ) ≤ magnitude (lowBits y) := by positivity
    have hopp : |(if F64.sign y then -1 else 1) * (magnitude (lowBits y) : ℚ) * U -
        (if F64.sign (toF64 q) then -1 else 1) * A| = ((magnitude (lowBits y) : ℚ) + T) * U := by
      have hA0 : 0 ≤ (magnitude (lowBits y) : ℚ) * U + T * U := by positivity
      rw [add_mul, ← hMA]
      revert hsame
      cases F64.sign y <;> cases F64.sign (toF64 q) <;>
        simp only [Bool.false_eq_true, Bool.true_eq_false, if_false, if_true, not_true, not_false_iff,
          false_imp_iff, true_imp_iff]
      · rw [show 1 * (magnitude (lowBits y) : ℚ) * U - -1 * (T * U) =
          (magnitude (lowBits y) : ℚ) * U + T * U by ring, abs_of_nonneg hA0]
      · rw [show -1 * (magnitude (lowBits y) : ℚ) * U - 1 * (T * U) =
          -((magnitude (lowBits y) : ℚ) * U + T * U) by ring, abs_neg, abs_of_nonneg hA0]
    rw [hopp]
    have hle : |(magnitude (lowBits y) : ℚ) - T| ≤ magnitude (lowBits y) + T := by
      rw [abs_le]; constructor <;> linarith
    refine ⟨mul_le_mul_of_nonneg_right (n1.trans hle) hu.le, fun he => ?_⟩
    have he' := mul_right_cancel₀ hu.ne' he
    rcases n2 (le_antisymm n1 (he' ▸ hle)) with h | h
    · -- the same magnitude with the other sign: it is 0
      left
      have hz : (magnitude (roundMagnitude q.num.natAbs q.den) : ℚ) = 0 := by
        rw [h] at he'
        rcases abs_cases ((magnitude (roundMagnitude q.num.natAbs q.den) : ℚ) - T) with
          ⟨h1, _⟩ | ⟨h1, _⟩
        · rw [h1] at he'
          have hT0' : T = 0 := by linarith
          have h0 := (near 0).1
          have m0 : magnitude 0 = 0 := rfl
          rw [hT0', m0, Nat.cast_zero, sub_zero, sub_zero, abs_zero] at h0
          exact abs_eq_zero.1 (le_antisymm h0 (abs_nonneg _))
        · rw [h1] at he'; linarith
      rw [h, hz]; ring
    · exact .inr (heven h)

/-- `to_f64` of a value that a finite binary64 has is that value. -/
theorem value_toF64_of_exact {q : Ratio} (hd : 0 < q.den) (hmax : |q.toRat| ≤ maxFinite) {y : F64}
    (hy : F64.isFinite y = true) (h : F64.value y = q.toRat) : F64.value (toF64 q) = q.toRat := by
  have := ((toF64_nearest hd hmax).2 y hy).1
  rw [h, sub_self, abs_zero] at this
  have := abs_eq_zero.1 (le_antisymm this (abs_nonneg _))
  linarith

/-- `to_f64` of 0 is +0.0 (R153). -/
theorem toF64_zero {q : Ratio} (h : q.num = 0) : toF64 q = 0 := by
  simp [toF64, h, roundMagnitude]

end Sys2Proof.Machine
end

