-- ==== Sys2Proof/Laws/Bnr.lean ====
section
/-! SUPPORT. The BNR Converter: what a well-formed resolution is, and every answer `quantize` can give. -/

namespace Sys2Proof.Machine

/-- The check of a resolution, as facts about its value (R102 item 3). -/
theorem resolutionWf_spec {width : Nat} {res : F64} (h : resolutionWf width res = true) :
    F64.isFinite res = true ∧ 0 < F64.value res ∧ F64.value res * 2 ^ (width - 1) ≤ maxFinite := by
  simp only [resolutionWf, Bool.and_eq_true, decide_eq_true_eq, Bool.not_eq_true'] at h
  obtain ⟨⟨⟨hfin, hsign⟩, hpos⟩, hb⟩ := h
  refine ⟨hfin, (value_pos_iff res).2 ⟨hsign, hpos⟩, ?_⟩
  have hsig : F64.significand res + 1 ≤ 2 ^ 53 := by
    have : F64.fraction res < 2 ^ 52 := BitVec.isLt _
    unfold F64.significand
    norm_num only at this ⊢
    split <;> omega
  have hv : F64.value res = (F64.significand res : ℚ) * 2 ^ ((F64.scale res : ℤ) - 1075) := by
    rw [F64.value, hsign]
    simp
  simp only [resolutionBounded, Bool.or_eq_true, decide_eq_true_eq] at hb
  obtain ⟨k, hk⟩ : ∃ k, F64.scale res + (width - 1) = k := ⟨_, rfl⟩
  rw [hk] at hb
  have hprod : F64.value res * 2 ^ (width - 1) = F64.significand res * 2 ^ ((k : ℤ) - 1075) := by
    rw [hv, mul_assoc, ← zpow_natCast, ← zpow_add₀ (by norm_num)]
    congr 2
    omega
  have hU : (0 : ℚ) < 2 ^ 971 := by positivity
  have hsplit : (2 : ℚ) ^ ((k : ℤ) - 1075) = 2 ^ ((k : ℤ) - 2046) * 2 ^ 971 := by
    rw [show (k : ℤ) - 1075 = ((k : ℤ) - 2046) + ((971 : ℕ) : ℤ) by omega, zpow_add₀ (by norm_num),
      zpow_natCast]
  rw [hprod, maxFinite, hsplit, ← mul_assoc]
  generalize (2 : ℚ) ^ 971 = U at hU
  refine mul_le_mul_of_nonneg_right ?_ hU.le
  have h53 : (F64.significand res : ℚ) + 1 ≤ 2 ^ 53 := by exact_mod_cast hsig
  rcases Nat.le_total k 2046 with hk' | hk'
  · have h1 : (2 : ℚ) ^ ((k : ℤ) - 2046) ≤ 1 := zpow_le_one_of_nonpos₀ (by norm_num) (by omega)
    have h2 := mul_le_mul_of_nonneg_left h1 (Nat.cast_nonneg (α := ℚ) (F64.significand res))
    linarith
  · have h1 : F64.significand res * 2 ^ (k - 2046) + 1 ≤ 2 ^ 53 := by
      rcases hb with hb | hb
      · rw [show k - 2046 = 0 by omega, pow_zero, mul_one]
        exact hsig
      · norm_num only at hb ⊢
        omega
    have h2 : (F64.significand res : ℚ) * 2 ^ (k - 2046) + 1 ≤ 2 ^ 53 := by exact_mod_cast h1
    rw [show ((k : ℤ) - 2046) = ((k - 2046 : ℕ) : ℤ) by omega, zpow_natCast]
    linarith

/-- The resolution and the width of a BNR entry read from a well-formed ROM. -/
theorem resolution_of_read {rom : Rom} (hw : romWf rom = true) {code : Byte} {e : LabelEntry} {res : F64}
    (h : romRead rom code = some e) (he : e.encoding = .bnr res) :
    2 ≤ e.width ∧ e.width ≤ 19 ∧ F64.isFinite res = true ∧ 0 < F64.value res ∧
      F64.value res * 2 ^ (e.width - 1) ≤ maxFinite :=
  have hb := bnr_of_read hw h he
  ⟨hb.1, (width_of_read hw h).2, resolutionWf_spec hb.2⟩

/-- The signed range as a proposition (R150). -/
theorem inSignedRange_iff {width : Nat} {n : ℤ} :
    inSignedRange width n = true ↔ -(2 : ℤ) ^ (width - 1) ≤ n ∧ n ≤ 2 ^ (width - 1) - 1 := by
  simp [inSignedRange]

/-- Every answer of `quantize` (R152): a value that is not finite, or the exact quotient rounded once and
checked. -/
theorem quantize_cases (tie : Tie) (width : Nat) {res : F64} (x : F64) (hr : 0 < F64.value res) :
    (F64.isFinite x = false ∧ quantize tie width res x = .error .outOfRange) ∨
      (F64.isFinite x = true ∧ ∃ n : ℤ, IsRounded tie (F64.value x / F64.value res) n ∧
        ((inSignedRange width n = true ∧ quantize tie width res x = .ok n) ∨
          (inSignedRange width n = false ∧ quantize tie width res x = .error .outOfRange))) := by
  cases hx : F64.isFinite x with
  | false => exact .inl ⟨rfl, by simp [quantize, hx]⟩
  | true =>
    obtain ⟨h1, h2⟩ := div_toRat (x := x) hr
    refine .inr ⟨rfl, rne tie ((F64.ratio x).div (F64.ratio res)), h1 ▸ rne_isRounded tie h2, ?_⟩
    cases hn : inSignedRange width (rne tie ((F64.ratio x).div (F64.ratio res))) with
    | true => exact .inl ⟨rfl, by simp [quantize, hx, hn]⟩
    | false => exact .inr ⟨rfl, by simp [quantize, hx, hn]⟩

/-- The integer a data field holds in its `width` low bits lies in the signed range. -/
theorem abs_bnrInteger_le {width : Nat} (hw : 1 ≤ width) (d : DataField) :
    |bnrInteger width d| ≤ 2 ^ (width - 1) := by
  have h1 := BitVec.two_mul_toInt_lt (x := d.setWidth width)
  have h2 := BitVec.le_two_mul_toInt (x := d.setWidth width)
  have hp : (2 : ℤ) ^ width = 2 ^ (width - 1) * 2 := by
    rw [← pow_succ, show width - 1 + 1 = width by omega]
  rw [bnrInteger, abs_le]
  constructor <;> omega

/-- Every answer of `physicalValue` (R153): the finite binary64 nearest the exact product, and +0.0 for the
integer 0. -/
theorem physicalValue_spec {width : Nat} {res : F64} (hw : 1 ≤ width) (hr : 0 < F64.value res)
    (hmax : F64.value res * 2 ^ (width - 1) ≤ maxFinite) (d : DataField) :
    IsNearestF64 ((bnrInteger width d : ℚ) * F64.value res) (physicalValue width res d) ∧
      (bnrInteger width d = 0 → physicalValue width res d = 0) := by
  have hq := times_toRat (bnrInteger width d) res
  refine ⟨hq ▸ toF64_nearest (ratio_den_pos res) ?_, fun h => toF64_zero (by rw [Ratio.times, h, zero_mul])⟩
  have hn : |(bnrInteger width d : ℚ)| ≤ 2 ^ (width - 1) := by
    exact_mod_cast abs_bnrInteger_le hw d
  rw [hq, abs_mul, abs_of_pos hr, mul_comm]
  exact (mul_le_mul_of_nonneg_left hn hr.le).trans hmax

end Sys2Proof.Machine
end

