-- ==== Sys2Proof/Laws/Encoding.lean ====
section
/-! SUPPORT. The fields of a header and of slot C read back as they were written. -/

namespace Sys2Proof

open Machine

/-- The bits of a header, field by field (R72). -/
theorem getLsbD_header (op : BitVec 4) (vtag : BitVec 2) (code sdi ssm : Byte) (i : Nat) :
    (header op vtag code sdi ssm).getLsbD i =
      if i < 4 then op.getLsbD i else if i < 6 then vtag.getLsbD (i - 4) else if i < 8 then false
      else if i < 16 then code.getLsbD (i - 8) else if i < 24 then sdi.getLsbD (i - 16)
      else ssm.getLsbD (i - 24) := by
  simp only [header, BitVec.getLsbD_append, Nat.sub_sub, BitVec.getLsbD_zero]
  split_ifs <;> first | omega | rfl

section fields

variable {f : Frame} {op : BitVec 4} {vtag : BitVec 2} {code sdi ssm : Byte}

theorem op_of_header (h : f.H = header op vtag code sdi ssm) : f.op = op := by
  refine BitVec.eq_of_getLsbD_eq fun i hi => ?_
  rw [Frame.op, h, BitVec.getLsbD_extractLsb', getLsbD_header, Nat.zero_add, if_pos hi]
  simp [hi]

theorem vtag_of_header (h : f.H = header op vtag code sdi ssm) : f.vtag = vtag := by
  refine BitVec.eq_of_getLsbD_eq fun i hi => ?_
  rw [Frame.vtag, h, BitVec.getLsbD_extractLsb', getLsbD_header, if_neg (by omega), if_pos (by omega),
    Nat.add_sub_cancel_left]
  simp [hi]

theorem reserved_of_header (h : f.H = header op vtag code sdi ssm) : f.reserved = 0 := by
  refine BitVec.eq_of_getLsbD_eq fun i hi => ?_
  rw [Frame.reserved, h, BitVec.getLsbD_extractLsb', getLsbD_header, if_neg (by omega), if_neg (by omega),
    if_pos (by omega)]
  simp

theorem code_of_header (h : f.H = header op vtag code sdi ssm) : f.code = code := by
  refine BitVec.eq_of_getLsbD_eq fun i hi => ?_
  rw [Frame.code, h, BitVec.getLsbD_extractLsb', getLsbD_header, if_neg (by omega), if_neg (by omega),
    if_neg (by omega), if_pos (by omega), Nat.add_sub_cancel_left]
  simp [hi]

theorem sdi_of_header (h : f.H = header op vtag code sdi ssm) : f.sdi = sdi := by
  refine BitVec.eq_of_getLsbD_eq fun i hi => ?_
  rw [Frame.sdi, h, BitVec.getLsbD_extractLsb', getLsbD_header, if_neg (by omega), if_neg (by omega),
    if_neg (by omega), if_neg (by omega), if_pos (by omega), Nat.add_sub_cancel_left]
  simp [hi]

theorem ssm_of_header (h : f.H = header op vtag code sdi ssm) : f.ssm = ssm := by
  refine BitVec.eq_of_getLsbD_eq fun i hi => ?_
  rw [Frame.ssm, h, BitVec.getLsbD_extractLsb', getLsbD_header, if_neg (by omega), if_neg (by omega),
    if_neg (by omega), if_neg (by omega), if_neg (by omega), Nat.add_sub_cancel_left]
  simp [hi]

end fields

/-- A header is the header of its own fields, if its reserved bits are 0 (R72). -/
theorem header_of_fields {f : Frame} (h : f.reserved = 0) :
    f.H = header f.op f.vtag f.code f.sdi f.ssm := by
  refine BitVec.eq_of_getLsbD_eq fun i hi => ?_
  have hr : ∀ j < 2, f.H.getLsbD (6 + j) = false := fun j hj => by
    have := congrArg (fun v => v.getLsbD j) h
    simpa [Frame.reserved, BitVec.getLsbD_extractLsb', hj] using this
  simp only [getLsbD_header, Frame.op, Frame.vtag, Frame.code, Frame.sdi, Frame.ssm,
    BitVec.getLsbD_extractLsb']
  split_ifs
  · simp_all
  · rw [show 4 + (i - 4) = i by omega]; simp; omega
  · have := hr (i - 6) (by omega)
    rwa [show 6 + (i - 6) = i by omega] at this
  · rw [show 8 + (i - 8) = i by omega]; simp; omega
  · rw [show 16 + (i - 16) = i by omega]; simp; omega
  · rw [show 24 + (i - 24) = i by omega]; simp; omega

/-! ### Decoding by the operation code -/

/-- The low bits of the header are those of the operation code. -/
theorem getLsbD_of_op {f : Frame} {op : BitVec 4} (h : f.op = op) {i : Nat} (hi : i < 4) :
    f.H.getLsbD i = op.getLsbD i := by
  rw [← h, Frame.op, BitVec.getLsbD_extractLsb', Nat.zero_add]
  simp [hi]

/-- Header bits 4 and 5 are those of the value tag. -/
theorem getLsbD_of_vtag {f : Frame} {vtag : BitVec 2} (h : f.vtag = vtag) {i : Nat} (hi : i < 2) :
    f.H.getLsbD (4 + i) = vtag.getLsbD i := by
  rw [← h, Frame.vtag, BitVec.getLsbD_extractLsb']
  simp [hi]

/-- With the reserved bits 0, decoding is by the operation code alone. -/
theorem decode_of_reserved {f : Frame} (h : f.reserved = 0) : decode f = decodeOp f := if_pos h

/-- A data operand the encoder wrote reads back. -/
theorem dataOperand_of_setWidth {f : Frame} {d : DataField} (h : f.A = d.setWidth 32) :
    f.dataOperand = .ok d := by
  have h1 : f.A.extractLsb' 19 13 = 0 := by
    rw [h]
    exact BitVec.eq_of_getLsbD_eq fun i _ => by simp
  have h2 : f.A.extractLsb' 0 19 = d := by
    rw [h]
    exact BitVec.eq_of_getLsbD_eq fun i hi => by simp [hi]; omega
  rw [Frame.dataOperand, if_pos h1, h2]

/-- The bits of slot C, field by field (R75). -/
theorem getLsbD_toSlot (c : Calendar) (i : Nat) :
    c.toSlot.getLsbD i =
      if i < 1 then c.tag.bit else if i < 8 then false else if i < 16 then c.f1.getLsbD (i - 8)
      else if i < 24 then c.f2.getLsbD (i - 16) else c.f3.getLsbD (i - 24) := by
  simp only [Calendar.toSlot, BitVec.getLsbD_append, Nat.sub_sub, BitVec.getLsbD_zero]
  split_ifs <;> first | omega | rfl | skip
  obtain rfl : i = 0 := by omega
  simp

/-- A calendar operand the encoder wrote reads back. -/
theorem calendarOperand_of_toSlot {f : Frame} {c : Calendar} (h : f.C = c.toSlot) :
    f.calendarOperand = .ok c := by
  have h1 : f.C.extractLsb' 1 7 = 0 := BitVec.eq_of_getLsbD_eq fun i hi => by
    rw [BitVec.getLsbD_extractLsb', h, getLsbD_toSlot, if_neg (by omega), if_pos (by omega)]
    simp
  have h2 : f.C.extractLsb' 8 8 = c.f1 := BitVec.eq_of_getLsbD_eq fun i hi => by
    rw [BitVec.getLsbD_extractLsb', h, getLsbD_toSlot, if_neg (by omega), if_neg (by omega),
      if_pos (by omega), Nat.add_sub_cancel_left]
    simp [hi]
  have h3 : f.C.extractLsb' 16 8 = c.f2 := BitVec.eq_of_getLsbD_eq fun i hi => by
    rw [BitVec.getLsbD_extractLsb', h, getLsbD_toSlot, if_neg (by omega), if_neg (by omega),
      if_neg (by omega), if_pos (by omega), Nat.add_sub_cancel_left]
    simp [hi]
  have h4 : f.C.extractLsb' 24 8 = c.f3 := BitVec.eq_of_getLsbD_eq fun i hi => by
    rw [BitVec.getLsbD_extractLsb', h, getLsbD_toSlot, if_neg (by omega), if_neg (by omega),
      if_neg (by omega), if_neg (by omega), Nat.add_sub_cancel_left]
    simp [hi]
  have h5 : CalTag.ofBit (f.C.getLsbD 0) = c.tag := by
    rw [h, getLsbD_toSlot, if_pos (by omega)]
    cases c.tag <;> rfl
  rw [Frame.calendarOperand, if_pos h1, h2, h3, h4, h5]

end Sys2Proof
end

