-- ==== Sys2Proof/Laws/PerInstr.lean ====
section
/-! SUPPORT. One fact for each constructor of Instr, proved constructor by constructor: the frame the
encoder writes has the instruction's operation code (R77) and reserved header bits 0 (R72). -/

namespace Sys2Proof.Laws.OpcodeAgrees

open Sys2Proof

/-- The frame of `i` has the operation code of `i` in `H[3:0]` and 0 in `H[7:6]`. -/
def Statement (i : Instr) : Prop := (encode i).op = i.opcode ∧ (encode i).reserved = 0

/-- A frame whose header is written with an operation code has that code and reserved bits 0. -/
theorem of_header {f : Frame} {op : BitVec 4} (vtag : BitVec 2) (code sdi ssm : Byte)
    (h : f.H = header op vtag code sdi ssm) : f.op = op ∧ f.reserved = 0 :=
  ⟨op_of_header h, reserved_of_header h⟩

theorem lookup (code : Byte) : Statement (.lookup code) := of_header 0 code 0 0 rfl

theorem labelRaw (code : Byte) : Statement (.labelRaw code) := of_header 0 code 0 0 rfl

theorem labelName (code : Byte) : Statement (.labelName code) := of_header 0 code 0 0 rfl

theorem labelUnits (code : Byte) : Statement (.labelUnits code) := of_header 0 code 0 0 rfl

theorem labelOctal (code : Byte) : Statement (.labelOctal code) := of_header 0 code 0 0 rfl

theorem octalParse (str : Bytes) : Statement (.octalParse str) := of_header 0 0 0 0 rfl

theorem pack (code : Byte) (sdi : Byte) (data : Word) (ssm : Byte) :
    Statement (.pack code sdi data ssm) := of_header 0 code sdi ssm rfl

theorem unpack (w : Word) : Statement (.unpack w) := of_header 0 0 0 0 rfl

theorem bnrToField (code : Byte) (x : F64) : Statement (.bnrToField code x) := of_header 0 code 0 0 rfl

theorem bnrToPhys (code : Byte) (data : DataField) : Statement (.bnrToPhys code data) :=
  of_header 0 code 0 0 rfl

theorem bcdToField (code : Byte) (c : Calendar) : Statement (.bcdToField code c) :=
  of_header 0 code 0 0 rfl

theorem bcdToCal (code : Byte) (data : DataField) : Statement (.bcdToCal code data) :=
  of_header 0 code 0 0 rfl

theorem ssmInterpret (code : Byte) (ssm : BitVec 2) : Statement (.ssmInterpret code ssm) :=
  of_header 0 code 0 (ssm.setWidth 8) rfl

theorem encode (code : Byte) (sdi : Byte) (v : Value) (ssm : Byte) :
    Statement (.encode code sdi v ssm) := by
  cases v with
  | physical x => exact of_header 0 code sdi ssm rfl
  | calendar c => exact of_header 1 code sdi ssm rfl
  | raw r => exact of_header 2 code sdi ssm rfl

theorem decode (w : Word) : Statement (.decode w) := of_header 0 0 0 0 rfl

theorem toPhysical (code : Byte) (data : DataField) : Statement (.toPhysical code data) :=
  of_header 0 code 0 0 rfl

end Sys2Proof.Laws.OpcodeAgrees
end

