-- ==== Sys2Proof/Laws/Port.lean ====
section
/-! SUPPORT. The values of the port view come back from the widths of the port. -/

namespace Sys2Proof.Machine

/-- The length byte of an ASCII string the ROM may hold is its length. -/
theorem stringRecord_len {t : Bytes} (h : asciiString t = true) :
    (stringRecord t).len.toNat = t.length := by
  simp [asciiString, stringFits] at h
  simp [stringRecord]
  omega

/-- An integer of the widest signed range comes back from its 32-bit two's complement. -/
theorem signedWord_toInt {n : Int} (h1 : -262144 ≤ n) (h2 : n < 262144) : (signedWord n).toInt = n := by
  rw [signedWord, BitVec.toInt_ofInt, Int.bmod_eq_of_le] <;> omega

end Sys2Proof.Machine
end

