-- ==== Sys2Proof/Laws/Word.lean ====
section
/-! SUPPORT. What the Word Codec's operations can answer: parity, bit reversal, the layout of a word. -/

namespace Sys2Proof.Machine

/-! ### Parity -/

/-- Counting looks at the bits counted only. -/
theorem onesBelow_congr {n m : Nat} {v : BitVec n} {w : BitVec m} {k : Nat}
    (h : ∀ i < k, v.getLsbD i = w.getLsbD i) : onesBelow v k = onesBelow w k := by
  induction k with
  | zero => rfl
  | succ k ih =>
    rw [onesBelow, onesBelow, ih fun i hi => h i (by omega), h k (by omega)]

/-- Parity is additive under exclusive or. -/
theorem onesBelow_xor {n : Nat} (v w : BitVec n) (k : Nat) :
    onesBelow (v ^^^ w) k % 2 = (onesBelow v k + onesBelow w k) % 2 := by
  induction k with
  | zero => rfl
  | succ k ih =>
    simp only [onesBelow, BitVec.getLsbD_xor]
    cases v.getLsbD k <;> cases w.getLsbD k <;> simp <;> omega

/-- Parity is additive under exclusive or. -/
theorem popcount_xor {n : Nat} (v w : BitVec n) :
    popcount (v ^^^ w) % 2 = (popcount v + popcount w) % 2 := onesBelow_xor v w n

/-- A word assembled with its parity bit has an odd number of 1 bits (R65, R66). -/
theorem popcount_parityBit_append (v : BitVec 31) :
    popcount (parityBit v ++ v : BitVec 32) % 2 = 1 := by
  have hlow : onesBelow (parityBit v ++ v : BitVec 32) 31 = popcount v :=
    onesBelow_congr fun i hi => by rw [BitVec.getLsbD_append]; simp [hi]
  have htop : (parityBit v ++ v : BitVec 32).getLsbD 31 = (parityBit v).getLsbD 0 := by
    rw [BitVec.getLsbD_append]; simp
  have hbit : (parityBit v).getLsbD 0 = decide (popcount v % 2 = 0) := by
    rcases Nat.mod_two_eq_zero_or_one (popcount v) with h | h <;> simp [parityBit, xorReduce, h]
  rw [popcount, onesBelow, hlow, htop, hbit]
  rcases Nat.mod_two_eq_zero_or_one (popcount v) with h | h <;> simp [h]
  omega

/-! ### Bit reversal -/

/-- `reverse8(b)[i] = b[7-i]` (R130). -/
theorem getLsbD_reverse8 (b : Byte) {i : Nat} (hi : i < 8) :
    (reverse8 b).getLsbD i = b.getLsbD (7 - i) := by
  unfold reverse8
  interval_cases i <;> simp only [BitVec.getLsbD_append, BitVec.getLsbD_ofBool] <;> simp

/-- A byte whose bits are another's in reverse order is that byte reversed. -/
theorem eq_reverse8 {b c : Byte} (h : ∀ i < 8, b.getLsbD i = c.getLsbD (7 - i)) : b = reverse8 c :=
  BitVec.eq_of_getLsbD_eq fun i hi => by rw [h i hi, getLsbD_reverse8 c hi]

/-! ### The layout of a word -/

/-- A word assembled from its fields holds them (R60 to R68). -/
theorem assembleWord_holds (code : Byte) (sdi : BitVec 2) (data : DataField) (ssm : BitVec 2) :
    WordHolds (assembleWord code sdi data ssm) code sdi.toNat data.toNat ssm.toNat := by
  refine ⟨fun i hi => ?_, congrArg BitVec.toNat (?_ : _ = sdi), congrArg BitVec.toNat (?_ : _ = data),
    congrArg BitVec.toNat (?_ : _ = ssm), popcount_parityBit_append _⟩
  · rw [assembleWord, BitVec.getLsbD_append, BitVec.getLsbD_append, if_pos (by omega), if_pos hi,
      getLsbD_reverse8 code hi]
  all_goals
    refine BitVec.eq_of_getLsbD_eq fun i hi => ?_
    rw [BitVec.getLsbD_extractLsb', assembleWord]
    simp only [BitVec.getLsbD_append, hi, decide_true, Bool.true_and]
    repeat' first
      | rw [if_pos (by omega)]
      | rw [if_neg (by omega)]
    congr 1
    omega

/-- The fields a word holds decide the word. -/
theorem WordHolds.unique {w w' : Word} {code : Byte} {sdi data ssm : Nat}
    (h : WordHolds w code sdi data ssm) (h' : WordHolds w' code sdi data ssm) : w = w' := by
  obtain ⟨hl, hs, hd, hm, hp⟩ := h
  obtain ⟨hl', hs', hd', hm', hp'⟩ := h'
  have es : w.extractLsb' 8 2 = w'.extractLsb' 8 2 := BitVec.eq_of_toNat_eq (hs.trans hs'.symm)
  have ed : w.extractLsb' 10 19 = w'.extractLsb' 10 19 := BitVec.eq_of_toNat_eq (hd.trans hd'.symm)
  have em : w.extractLsb' 29 2 = w'.extractLsb' 29 2 := BitVec.eq_of_toNat_eq (hm.trans hm'.symm)
  have hlow : ∀ i < 31, w.getLsbD i = w'.getLsbD i := by
    intro i hi
    rcases Nat.lt_or_ge i 8 with h8 | h8
    · rw [hl i h8, hl' i h8]
    rcases Nat.lt_or_ge i 10 with h10 | h10
    · have := congrArg (fun v => v.getLsbD (i - 8)) es
      simpa [BitVec.getLsbD_extractLsb', show i - 8 < 2 by omega, show 8 + (i - 8) = i by omega] using this
    rcases Nat.lt_or_ge i 29 with h29 | h29
    · have := congrArg (fun v => v.getLsbD (i - 10)) ed
      simpa [BitVec.getLsbD_extractLsb', show i - 10 < 19 by omega, show 10 + (i - 10) = i by omega]
        using this
    · have := congrArg (fun v => v.getLsbD (i - 29)) em
      simpa [BitVec.getLsbD_extractLsb', show i - 29 < 2 by omega, show 29 + (i - 29) = i by omega]
        using this
  have htop : w.getLsbD 31 = w'.getLsbD 31 := by
    have e : onesBelow w 31 = onesBelow w' 31 := onesBelow_congr hlow
    change (onesBelow w 31 + (w.getLsbD 31).toNat) % 2 = 1 at hp
    change (onesBelow w' 31 + (w'.getLsbD 31).toNat) % 2 = 1 at hp'
    rw [e] at hp
    revert hp hp'
    cases w.getLsbD 31 <;> cases w'.getLsbD 31 <;> simp <;> omega
  refine BitVec.eq_of_getLsbD_eq fun i hi => ?_
  rcases Nat.lt_or_ge i 31 with h | h
  · exact hlow i h
  · rw [show i = 31 by omega, htop]

/-- Which answers PACK gives (R132). -/
theorem packWord_eq_ok {rom : Rom} {code sdi : Byte} {data : Word} {ssm : Byte} {w : Word} :
    packWord rom code sdi data ssm = .ok w ↔ ∃ e, romRead rom code = some e ∧ sdi.toNat < 4 ∧
      data.toNat < 2 ^ e.width ∧ ssm.toNat < 4 ∧
      w = assembleWord code (sdi.setWidth 2) (data.setWidth 19) (ssm.setWidth 2) := by
  simp only [packWord, bind_eq_ok, resolve_eq_ok]
  refine exists_congr fun e => and_congr_right fun _ => ?_
  split
  · simp; omega
  split
  · simp; omega
  split
  · simp; omega
  · constructor
    · intro h
      injection h with h
      exact ⟨by omega, by omega, by omega, h.symm⟩
    · rintro ⟨_, _, _, rfl⟩
      rfl

/-- Which failures PACK raises (R132). -/
theorem packWord_eq_error {rom : Rom} {code sdi : Byte} {data : Word} {ssm : Byte} {f : Failure} :
    packWord rom code sdi data ssm = .error f ↔
      (romRead rom code = none ∧ f = .unknownLabel) ∨
        ∃ e, romRead rom code = some e ∧
          (4 ≤ sdi.toNat ∨ 2 ^ e.width ≤ data.toNat ∨ 4 ≤ ssm.toNat) ∧ f = .outOfRange := by
  simp only [packWord, bind_eq_error, resolve_eq_error, resolve_eq_ok]
  refine or_congr Iff.rfl (exists_congr fun e => and_congr_right fun _ => ?_)
  split
  · simp_all [eq_comm]
  split
  · simp_all [eq_comm]
  split
  · simp_all [eq_comm]
  · simp_all

/-- Which answers UNPACK gives (R133). -/
theorem unpackWord_cases (w : Word) :
    (popcount w % 2 = 0 ∧ unpackWord w = .error .parityError) ∨
      (popcount w % 2 = 1 ∧ unpackWord w = .ok
        { code := reverse8 (w.extractLsb' 0 8), sdi := w.extractLsb' 8 2,
          data := w.extractLsb' 10 19, ssm := w.extractLsb' 29 2 }) := by
  rcases Nat.mod_two_eq_zero_or_one (popcount w) with h | h
  · exact .inl ⟨h, by simp [unpackWord, xorReduce, h]⟩
  · exact .inr ⟨h, by simp [unpackWord, xorReduce, h]⟩

end Sys2Proof.Machine
end

