-- ==== Sys2Proof/Tests/Slice0.lean ====
section
/-! SUPPORT. Tests and witnesses. Expected values come from the spec's worked examples and vectors
(`95_test_vectors.md`) or from its rules by hand; each test names its source. A witness theorem shows
concrete states and operands that meet the hypotheses of an obligation, clause by clause. -/

namespace Sys2Proof.Tests

open Sys2Proof Sys2Proof.Machine

/-! ### Helpers -/

/-- The response of an operation. -/
def responseOf (i : Instr) (s : State) : Option Response :=
  match exec i s with
  | .next t => t.response
  | .fault _ => none
  | .refused _ => none

/-- An operation that gives a response answers with it. -/
theorem answers {i : Instr} {s : State} {r : Response} (h : responseOf i s = some r) :
    exec i s = .next (s.answered r) := by
  cases i <;> exact congrArg (fun x => Host.Outcome.next (s.answered x)) (Option.some.inj h)

/-- Why a step is refused, if it is. -/
def refusalOf (s : State) : Option Refusal :=
  match step s with
  | .next _ => none
  | .fault _ => none
  | .refused r => some r

/-- The Discrete entry of TROM (`95_test_vectors.md`). -/
def testDiscrete : LabelEntry :=
  { code := 184, name := ascii "Test Discrete", units := [], width := 12, encoding := .discrete }

/-- A made-up BNR entry of width 19 whose resolution, the binary64 nearest 0.1, is no power of two. -/
def testTenth : LabelEntry :=
  { code := 200, name := ascii "Tenths", units := ascii "m", width := 19,
    encoding := .bnr 0x3FB999999999999A }

/-- A made-up layout that leaves data bits 5, 11, 17 and 18 uncovered. -/
def testLayout : Layout :=
  { tag := .date
    f1 := { t := 0, tw := 1, u := 1, lo := 0, hi := 19 }
    f2 := { t := 6, tw := 1, u := 7, lo := 1, hi := 12 }
    f3 := { t := 12, tw := 1, u := 13, lo := 0, hi := 19 } }

/-- A made-up BCD entry with that layout. -/
def testBcd : LabelEntry :=
  { code := 201, name := ascii "Gaps", units := [], width := 17, encoding := .bcd testLayout }

/-- TROM with the made-up entries. -/
def testRom : Rom := defaultRom ++ [(184, testDiscrete), (200, testTenth), (201, testBcd)]

/-- Reset with TROM. -/
def s1 : State := { State.reset with rom := testRom }

/-- The same with ties away from zero. -/
def s2 : State := { s1 with tie := .tiesAway }

theorem test_testRom_wf : romWf testRom = true := by decide

/-! ### Well-formedness -/

theorem test_wellFormed_accepts_255 : (Instr.octalParse (List.replicate 255 0x30)).wellFormed = true := by
  decide +kernel
theorem test_wellFormed_refuses_256 : (Instr.octalParse (List.replicate 256 0x30)).wellFormed = false := by
  decide +kernel

/-- Each item of R102, R170 and R171 refuses an entry that breaks it alone. -/
theorem test_entryWf_refuses_general :
    entryWf 11 groundSpeed = false ∧ entryWf 184 { testDiscrete with width := 0 } = false ∧
    entryWf 184 { testDiscrete with width := 20 } = false ∧
    entryWf 184 { testDiscrete with name := [0x80] } = false ∧
    entryWf 184 { testDiscrete with name := List.replicate 256 0x41 } = false ∧
    entryWf 184 { testDiscrete with units := [0xFF] } = false ∧
    entryWf 184 { testDiscrete with units := List.replicate 256 0x41 } = false := by decide +kernel

theorem test_entryWf_refuses_bnr :
    entryWf 10 { groundSpeed with width := 1 } = false ∧
    entryWf 10 { groundSpeed with encoding := .bnr 0x7FF8000000000000 } = false ∧
    entryWf 10 { groundSpeed with encoding := .bnr 0x7FF0000000000000 } = false ∧
    entryWf 10 { groundSpeed with encoding := .bnr 0x0000000000000000 } = false ∧
    entryWf 10 { groundSpeed with encoding := .bnr 0xBFC0000000000000 } = false ∧
    entryWf 10 { groundSpeed with encoding := .bnr 0x7F00000000000000 } = false ∧
    entryWf 10 { groundSpeed with encoding := .bnr 0x7EFFFFFFFFFFFFFF } = true := by decide +kernel

/-- `timeLayout` with another descriptor for the hour. -/
def withHour (f : FieldDesc) : LabelEntry :=
  { utcTime with encoding := .bcd { timeLayout with f1 := f } }

theorem test_entryWf_refuses_bcd :
    entryWf 104 (withHour { t := 18, tw := 0, u := 14, lo := 0, hi := 23 }) = false ∧
    entryWf 104 (withHour { t := 14, tw := 5, u := 10, lo := 0, hi := 23 }) = false ∧
    entryWf 104 (withHour { t := 18, tw := 1, u := 14, lo := 3, hi := 2 }) = false ∧
    entryWf 104 (withHour { t := 18, tw := 1, u := 14, lo := 0, hi := 100 }) = false ∧
    entryWf 104 (withHour { t := 18, tw := 2, u := 14, lo := 0, hi := 23 }) = false ∧
    entryWf 104 (withHour { t := 17, tw := 1, u := 14, lo := 0, hi := 23 }) = false ∧
    entryWf 104 (withHour { t := 18, tw := 1, u := 14, lo := 0, hi := 23 }) = true := by decide

/-- The list form of log entry 5: falling addresses and a doubled address are refused. -/
theorem test_romWf_refuses_form :
    romWf [(104, utcTime), (10, groundSpeed)] = false ∧
    romWf [(10, groundSpeed), (10, groundSpeed)] = false := by decide

/-! ### Decoding: words written out from R72 to R80, one for every operation -/

theorem test_decode_lookup : decodeTableWord 32 0x00000A00 = some (.lookup 10) := by decide
theorem test_decode_labelRaw : decodeTableWord 32 0x00008301 = some (.labelRaw 131) := by decide
theorem test_decode_labelName : decodeTableWord 32 0x00000A02 = some (.labelName 10) := by decide
theorem test_decode_labelUnits : decodeTableWord 32 0x00006803 = some (.labelUnits 104) := by decide
theorem test_decode_labelOctal : decodeTableWord 32 0x0000B004 = some (.labelOctal 176) := by decide
theorem test_decode_octalParse :
    decode { H := 0x00000005, A := 0, B := 0, C := 0, S := [0x33, 0x37, 0x37] } =
      .ok (.octalParse [0x33, 0x37, 0x37]) := by decide
theorem test_decode_pack :
    decodeTableWord 64 0x0000F83003020A06 = some (.pack 10 2 0xF830 3) := by decide
theorem test_decode_unpack : decodeTableWord 64 0xE01F405000000007 = some (.unpack 0xE01F4050) := by
  decide
theorem test_decode_bnrToField :
    decode { H := 0x00000A08, A := 0, B := 0xC06F400000000000, C := 0, S := [] } =
      .ok (.bnrToField 10 0xC06F400000000000) := by decide
theorem test_decode_bnrToPhys :
    decodeTableWord 64 0x0003FFFF00008309 = some (.bnrToPhys 131 0x3FFFF) := by decide
theorem test_decode_bcdToField :
    decode { H := 0x0000B00A, A := 0, B := 0, C := 0x170C1900, S := [] } =
      .ok (.bcdToField 176 { tag := .date, f1 := 25, f2 := 12, f3 := 23 }) := by decide
theorem test_decode_bcdToCal : decodeTableWord 64 0x000518000000680B = some (.bcdToCal 104 0x51800) := by
  decide
theorem test_decode_ssmInterpret : decodeTableWord 32 0x0200680C = some (.ssmInterpret 104 2) := by decide
theorem test_decode_encode_raw :
    decodeTableWord 64 0x00000ABC0203B82D = some (.encode 184 3 (.raw 0xABC) 2) := by decide
theorem test_decode_encode_phys :
    decode { H := 0x03010A0D, A := 0, B := 0xC06F400000000000, C := 0, S := [] } =
      .ok (.encode 10 1 (.physical 0xC06F400000000000) 3) := by decide
theorem test_decode_decode : decodeTableWord 64 0x946001160000000E = some (.decode 0x94600116) := by decide
theorem test_decode_toPhysical :
    decodeTableWord 64 0x000007D000000A0F = some (.toPhysical 10 0x7D0) := by decide

/-- The reserved encodings of R90 are refused by name (`95_test_vectors.md` sections 2.1 to 2.6), and a
string no frame can hold (log entry 8). -/
theorem test_decode_refuses :
    decode (.ofHeader 0x00000A40) = .error .headerBits ∧
    decode (.ofHeader 0x03000A3D) = .error .valueTag ∧
    decode { Frame.ofHeader 0x0000680A with C := 0x001E0E03 } = .error .calendarBits ∧
    decode { Frame.ofHeader 0x00000A09 with A := 0x00080000 } = .error .dataBits ∧
    decode (.ofHeader 0x04000A0C) = .error .ssmBits ∧
    decode { Frame.ofHeader 0x00000005 with S := List.replicate 256 0x30 } = .error .oversizeString := by
  decide +kernel

/-! ### One step each (`95_test_vectors.md` sections 1 and 2) -/

theorem test_lookup_discrete : responseOf (.lookup 0o270) s1 = some (.success (.entry testDiscrete)) := by
  decide
theorem test_lookup_absent : responseOf (.lookup 0o270) .reset = some (.failure .unknownLabel) := by decide
theorem test_labelRaw : responseOf (.labelRaw 0o203) .reset = some (.success (.code 131)) := by decide
theorem test_labelName : responseOf (.labelName 0o012) .reset =
    some (.success (.string
      [0x47, 0x72, 0x6F, 0x75, 0x6E, 0x64, 0x20, 0x53, 0x70, 0x65, 0x65, 0x64])) := by decide
theorem test_labelUnits : responseOf (.labelUnits 0o150) .reset = some (.success (.string [])) := by decide
theorem test_labelOctal : responseOf (.labelOctal 0o260) .reset =
    some (.success (.string [0x32, 0x36, 0x30])) := by decide
theorem test_octalParse : responseOf (.octalParse [0x33, 0x37, 0x37]) .reset =
    some (.success (.code 255)) := by decide
theorem test_octalParse_400 : responseOf (.octalParse [0x34, 0x30, 0x30]) .reset =
    some (.failure .unknownLabel) := by decide
theorem test_pack : responseOf (.pack 0o012 2 0xF830 3) .reset =
    some (.success (.word 0xE3E0C250)) := by decide
theorem test_pack_width : responseOf (.pack 0o270 0 0x1000 1) s1 = some (.failure .outOfRange) := by decide
theorem test_unpack : responseOf (.unpack 0x7FFFFFFF) .reset =
    some (.success (.fields { code := 255, sdi := 3, data := 0x7FFFF, ssm := 3 })) := by decide
theorem test_unpack_parity : responseOf (.unpack 0xE01F4051) .reset = some (.failure .parityError) := by
  decide
theorem test_bnrToField_edge : responseOf (.bnrToField 0o012 0xC0B0001000000000) .reset =
    some (.success (.signedInt (-32768))) := by decide +kernel
theorem test_bnrToField_tie_away : responseOf (.bnrToField 0o012 0x3FB0000000000000) s2 =
    some (.success (.signedInt 1)) := by decide +kernel
theorem test_bnrToPhys : responseOf (.bnrToPhys 0o012 0x7FFFF) .reset =
    some (.success (.float 0xBFC0000000000000)) := by decide +kernel
theorem test_bnrToPhys_above_width : responseOf (.bnrToPhys 0o012 0x10000) .reset =
    some (.success (.float 0)) := by decide +kernel
theorem test_bcdToField : responseOf (.bcdToField 0o260 { tag := .date, f1 := 25, f2 := 12, f3 := 23 })
    .reset = some (.success (.data 0x4B223)) := by decide
theorem test_bcdToField_hour_20 : responseOf (.bcdToField 0o150 { tag := .time, f1 := 20, f2 := 0, f3 := 0 })
    .reset = some (.failure .outOfRange) := by decide
theorem test_bcdToCal : responseOf (.bcdToCal 0o150 0x51800) .reset =
    some (.success (.calendar { tag := .time, f1 := 14, f2 := 30, f3 := 0 })) := by decide
theorem test_bcdToCal_digit_first : responseOf (.bcdToCal 0o260 0x7200A) .reset =
    some (.failure .invalidDigit) := by decide
theorem test_ssmInterpret_bcd : responseOf (.ssmInterpret 0o150 3) .reset = some (.success (.status .minus)) :=
  by decide
theorem test_ssmInterpret_discrete : responseOf (.ssmInterpret 0o270 0) s1 =
    some (.success (.status .normalOperation)) := by decide
theorem test_encode_physical : responseOf (.encode 0o203 2 (.physical 0xC093480000000000) 3) .reset =
    some (.success (.word 0x6FECBAC1)) := by decide +kernel
theorem test_encode_raw : responseOf (.encode 0o270 3 (.raw 0xABC) 2) s1 =
    some (.success (.word 0xC02AF31D)) := by decide
theorem test_decode_bcd : responseOf (.decode 0x94600116) .reset =
    some (.success (.decoded ⟨utcTime, 1, 0x51800, 0, .plus,
      some { tag := .time, f1 := 14, f2 := 30, f3 := 0 }⟩)) := by decide
theorem test_decode_digit : responseOf (.decode 0x00002816) .reset = some (.failure .invalidDigit) := by
  decide
theorem test_toPhysical : responseOf (.toPhysical 0o203 0x3FB2E) .reset =
    some (.success (.physical 0xC093480000000000 [0x66, 0x65, 0x65, 0x74])) := by decide +kernel
theorem test_toPhysical_discrete : responseOf (.toPhysical 0o270 0xABC) s1 =
    some (.failure .unsupportedConversion) := by decide

/-- The first request after reset (S2). -/
theorem test_first_step : step (State.reset.withFetchWord 64 0x000007D000000A0F) =
    .next (State.reset.answered (.success (.physical 0x406F400000000000 (ascii "knots")))) :=
  congrArg (fun r => Host.Outcome.next (State.reset.answered r))
    (by decide +kernel : Response.ofExcept ((toPhysical defaultRom 10 0x7D0).map fun p =>
      .physical p.1 p.2) = .success (.physical 0x406F400000000000 (ascii "knots")))

/-! ### Witnesses: the machine -/

/-- The request `ENCODE 012, 0, PHYS(250.0), 3` (R95). -/
def encodeRequest : Frame :=
  { H := 0x03000A0D, A := 0, B := 0x406F400000000000, C := 0, S := [] }

theorem step_encodeRequest : step (State.reset.present encodeRequest) =
    .next (State.reset.answered (.success (.word 0xE01F4050))) :=
  congrArg (fun r => Host.Outcome.next (State.reset.answered r))
    (by decide +kernel : Response.ofExcept ((encodeWord defaultRom .tiesToEven 10 0
      (.physical 0x406F400000000000) 3).map .word) = .success (.word 0xE01F4050))

theorem witness_StepKeepsTheInvariant :
    (State.reset.present encodeRequest).inv = true ∧ step (State.reset.present encodeRequest) =
      .next (State.reset.answered (.success (.word 0xE01F4050))) :=
  ⟨by decide, step_encodeRequest⟩

/-- Both sides of the check: a ROM it accepts, and one it refuses, each in the list form. -/
theorem witness_RomCheckIsTheSpecsList :
    (testRom.Pairwise fun p q => p.1.toNat < q.1.toNat) ∧ romWf testRom = true ∧
    (([(255, groundSpeed)] : Rom).Pairwise fun p q => p.1.toNat < q.1.toNat) ∧
    romWf [(255, groundSpeed)] = false := by decide

theorem witness_StepRunsTheDecodedInstruction :
    romWf (State.reset.present encodeRequest).rom = true ∧
    (State.reset.present encodeRequest).request = some encodeRequest ∧
    decode encodeRequest = .ok (.encode 10 0 (.physical 0x406F400000000000) 3) := by decide

/-- A reserved request with a string of 255 bytes, and one that is not reserved. -/
theorem witness_StepRefusesExactlyTheReservedRequests :
    (∃ f : Frame, romWf (State.reset.present f).rom = true ∧ (State.reset.present f).request = some f ∧
      f.S.length = 255 ∧ ReservedRequest f) ∧
    (∃ f : Frame, romWf (State.reset.present f).rom = true ∧ (State.reset.present f).request = some f ∧
      f.S.length = 255 ∧ ¬ReservedRequest f) := by
  have h1 : romWf defaultRom = true := by decide
  refine ⟨⟨{ Frame.ofHeader 0x00000A45 with S := List.replicate 255 0x30 }, h1, rfl, List.length_replicate, ?_⟩,
    ⟨{ Frame.ofHeader 0x00000A05 with S := List.replicate 255 0x30 }, h1, rfl, List.length_replicate, ?_⟩⟩ <;>
    · unfold ReservedRequest; decide +kernel

theorem witness_StepRefusesAnIllFormedRom :
    romWf { State.reset with rom := [(255, groundSpeed)] }.rom = false ∧
    refusalOf { State.reset with rom := [(255, groundSpeed)] } = some .illFormedRom := by decide

theorem witness_NoOperationWritesState :
    exec (.pack 0o012 2 0xF830 3) .reset = .next (State.reset.answered (.success (.word 0xE3E0C250))) ∧
    step (State.reset.present encodeRequest) =
      .next (State.reset.answered (.success (.word 0xE01F4050))) :=
  ⟨answers test_pack, step_encodeRequest⟩

/-- Two states with different ROMs that agree where DECODE reads. -/
theorem witness_OneRomEntryDecidesTheResponse :
    State.reset.rom ≠ s1.rom ∧ State.reset.tie = s1.tie ∧ State.reset.ssmTable = s1.ssmTable ∧
    romAddress (.decode 0x94600116) = some 104 ∧ romRead State.reset.rom 104 = romRead s1.rom 104 := by
  decide

theorem witness_HistoryNeverChangesAResponse :
    Reaches State.reset (State.reset.answered (.success (.word 0xE01F4050))) ∧
    State.reset.answered (.success (.word 0xE01F4050)) ≠ State.reset :=
  ⟨.served _ _ _ encodeRequest (.here _) step_encodeRequest, by decide⟩

/-! ### Witnesses: encoding -/

theorem witness_DecodeOfEncodeIsTheInstruction :
    (Instr.octalParse (List.replicate 255 0xFF)).wellFormed = true ∧
    (Instr.encode 255 255 (.calendar { tag := .time, f1 := 255, f2 := 255, f3 := 255 }) 255).wellFormed =
      true := by decide +kernel

/-- A frame with every unread field full. -/
def fullFrame : Frame :=
  { H := 0xFFFFFF37, A := 0xE01F4050, B := 0xFFFFFFFFFFFFFFFF, C := 0xFFFFFFFF, S := [1] }

theorem witness_EncodeOfDecodeIsTheReadFields : decode fullFrame = .ok (.unpack 0xE01F4050) := by decide

theorem witness_UnreadFieldsNeverMatter :
    readFields fullFrame = readFields { Frame.ofHeader 0x00000007 with A := 0xE01F4050 } ∧
    fullFrame ≠ { Frame.ofHeader 0x00000007 with A := 0xE01F4050 } := by decide

/-! ### Witnesses: the label operations -/

/-- LOOKUP, the label accessors and LABEL_OCTAL: both clauses, at codes 0 and 255 and at an entry. -/
theorem witness_label_operations :
    romRead State.reset.rom 0 = none ∧ romRead State.reset.rom 255 = none ∧
    romRead State.reset.rom 0o260 = some dateEntry ∧ romWf State.reset.rom = true := by decide

/-- OCTAL_PARSE: "000" and "377" at the ends of the range, "400" just outside. -/
theorem witness_OctalParseReadsThreeOctalDigits :
    responseOf (.octalParse [0x30, 0x30, 0x30]) .reset = some (.success (.code 0)) ∧
    responseOf (.octalParse [0x33, 0x37, 0x37]) .reset = some (.success (.code 255)) ∧
    (¬∃ a b c : Byte, ([0x34, 0x30, 0x30] : Bytes) = [a, b, c] ∧ 0x30 ≤ a.toNat ∧ a.toNat ≤ 0x33 ∧
      0x30 ≤ b.toNat ∧ b.toNat ≤ 0x37 ∧ 0x30 ≤ c.toNat ∧ c.toNat ≤ 0x37) ∧
    (¬∃ a b c : Byte, ([0x31, 0x32] : Bytes) = [a, b, c] ∧ 0x30 ≤ a.toNat ∧ a.toNat ≤ 0x33 ∧
      0x30 ≤ b.toNat ∧ b.toNat ≤ 0x37 ∧ 0x30 ≤ c.toNat ∧ c.toNat ≤ 0x37) := by
  refine ⟨by decide, by decide, ?_, ?_⟩
  · rintro ⟨a, b, c, h, _, h1, _⟩
    obtain ⟨rfl, _⟩ := List.cons.inj h
    exact absurd h1 (by decide)
  · rintro ⟨a, b, c, h, _⟩
    exact absurd (congrArg List.length h) (by simp)

theorem witness_OctalNotationGoesRound :
    exec (.octalParse [0x33, 0x37, 0x37]) .reset = .next (State.reset.answered (.success (.code 255))) :=
  answers test_octalParse

/-! ### Witnesses: the Word Codec -/

/-- PACK: sdi, ssm and data at the last value inside the range and the first one outside. -/
theorem witness_PackLaysOutTheWord :
    romWf State.reset.rom = true ∧ romRead State.reset.rom 0 = none ∧
    romRead State.reset.rom 0o012 = some groundSpeed ∧
    4 ≤ (4 : Byte).toNat ∧ 2 ^ groundSpeed.width ≤ (0x10000 : Word).toNat ∧
    (3 : Byte).toNat < 4 ∧ (0xFFFF : Word).toNat < 2 ^ groundSpeed.width ∧
    responseOf (.pack 0o012 0 0xFFFF 0) .reset = some (.success (.word 0x83FFFC50)) := by decide

theorem witness_UnpackChecksParityAndSplits :
    popcount (0x00000000 : Word) % 2 = 0 ∧ popcount (0xFFFFFFFF : Word) % 2 = 0 ∧
    popcount (0x80000000 : Word) % 2 = 1 ∧ popcount (0x7FFFFFFF : Word) % 2 = 1 := by decide

/-- PACK and ENCODE returning a word. -/
theorem witness_ReturnedWordsHaveOddParity :
    exec (.pack 0o012 2 0xF830 3) .reset = .next (State.reset.answered (.success (.word 0xE3E0C250))) ∧
    exec (.encode 0o270 3 (.raw 0xABC) 2) s1 = .next (s1.answered (.success (.word 0xC02AF31D))) :=
  ⟨answers test_pack, answers test_encode_raw⟩

theorem witness_PackAndUnpackAreInverse :
    (romWf State.reset.rom = true ∧ romRead State.reset.rom 0o012 = some groundSpeed ∧
      (3 : Byte).toNat < 4 ∧ (0xFFFF : Word).toNat < 2 ^ groundSpeed.width) ∧
    exec (.unpack 0x83FFFC50) .reset = .next (State.reset.answered (.success (.fields
      { code := 0o012, sdi := 0, data := 0xFFFF, ssm := 0 }))) ∧
    (0xFFFF : DataField).toNat < 2 ^ groundSpeed.width :=
  ⟨by decide, answers (by decide), by decide⟩

/-- Masks of one, two, 31 and 32 bits. -/
theorem witness_OddBitFlipsAreDetected :
    popcount (0xE01F4050 : Word) % 2 = 1 ∧ popcount (0x80000000 : Word) % 2 = 1 ∧
    popcount (0x7FFFFFFF : Word) % 2 = 1 ∧ popcount (0x00000003 : Word) % 2 = 0 ∧
    popcount (0xFFFFFFFF : Word) % 2 = 0 ∧ popcount (0 : Word) % 2 = 0 := by decide

/-! ### Witnesses: the BNR Converter -/

theorem value_groundSpeed : F64.value 0x3FC0000000000000 = 1 / 8 := by decide +kernel

/-- BNR_TO_FIELD: the first four clauses; -4096.0625 rounds to the last integer in range. -/
theorem witness_BnrToFieldRoundsTheExactQuotient :
    (romWf s1.rom = true ∧ romRead s1.rom 0 = none ∧
      romRead s1.rom 0o150 = some utcTime ∧ utcTime.kind ≠ .bnr ∧
      romRead s1.rom 0o270 = some testDiscrete ∧ testDiscrete.kind ≠ .bnr ∧
      romRead s1.rom 0o012 = some groundSpeed ∧ groundSpeed.encoding = .bnr 0x3FC0000000000000 ∧
      F64.isFinite 0x7FF8000000000000 = false ∧ F64.isFinite 0x7FF0000000000000 = false ∧
      F64.isFinite 0xC0B0001000000000 = true) ∧
    IsRounded .tiesToEven (F64.value 0xC0B0001000000000 / F64.value 0x3FC0000000000000) (-32768) ∧
    IsRounded .tiesToEven (F64.value 0x40AFFFE000000000 / F64.value 0x3FC0000000000000) 32768 := by
  refine ⟨by decide, ?_, ?_⟩
  · rw [value_groundSpeed,
      show F64.value 0xC0B0001000000000 = -65537 / 16 by decide +kernel]
    exact ⟨by norm_num [abs_le], fun _ => by decide⟩
  · rw [value_groundSpeed, show F64.value 0x40AFFFE000000000 = 65535 / 16 by decide +kernel]
    exact ⟨by norm_num [abs_le], fun _ => by decide⟩

/-- The two ends of the signed range, for the widths 1 and 19. -/
theorem witness_BnrFieldPatternIsTwosComplement :
    bnrField 1 (-1) = 1 ∧ -(2 : ℤ) ^ (1 - 1) ≤ -1 ∧ (0 : ℤ) ≤ 2 ^ (1 - 1) - 1 ∧
    bnrField 19 (-262144) = 0x40000 ∧ -(2 : ℤ) ^ (19 - 1) ≤ -262144 ∧ (262143 : ℤ) ≤ 2 ^ (19 - 1) - 1 := by
  decide

/-- BNR_TO_PHYS and TO_PHYSICAL: their three clauses, with the zero of a field whose upper bits are set. -/
theorem witness_BnrToPhysRoundsTheExactProduct :
    romWf s1.rom = true ∧ romRead s1.rom 0 = none ∧ romRead s1.rom 0o270 = some testDiscrete ∧
    testDiscrete.kind ≠ .bnr ∧ romRead s1.rom 0o012 = some groundSpeed ∧
    groundSpeed.encoding = .bnr 0x3FC0000000000000 ∧
    ((0x70000 : DataField).setWidth groundSpeed.width).toInt = 0 ∧
    ((0x08000 : DataField).setWidth groundSpeed.width).toInt = -32768 := by decide

/-- A quantized value for a resolution that is a power of two, and for one that is not. -/
theorem witness_QuantizationErrsByAtMostHalfAStep :
    (romWf s1.rom = true ∧ romRead s1.rom 0o012 = some groundSpeed ∧
      groundSpeed.encoding = .bnr 0x3FC0000000000000 ∧ romRead s1.rom 200 = some testTenth ∧
      testTenth.encoding = .bnr 0x3FB999999999999A) ∧
    exec (.bnrToField 0o012 0xC0B0001000000000) s1 =
      .next (s1.answered (.success (.signedInt (-32768)))) ∧
    IsPowerOfTwo (F64.value 0x3FC0000000000000) ∧
    exec (.bnrToField 200 0x3FD3333333333333) s1 = .next (s1.answered (.success (.signedInt 3))) :=
  ⟨by decide, answers (by decide +kernel), ⟨-3, by rw [value_groundSpeed]; norm_num⟩,
    answers (by decide +kernel)⟩

/-- 4095.875 is 32767 steps, -4096 is -32768 steps, and both zeros are 0 steps. -/
theorem witness_ExactMultiplesConvertExactly :
    (romWf State.reset.rom = true ∧ romRead State.reset.rom 0o012 = some groundSpeed ∧
      groundSpeed.encoding = .bnr 0x3FC0000000000000 ∧ F64.isFinite 0x40AFFFC000000000 = true ∧
      F64.isFinite 0xC0B0000000000000 = true ∧ F64.isFinite 0x8000000000000000 = true) ∧
    F64.value 0x40AFFFC000000000 = ((32767 : ℤ) : ℚ) * F64.value 0x3FC0000000000000 ∧
    F64.value 0xC0B0000000000000 = ((-32768 : ℤ) : ℚ) * F64.value 0x3FC0000000000000 ∧
    F64.value 0x8000000000000000 = ((0 : ℤ) : ℚ) * F64.value 0x3FC0000000000000 ∧
    F64.value 0x0000000000000000 = ((0 : ℤ) : ℚ) * F64.value 0x3FC0000000000000 := by decide +kernel

/-- -4096.0625 is the end of the range: accepted with ties to even, refused with ties away. -/
theorem witness_AcceptedPhysicalRange :
    romWf State.reset.rom = true ∧ romRead State.reset.rom 0o012 = some groundSpeed ∧
    groundSpeed.encoding = .bnr 0x3FC0000000000000 ∧ F64.isFinite 0xC0B0001000000000 = true ∧
    (State.reset.tie = .tiesToEven ∧ responseOf (.bnrToField 0o012 0xC0B0001000000000) .reset =
      some (.success (.signedInt (-32768)))) ∧
    (s2.tie = .tiesAway ∧ responseOf (.bnrToField 0o012 0xC0B0001000000000) s2 =
      some (.failure .outOfRange)) := by decide +kernel

/-! ### Witnesses: the BCD Converter -/

/-- BCD_TO_FIELD: each clause, with the month at 12 and 13 and the hour at 19 and 20. -/
theorem witness_BcdToFieldPacksTheDigits :
    romWf s1.rom = true ∧ romRead s1.rom 0 = none ∧ romRead s1.rom 0o012 = some groundSpeed ∧
    groundSpeed.kind ≠ .bcd ∧ romRead s1.rom 0o260 = some dateEntry ∧
    dateEntry.encoding = .bcd dateLayout ∧ CalTag.time ≠ dateLayout.tag ∧
    (∃ p ∈ fieldPairs dateLayout { tag := .date, f1 := 1, f2 := 13, f3 := 0 },
      p.2 < p.1.lo ∨ p.1.hi < p.2 ∨ 2 ^ p.1.tw ≤ p.2 / 10) ∧
    (∀ p ∈ fieldPairs dateLayout { tag := .date, f1 := 31, f2 := 12, f3 := 99 },
      p.1.lo ≤ p.2 ∧ p.2 ≤ p.1.hi ∧ p.2 / 10 < 2 ^ p.1.tw) ∧
    (∃ p ∈ fieldPairs timeLayout { tag := .time, f1 := 20, f2 := 0, f3 := 0 },
      p.2 < p.1.lo ∨ p.1.hi < p.2 ∨ 2 ^ p.1.tw ≤ p.2 / 10) ∧
    (∀ p ∈ fieldPairs timeLayout { tag := .time, f1 := 19, f2 := 59, f3 := 59 },
      p.1.lo ≤ p.2 ∧ p.2 ≤ p.1.hi ∧ p.2 / 10 < 2 ^ p.1.tw) := by decide

/-- A layout with uncovered bits writes them 0, by hand: day 19, month 12, year 07. -/
theorem test_uncovered_bits_stay_0 :
    responseOf (.bcdToField 201 { tag := .date, f1 := 19, f2 := 12, f3 := 7 }) s1 =
      some (.success (.data 0x0E153)) ∧ ¬(∃ g ∈ testLayout.groups, g.1 ≤ 11 ∧ 11 < g.1 + g.2) := by
  decide

/-- BCD_TO_CAL: each clause, the digit at 9 and 10 and the minute at 59 and 60. -/
theorem witness_BcdToCalReadsTheDigits :
    romWf s1.rom = true ∧ romRead s1.rom 0 = none ∧ romRead s1.rom 0o012 = some groundSpeed ∧
    groundSpeed.kind ≠ .bcd ∧ romRead s1.rom 0o150 = some utcTime ∧
    utcTime.encoding = .bcd timeLayout ∧
    (∃ f ∈ fieldDescs timeLayout, 9 < grp 0x0000A f.t f.tw ∨ 9 < grp 0x0000A f.u 4) ∧
    ((∀ f ∈ fieldDescs timeLayout, grp 0x03000 f.t f.tw ≤ 9 ∧ grp 0x03000 f.u 4 ≤ 9) ∧
      ∃ f ∈ fieldDescs timeLayout, 10 * grp 0x03000 f.t f.tw + grp 0x03000 f.u 4 < f.lo ∨
        f.hi < 10 * grp 0x03000 f.t f.tw + grp 0x03000 f.u 4) ∧
    (∀ f ∈ fieldDescs timeLayout, grp 0x66CD9 f.t f.tw ≤ 9 ∧ grp 0x66CD9 f.u 4 ≤ 9 ∧
      f.lo ≤ 10 * grp 0x66CD9 f.t f.tw + grp 0x66CD9 f.u 4 ∧
      10 * grp 0x66CD9 f.t f.tw + grp 0x66CD9 f.u 4 ≤ f.hi) := by decide

theorem witness_CalendarsGoRound :
    romWf State.reset.rom = true ∧
    exec (.bcdToField 0o260 { tag := .date, f1 := 25, f2 := 12, f3 := 23 }) .reset =
      .next (State.reset.answered (.success (.data 0x4B223))) :=
  ⟨by decide, answers test_bcdToField⟩

/-- The ends of the three ranges. -/
theorem witness_RepresentableCalendarsOfTheDefaults :
    responseOf (.bcdToField 0o260 { tag := .date, f1 := 31, f2 := 12, f3 := 99 }) .reset =
      some (.success (.data 0x63299)) ∧
    responseOf (.bcdToField 0o150 { tag := .time, f1 := 19, f2 := 59, f3 := 59 }) .reset =
      some (.success (.data 0x66CD9)) ∧
    responseOf (.bcdToField 0o150 { tag := .time, f1 := 23, f2 := 59, f3 := 59 }) .reset =
      some (.failure .outOfRange) := by decide

/-- BCD_TO_CAL and DECODE on a BCD label, with and without a bad nibble. -/
theorem witness_OnlyFullNibblesRaiseInvalidDigit :
    romWf State.reset.rom = true ∧ romRead State.reset.rom 0o260 = some dateEntry ∧
    dateEntry.encoding = .bcd dateLayout ∧
    responseOf (.bcdToCal 0o260 0x7200A) .reset = some (.failure .invalidDigit) ∧
    responseOf (.bcdToCal 0o260 0x00000) .reset = some (.failure .invalidField) ∧
    popcount (0x00002816 : Word) % 2 = 1 ∧
    romRead State.reset.rom (reverse8 ((0x00002816 : Word).extractLsb' 0 8)) = some utcTime ∧
    utcTime.encoding = .bcd timeLayout ∧
    responseOf (.decode 0x00002816) .reset = some (.failure .invalidDigit) := by decide

/-! ### Witnesses: the SSM Interpreter and the top-level operations -/

theorem witness_SsmInterpretReadsTheTable :
    romRead s1.rom 0 = none ∧ romRead s1.rom 0o012 = some groundSpeed ∧
    romRead s1.rom 0o150 = some utcTime ∧ romRead s1.rom 0o270 = some testDiscrete ∧
    ssmStatus s1.ssmTable .discrete (BitVec.ofNat 2 3) = .failureWarning := by decide

theorem witness_SsmCodeIsCarriedUnchanged :
    exec (.pack 0o012 2 0xF830 3) .reset = .next (State.reset.answered (.success (.word 0xE3E0C250))) ∧
    exec (.encode 0o270 3 (.raw 0xABC) 2) s1 = .next (s1.answered (.success (.word 0xC02AF31D))) ∧
    exec (.unpack 0x7FFFFFFF) .reset = .next (State.reset.answered (.success (.fields
      { code := 255, sdi := 3, data := 0x7FFFF, ssm := 3 }))) ∧
    exec (.decode 0x94600116) .reset = .next (State.reset.answered (.success (.decoded
      ⟨utcTime, 1, 0x51800, 0, .plus, some { tag := .time, f1 := 14, f2 := 30, f3 := 0 }⟩))) :=
  ⟨answers test_pack, answers test_encode_raw, answers test_unpack, answers test_decode_bcd⟩

/-- ENCODE's checks: an absent label, unsuitable values, and sdi or ssm of 4 beside 3. -/
theorem witness_EncodeConvertsAndAssembles_checks :
    romWf s1.rom = true ∧ romRead s1.rom 0 = none ∧ romRead s1.rom 0o150 = some utcTime ∧
    ¬Suits utcTime (.physical 0) ∧ romRead s1.rom 0o012 = some groundSpeed ∧
    Suits groundSpeed (.physical 0) ∧ 4 ≤ (4 : Byte).toNat ∧ (3 : Byte).toNat < 4 ∧
    romRead s1.rom 0o260 = some dateEntry ∧
    ¬Suits dateEntry (.calendar { tag := .time, f1 := 0, f2 := 0, f3 := 0 }) := by
  refine ⟨by decide, by decide, by decide, by simp [Suits, LabelEntry.kind, utcTime], by decide,
    by simp [Suits, LabelEntry.kind, groundSpeed], by decide, by decide, by decide, ?_⟩
  rintro ⟨L, h, ht⟩
  obtain rfl : dateLayout = L := Encoding.bcd.inj h
  exact absurd ht (by decide)

/-- ENCODE's values: physical ones at the last integer in range and the first one outside, and one that
is not finite; a time at the last hour that fits and the first that does not; a raw value likewise. -/
theorem witness_EncodeConvertsAndAssembles_values :
    (groundSpeed.encoding = .bnr 0x3FC0000000000000 ∧ F64.isFinite 0x7FF0000000000000 = false ∧
      F64.isFinite 0xC0B0001000000000 = true ∧
      responseOf (.encode 0o012 0 (.physical 0xC0B0001000000000) 3) s1 =
        some (.success (.word 0x62000050)) ∧
      responseOf (.encode 0o012 0 (.physical 0x40AFFFE000000000) 3) s1 = some (.failure .outOfRange)) ∧
    (utcTime.encoding = .bcd timeLayout ∧ CalTag.time = timeLayout.tag ∧
      (∀ p ∈ fieldPairs timeLayout { tag := .time, f1 := 19, f2 := 59, f3 := 59 },
        p.1.lo ≤ p.2 ∧ p.2 ≤ p.1.hi ∧ p.2 / 10 < 2 ^ p.1.tw) ∧
      ∃ p ∈ fieldPairs timeLayout { tag := .time, f1 := 20, f2 := 0, f3 := 0 },
        p.2 < p.1.lo ∨ p.1.hi < p.2 ∨ 2 ^ p.1.tw ≤ p.2 / 10) ∧
    ((0xFFFF : Word).toNat < 2 ^ groundSpeed.width ∧ 2 ^ groundSpeed.width ≤ (0x10000 : Word).toNat) := by
  decide +kernel

/-- DECODE's clauses: bad parity, an absent label, a BNR label, a bad digit, a bad field, a time. -/
theorem witness_DecodeFillsTheRecord :
    (romWf s1.rom = true ∧ (∀ i < 8, (0 : Byte).getLsbD i = (0x80000000 : Word).getLsbD (7 - i)) ∧
      popcount (0x00000000 : Word) % 2 = 0 ∧
      popcount (0x80000000 : Word) % 2 = 1 ∧ romRead s1.rom 0 = none) ∧
    ((∀ i < 8, (10 : Byte).getLsbD i = (0x10000050 : Word).getLsbD (7 - i)) ∧
      popcount (0x10000050 : Word) % 2 = 1 ∧ romRead s1.rom 10 = some groundSpeed ∧
      groundSpeed.kind ≠ .bcd) ∧
    ((∀ i < 8, (104 : Byte).getLsbD i = (0x00002816 : Word).getLsbD (7 - i)) ∧
      popcount (0x00002816 : Word) % 2 = 1 ∧ romRead s1.rom 104 = some utcTime ∧
      utcTime.encoding = .bcd timeLayout ∧ (0x00002816 : Word).extractLsb' 10 19 = 0x0000A ∧
      ∃ f ∈ fieldDescs timeLayout, 9 < grp 0x0000A f.t f.tw ∨ 9 < grp 0x0000A f.u 4) ∧
    ((∀ i < 8, (176 : Byte).getLsbD i = (0x6000000D : Word).getLsbD (7 - i)) ∧
      popcount (0x6000000D : Word) % 2 = 1 ∧ romRead s1.rom 176 = some dateEntry ∧
      dateEntry.encoding = .bcd dateLayout ∧ (0x6000000D : Word).extractLsb' 10 19 = 0 ∧
      (∀ f ∈ fieldDescs dateLayout, grp 0 f.t f.tw ≤ 9 ∧ grp 0 f.u 4 ≤ 9) ∧
      ∃ f ∈ fieldDescs dateLayout, 10 * grp 0 f.t f.tw + grp 0 f.u 4 < f.lo ∨
        f.hi < 10 * grp 0 f.t f.tw + grp 0 f.u 4) ∧
    ((∀ i < 8, (104 : Byte).getLsbD i = (0x94600116 : Word).getLsbD (7 - i)) ∧
      popcount (0x94600116 : Word) % 2 = 1 ∧ (0x94600116 : Word).extractLsb' 10 19 = 0x51800 ∧
      ∀ f ∈ fieldDescs timeLayout, grp 0x51800 f.t f.tw ≤ 9 ∧ grp 0x51800 f.u 4 ≤ 9 ∧
        f.lo ≤ 10 * grp 0x51800 f.t f.tw + grp 0x51800 f.u 4 ∧
        10 * grp 0x51800 f.t f.tw + grp 0x51800 f.u 4 ≤ f.hi) := by decide

/-- Frames that meet the operand clauses of the sixteen operations: reserved bits 0 and the tag, the data
and the calendar bits as each format asks. -/
theorem witness_operand_clauses :
    (∀ op : BitVec 4, ∃ f : Frame, f.reserved = 0 ∧ f.op = op ∧ f.A.extractLsb' 19 13 = 0 ∧
      f.C.extractLsb' 1 7 = 0 ∧ f.ssm.extractLsb' 2 6 = 0 ∧ f.S.length ≤ 255) ∧
    (∀ v : BitVec 2, ∃ f : Frame, f.reserved = 0 ∧ f.op = 0xD ∧ f.vtag = v ∧
      f.C.extractLsb' 1 7 = 0) := by
  refine ⟨fun op => ⟨.ofHeader (header op 0 0 0 0), ?_⟩, fun v => ⟨.ofHeader (header 0xD v 0 0 0), ?_⟩⟩
  · revert op
    decide
  · revert v
    decide

theorem witness_ToPhysicalAddsTheUnits :
    romWf s1.rom = true ∧ romRead s1.rom 0 = none ∧ romRead s1.rom 0o270 = some testDiscrete ∧
    testDiscrete.kind ≠ .bnr ∧ romRead s1.rom 0o203 = some pressureAltitude ∧
    pressureAltitude.encoding = .bnr 0x3FF0000000000000 := by decide

/-- ENCODE answering a word for each form of value, and a raw value that DECODE turns away. -/
theorem witness_DecodeUndoesEncode :
    (romWf s1.rom = true ∧ romRead s1.rom 0o203 = some pressureAltitude ∧
      romRead s1.rom 0o150 = some utcTime) ∧
    exec (.encode 0o203 2 (.physical 0xC093480000000000) 3) s1 =
      .next (s1.answered (.success (.word 0x6FECBAC1))) ∧
    exec (.encode 0o150 1 (.calendar { tag := .time, f1 := 14, f2 := 30, f3 := 0 }) 0) s1 =
      .next (s1.answered (.success (.word 0x94600116))) ∧
    exec (.encode 0o150 0 (.raw 0xA) 0) s1 = .next (s1.answered (.success (.word 0x00002816))) ∧
    exec (.bcdToCal 0o150 0xA) s1 = .next (s1.answered (.failure .invalidDigit)) :=
  ⟨by decide, answers (by decide +kernel), answers (by decide), answers (by decide), answers (by decide)⟩

/-! ### Witnesses: failures, the port and the host's syntax -/

theorem witness_OperationsRaiseOnlyTheirKinds :
    exec (.bcdToCal 0o260 0x7200A) .reset = .next (State.reset.answered (.failure .invalidDigit)) :=
  answers test_bcdToCal_digit_first

/-- An entry of each kind, and a BNR integer at the end of its range. -/
theorem witness_ResultRecordsOnThePort :
    (romWf s1.rom = true ∧ romRead s1.rom 0o012 = some groundSpeed ∧
      romRead s1.rom 0o150 = some utcTime ∧ romRead s1.rom 0o270 = some testDiscrete) ∧
    exec (.bnrToField 0o012 0xC0B0001000000000) s1 =
      .next (s1.answered (.success (.signedInt (-32768)))) :=
  ⟨by decide, answers (by decide +kernel)⟩

/-- A result of UNPACK, of TO_PHYSICAL, and of DECODE on a BCD, a BNR and a Discrete label. -/
theorem witness_FieldsAndPhysicalAndDecodedRecordsOnThePort :
    (romWf s1.rom = true ∧ romRead s1.rom 0o203 = some pressureAltitude ∧
      (∀ i < 8, (104 : Byte).getLsbD i = (0x94600116 : Word).getLsbD (7 - i)) ∧
      romRead s1.rom 104 = some utcTime) ∧
    exec (.unpack 0x7FFFFFFF) s1 = .next (s1.answered (.success (.fields
      { code := 255, sdi := 3, data := 0x7FFFF, ssm := 3 }))) ∧
    exec (.toPhysical 0o203 0x3FB2E) s1 = .next (s1.answered (.success
      (.physical 0xC093480000000000 [0x66, 0x65, 0x65, 0x74]))) ∧
    exec (.decode 0x94600116) s1 = .next (s1.answered (.success (.decoded
      ⟨utcTime, 1, 0x51800, 0, .plus, some { tag := .time, f1 := 14, f2 := 30, f3 := 0 }⟩))) ∧
    exec (.bcdToCal 104 0x51800) s1 = .next (s1.answered (.success
      (.calendar { tag := .time, f1 := 14, f2 := 30, f3 := 0 }))) ∧
    exec (.decode 0x10000050) s1 = .next (s1.answered (.success (.decoded
      ⟨groundSpeed, 0, 0x40000, 0, .failureWarning, none⟩))) ∧
    exec (.decode 0xC02AF31D) s1 = .next (s1.answered (.success (.decoded
      ⟨testDiscrete, 3, 0x00ABC, 2, .functionalTest, none⟩))) :=
  ⟨by decide, answers (by decide), answers (by decide +kernel), answers (by decide),
    answers (by decide), answers (by decide), answers (by decide)⟩

/-- The record of DECODE on the port (`95_test_vectors.md` section 2.6): status Plus is 4, the calendar is
the word of slot C. -/
theorem test_decode_record :
    (decodedRecord ⟨utcTime, 1, 0x51800, 0, .plus,
      some { tag := .time, f1 := 14, f2 := 30, f3 := 0 }⟩).status = 4 ∧
    (decodedRecord ⟨utcTime, 1, 0x51800, 0, .plus,
      some { tag := .time, f1 := 14, f2 := 30, f3 := 0 }⟩).cal = some 0x001E0E01 := by decide

theorem witness_EveryOperationHasItsResultRecord :
    exec (.pack 0o012 2 0xF830 3) .reset = .next (State.reset.answered (.success (.word 0xE3E0C250))) :=
  answers test_pack

/-- A quoted string of ASCII characters, and one with the code point U+0130 (log entry 15). -/
theorem test_quoted_ascii :
    quoted ['"', '0', '1', '2', '"'] = some [0x30, 0x31, 0x32] ∧
    quoted ['"', Char.ofNat 0x130, '1', '2', '"'] = none := by decide

/-- A bad octal string, and DECODE answering a record and a failure. -/
theorem witness_PseudoOperationsExpand :
    (romWf State.reset.rom = true ∧ ([0x34, 0x30, 0x30] : Bytes).length ≤ 255 ∧
      ∀ c : Byte, octal3 c ≠ [0x34, 0x30, 0x30]) ∧
    exec (.decode 0x94600116) .reset = .next (State.reset.answered (.success (.decoded
      ⟨utcTime, 1, 0x51800, 0, .plus, some { tag := .time, f1 := 14, f2 := 30, f3 := 0 }⟩))) ∧
    exec (.decode 0x00002816) .reset = .next (State.reset.answered (.failure .invalidDigit)) :=
  ⟨by decide +kernel, answers test_decode_bcd, answers test_decode_digit⟩

theorem witness_StepWithoutARequestAnswersNothing :
    romWf State.reset.rom = true ∧ State.reset.request = none := by decide

end Sys2Proof.Tests
end

/-! PROOFS. The parameters after reset (R9, R201). -/

namespace Sys2Proof.Proofs

open Sys2Proof.Machine

@[simp] theorem reset_tie : State.reset.tie = .tiesToEven := rfl
@[simp] theorem reset_ssmTable : State.reset.ssmTable = defaultSsmTable := rfl

/-- SSM code 1 has one status in all three columns of the default table (R201). -/
theorem ssmStatus_default_one (k : Kind) : ssmStatus defaultSsmTable k 1 = .noComputedData := by
  cases k with
  | bnr => rfl
  | bcd => rfl
  | discrete => rfl

/-- SSM code 2 has one status in all three columns of the default table (R201). -/
theorem ssmStatus_default_two (k : Kind) : ssmStatus defaultSsmTable k 2 = .functionalTest := by
  cases k with
  | bnr => rfl
  | bcd => rfl
  | discrete => rfl

/-- The ends of the BNR column of the default table (R201). -/
theorem ssmStatus_default_bnr : ssmStatus defaultSsmTable .bnr 0 = .failureWarning ∧
    ssmStatus defaultSsmTable .bnr 3 = .normalOperation := ⟨rfl, rfl⟩

/-- The ends of the BCD column of the default table, where the code is a sign (R201). -/
theorem ssmStatus_default_bcd : ssmStatus defaultSsmTable .bcd 0 = .plus ∧
    ssmStatus defaultSsmTable .bcd 3 = .minus := ⟨rfl, rfl⟩

/-- The ends of the Discrete column of the default table, the BNR ones exchanged (R201). -/
theorem ssmStatus_default_discrete : ssmStatus defaultSsmTable .discrete 0 = .normalOperation ∧
    ssmStatus defaultSsmTable .discrete 3 = .failureWarning := ⟨rfl, rfl⟩

/-- Settles O2: reset loads the default table, whose codes 1 and 2 do not depend on the kind and whose
codes 0 and 3 are read column by column. -/
theorem resetHoldsTheDefaultParameters : Obligations.ResetHoldsTheDefaultParameters := by
  unfold Obligations.ResetHoldsTheDefaultParameters
  rw [reset_ssmTable]
  obtain ⟨bnr0, bnr3⟩ := ssmStatus_default_bnr
  obtain ⟨bcd0, bcd3⟩ := ssmStatus_default_bcd
  obtain ⟨discrete0, discrete3⟩ := ssmStatus_default_discrete
  exact ⟨reset_tie, ssmStatus_default_one, ssmStatus_default_two, bnr0, bnr3, bcd0, bcd3,
    discrete0, discrete3⟩

end Sys2Proof.Proofs

/-! PROOFS. Every operation is one computation over the ROM, TIE and SSM_TABLE whose outcome `respond` puts on
the port; the frame, the one ROM entry read and the invariant follow from that (R20, R29, R102). -/

namespace Sys2Proof.Proofs

open Sys2Proof.Machine

/-! ### The operation of an instruction -/

/-- What the instruction returns or raises: the outcome `exec` hands to `respond` (`exec_eq_respond`). -/
def operation (i : Instr) (rom : Rom) (tie : Tie) (T : SsmTable) : Except Failure Result :=
  match i with
  | .lookup code => (resolve rom code).map .entry
  | .labelRaw code => (resolve rom code).map fun e => .code e.code
  | .labelName code => (resolve rom code).map fun e => .string e.name
  | .labelUnits code => (resolve rom code).map fun e => .string e.units
  | .labelOctal code => (resolve rom code).map fun e => .string (octal3 e.code)
  | .octalParse str => (parseOctal str).map .code
  | .pack code sdi data ssm => (packWord rom code sdi data ssm).map .word
  | .unpack w => (unpackWord w).map .fields
  | .bnrToField code x => (bnrToField rom tie code x).map .signedInt
  | .bnrToPhys code data => (bnrToPhys rom code data).map .float
  | .bcdToField code c => (bcdToField rom code c).map .data
  | .bcdToCal code data => (bcdToCal rom code data).map .calendar
  | .ssmInterpret code ssm => (resolve rom code).map fun e => .status (ssmStatus T e.kind ssm)
  | .encode code sdi v ssm => (encodeWord rom tie code sdi v ssm).map .word
  | .decode w => (decodeWord rom T w).map .decoded
  | .toPhysical code data => (toPhysical rom code data).map fun p => .physical p.1 p.2

/-- Every arm of `exec` responds with its operation. -/
theorem exec_eq_respond (i : Instr) (s : State) :
    exec i s = respond s (operation i s.rom s.tie s.ssmTable) := by
  cases i <;> rfl

/-- `exec` always answers. -/
theorem exec_eq_answered (i : Instr) (s : State) : exec i s =
    .next (s.answered (Response.ofExcept (operation i s.rom s.tie s.ssmTable))) :=
  exec_eq_respond i s

/-- The only next state of `exec` is the answered one. -/
theorem exec_cases {i : Instr} {s t : State} (h : exec i s = .next t) :
    t = s.answered (Response.ofExcept (operation i s.rom s.tie s.ssmTable)) :=
  respond_cases s (exec_eq_respond i s ▸ h)

/-- A step that answers a next state had a well-formed ROM, and either nothing to answer or an instruction
to run. -/
theorem step_cases {s t : State} (h : step s = .next t) : romWf s.rom = true ∧
    ((s.request = none ∧ t = s.idle) ∨
      ∃ f i, s.request = some f ∧ decode f = .ok i ∧ exec i s = .next t) := by
  unfold step at h
  split at h
  case isFalse => cases h
  case isTrue hw =>
    refine ⟨hw, ?_⟩
    split at h
    case h_1 hreq =>
      cases h
      exact .inl ⟨hreq, rfl⟩
    case h_2 f hreq =>
      split at h
      case h_1 i hdec => exact .inr ⟨f, i, hreq, hdec, h⟩
      case h_2 => cases h

/-! ### What the operations return from a well-formed ROM -/

theorem inRom_of_read {rom : Rom} {code : Byte} {e : LabelEntry} (h : romRead rom code = some e) :
    inRom rom e = true :=
  List.any_eq_true.2 ⟨(code, e), romRead_mem h, by simp⟩

/-- The strings of an entry read from a well-formed ROM are ASCII (R102). -/
theorem asciiString_of_read {rom : Rom} (hw : romWf rom = true) {code : Byte} {e : LabelEntry}
    (h : romRead rom code = some e) : asciiString e.name = true ∧ asciiString e.units = true := by
  obtain ⟨-, -, -, hname, hunits, -⟩ := entryWf_iff.1 (entryWf_of_read hw h)
  exact ⟨hname, hunits⟩

/-- The character of an octal digit is ASCII. -/
theorem octalDigit_lt {d : Nat} (h : d < 8) : (octalDigit d).toNat < 128 := by
  rw [octalDigit, BitVec.toNat_ofNat]
  omega

/-- The three octal digits of a code are ASCII characters (R116). -/
theorem asciiString_octal3 (c : Byte) : asciiString (octal3 c) = true := by
  have h2 : (octalDigit (c.extractLsb' 6 2).toNat).toNat < 128 := octalDigit_lt (by omega)
  have h1 : (octalDigit (c.extractLsb' 3 3).toNat).toNat < 128 := octalDigit_lt (by omega)
  have h0 : (octalDigit (c.extractLsb' 0 3).toNat).toNat < 128 := octalDigit_lt (by omega)
  simp only [asciiString, stringFits, octal3, List.length_cons, List.length_nil, List.all_cons,
    List.all_nil, h2, h1, h0]
  rfl

/-- An assembled word has odd parity (R65, R66). -/
theorem popcount_assembleWord (code : Byte) (sdi : BitVec 2) (data : DataField) (ssm : BitVec 2) :
    popcount (assembleWord code sdi data ssm) % 2 = 1 := popcount_parityBit_append _

/-- PACK returns words of odd parity only (R134). -/
theorem packWord_odd {rom : Rom} {code sdi ssm : Byte} {data w : Word}
    (h : packWord rom code sdi data ssm = .ok w) : popcount w % 2 = 1 := by
  obtain ⟨-, -, -, -, -, rfl⟩ := packWord_eq_ok.1 h
  exact popcount_assembleWord ..

/-- ENCODE returns words of odd parity only (R210). -/
theorem encodeWord_odd {rom : Rom} {tie : Tie} {code sdi ssm : Byte} {v : Value} {w : Word}
    (h : encodeWord rom tie code sdi v ssm = .ok w) : popcount w % 2 = 1 := by
  obtain ⟨e, -, h⟩ := bind_eq_ok.1 h
  split at h
  · cases h
  split at h
  · cases h
  split at h
  · cases h
  obtain ⟨data, -, rfl⟩ := map_eq_ok.1 h
  exact popcount_assembleWord ..

/-- `bnrResolution` returns the resolution of a BNR entry and nothing else. -/
theorem bnrResolution_eq_ok {e : LabelEntry} {res : F64} :
    bnrResolution e = .ok res ↔ e.encoding = .bnr res := by
  unfold bnrResolution
  cases e.encoding <;> simp

/-- `bcdLayout` returns the layout of a BCD entry and nothing else. -/
theorem bcdLayout_eq_ok {e : LabelEntry} {L : Layout} :
    bcdLayout e = .ok L ↔ e.encoding = .bcd L := by
  unfold bcdLayout
  cases e.encoding <;> simp

/-- `quantize` returns integers of the signed range only (R152). -/
theorem inSignedRange_of_quantize {tie : Tie} {width : Nat} {res x : F64} {n : Int}
    (h : quantize tie width res x = .ok n) : inSignedRange width n = true := by
  simp only [quantize] at h
  split at h
  case isFalse => cases h
  split at h
  case isFalse => cases h
  case isTrue hn => exact Except.ok.inj h ▸ hn

/-- The signed range of a width up to 19 lies in that of 19 bits (R150). -/
theorem bounds_of_inSignedRange {width : Nat} (hw : width ≤ 19) {n : Int}
    (h : inSignedRange width n = true) : -(2 ^ 18 : Int) ≤ n ∧ n ≤ 2 ^ 18 - 1 := by
  obtain ⟨hlo, hhi⟩ := inSignedRange_iff.1 h
  have hpow : (2 : Int) ^ (width - 1) ≤ 2 ^ 18 := pow_le_pow_right₀ (by decide) (by omega)
  exact ⟨by omega, by omega⟩

/-- BNR_TO_FIELD returns integers that fit 19 bits (R150, R152). -/
theorem bnrToField_bounds {rom : Rom} (hw : romWf rom = true) {tie : Tie} {code : Byte} {x : F64}
    {n : Int} (h : bnrToField rom tie code x = .ok n) : -(2 ^ 18 : Int) ≤ n ∧ n ≤ 2 ^ 18 - 1 := by
  obtain ⟨e, he, h⟩ := bind_eq_ok.1 h
  obtain ⟨res, -, h⟩ := bind_eq_ok.1 h
  exact bounds_of_inSignedRange (width_of_read hw (resolve_eq_ok.1 he)).2 (inSignedRange_of_quantize h)

/-- The physical value of a BNR entry read from a well-formed ROM is finite (R102 item 3, R153). -/
theorem isFinite_physicalValue {rom : Rom} (hw : romWf rom = true) {code : Byte} {e : LabelEntry}
    {res : F64} (he : romRead rom code = some e) (hres : e.encoding = .bnr res) (data : DataField) :
    F64.isFinite (physicalValue e.width res data) = true := by
  obtain ⟨hwidth, -, -, hpos, hmax⟩ := resolution_of_read hw he hres
  obtain ⟨⟨hfin, -⟩, -⟩ := physicalValue_spec (by omega) hpos hmax data
  exact hfin

/-- BNR_TO_PHYS returns finite values only (R153). -/
theorem bnrToPhys_finite {rom : Rom} (hw : romWf rom = true) {code : Byte} {data : DataField} {x : F64}
    (h : bnrToPhys rom code data = .ok x) : F64.isFinite x = true := by
  obtain ⟨e, he, h⟩ := bind_eq_ok.1 h
  obtain ⟨res, hres, h⟩ := bind_eq_ok.1 h
  cases h
  exact isFinite_physicalValue hw (resolve_eq_ok.1 he) (bnrResolution_eq_ok.1 hres) data

/-- TO_PHYSICAL returns a finite value with ASCII units (R102, R222). -/
theorem toPhysical_legal {rom : Rom} (hw : romWf rom = true) {code : Byte} {data : DataField}
    {p : F64 × Bytes} (h : toPhysical rom code data = .ok p) :
    F64.isFinite p.1 = true ∧ asciiString p.2 = true := by
  obtain ⟨e, he, h⟩ := bind_eq_ok.1 h
  obtain ⟨res, hres, h⟩ := bind_eq_ok.1 h
  cases h
  have hread := resolve_eq_ok.1 he
  exact ⟨isFinite_physicalValue hw hread (bnrResolution_eq_ok.1 hres) data,
    (asciiString_of_read hw hread).2⟩

/-- A value in the legal range of a well-formed field has two digits, also as a byte (R170). -/
theorem twoDigits_of_inRange {f : FieldDesc} (hf : f.wf = true) {v : Nat} (h : f.inRange v = true) :
    (BitVec.ofNat 8 v).toNat ≤ 99 := by
  obtain ⟨-, -, -, hhi⟩ := fieldDesc_wf_iff.1 hf
  have hv : v ≤ f.hi := by
    rw [FieldDesc.inRange, Bool.and_eq_true, decide_eq_true_eq, decide_eq_true_eq] at h
    exact h.2
  rw [BitVec.toNat_ofNat]
  omega

/-- A calendar value read with a well-formed layout has two-digit fields (R170, R176). -/
theorem unpackCalendar_twoDigit {L : Layout} {width : Nat} (hL : L.wf width = true) {data : DataField}
    {c : Calendar} (h : unpackCalendar L data = .ok c) : twoDigit c = true := by
  have hwf := layoutFacts hL
  rcases unpackCalendar_cases L data with ⟨-, hraise⟩ | ⟨-, -, hraise⟩ | ⟨hfields, hok⟩
  · rw [hraise] at h; cases h
  · rw [hraise] at h; cases h
  · obtain rfl := Except.ok.inj (hok.symm.trans h)
    have h1 := twoDigits_of_inRange hwf.f1 (hfields L.f1 (by simp [fieldDescs])).2
    have h2 := twoDigits_of_inRange hwf.f2 (hfields L.f2 (by simp [fieldDescs])).2
    have h3 := twoDigits_of_inRange hwf.f3 (hfields L.f3 (by simp [fieldDescs])).2
    simp only [twoDigit, h1, h2, h3, decide_true, Bool.and_self]

/-- BCD_TO_CAL returns calendar values of two-digit fields (R176). -/
theorem bcdToCal_twoDigit {rom : Rom} (hw : romWf rom = true) {code : Byte} {data : DataField}
    {c : Calendar} (h : bcdToCal rom code data = .ok c) : twoDigit c = true := by
  obtain ⟨e, he, h⟩ := bind_eq_ok.1 h
  obtain ⟨L, hL, h⟩ := bind_eq_ok.1 h
  exact unpackCalendar_twoDigit (bcd_of_read hw (resolve_eq_ok.1 he) (bcdLayout_eq_ok.1 hL)) h

/-- The calendar of a DecodedWord is present exactly for a BCD label, with two-digit fields (R221). -/
theorem decodedCalendar_legal {rom : Rom} (hw : romWf rom = true) {code : Byte} {e : LabelEntry}
    (he : romRead rom code = some e) {data : DataField} {cal : Option Calendar}
    (h : decodedCalendar e.encoding data = .ok cal) :
    cal.isSome = decide (e.kind = .bcd) ∧ cal.all twoDigit = true := by
  cases henc : e.encoding with
  | bnr res =>
    rw [henc] at h
    cases h
    simp [LabelEntry.kind, henc]
  | discrete =>
    rw [henc] at h
    cases h
    simp [LabelEntry.kind, henc]
  | bcd L =>
    rw [henc] at h
    obtain ⟨c, hc, rfl⟩ := map_eq_ok.1 h
    simp [LabelEntry.kind, henc, unpackCalendar_twoDigit (bcd_of_read hw he henc) hc]

/-- DECODE returns legal records only (R221). -/
theorem decodeWord_legal {rom : Rom} (hw : romWf rom = true) {T : SsmTable} {w : Word} {d : DecodedWord}
    (h : decodeWord rom T w = .ok d) : resultLegal rom (.decoded d) = true := by
  obtain ⟨f, -, h⟩ := bind_eq_ok.1 h
  obtain ⟨e, he, h⟩ := bind_eq_ok.1 h
  obtain ⟨cal, hcal, h⟩ := bind_eq_ok.1 h
  cases h
  have hread := resolve_eq_ok.1 he
  obtain ⟨hpresent, hdigits⟩ := decodedCalendar_legal hw hread hcal
  simp [resultLegal, inRom_of_read hread, hpresent, hdigits]

/-- With a well-formed ROM every operation returns a legal result. -/
theorem operation_legal {rom : Rom} (hw : romWf rom = true) {i : Instr} {tie : Tie} {T : SsmTable}
    {r : Result} (h : operation i rom tie T = .ok r) : resultLegal rom r = true := by
  cases i with
  | lookup code =>
    obtain ⟨e, he, rfl⟩ := map_eq_ok.1 h
    exact inRom_of_read (resolve_eq_ok.1 he)
  | labelName code =>
    obtain ⟨e, he, rfl⟩ := map_eq_ok.1 h
    exact (asciiString_of_read hw (resolve_eq_ok.1 he)).1
  | labelUnits code =>
    obtain ⟨e, he, rfl⟩ := map_eq_ok.1 h
    exact (asciiString_of_read hw (resolve_eq_ok.1 he)).2
  | labelOctal code =>
    obtain ⟨e, -, rfl⟩ := map_eq_ok.1 h
    exact asciiString_octal3 e.code
  | pack code sdi data ssm =>
    obtain ⟨w, hword, rfl⟩ := map_eq_ok.1 h
    exact decide_eq_true (packWord_odd hword)
  | encode code sdi v ssm =>
    obtain ⟨w, hword, rfl⟩ := map_eq_ok.1 h
    exact decide_eq_true (encodeWord_odd hword)
  | bnrToField code x =>
    obtain ⟨n, hn, rfl⟩ := map_eq_ok.1 h
    simpa [resultLegal] using bnrToField_bounds hw hn
  | bnrToPhys code data =>
    obtain ⟨x, hx, rfl⟩ := map_eq_ok.1 h
    exact bnrToPhys_finite hw hx
  | toPhysical code data =>
    obtain ⟨p, hp, rfl⟩ := map_eq_ok.1 h
    simpa [resultLegal] using toPhysical_legal hw hp
  | bcdToCal code data =>
    obtain ⟨c, hc, rfl⟩ := map_eq_ok.1 h
    exact bcdToCal_twoDigit hw hc
  | decode w =>
    obtain ⟨d, hd, rfl⟩ := map_eq_ok.1 h
    exact decodeWord_legal hw hd
  | labelRaw code =>
    obtain ⟨e, -, rfl⟩ := map_eq_ok.1 h
    rfl
  | octalParse str =>
    obtain ⟨c, -, rfl⟩ := map_eq_ok.1 h
    rfl
  | unpack w =>
    obtain ⟨f, -, rfl⟩ := map_eq_ok.1 h
    rfl
  | bcdToField code c =>
    obtain ⟨d, -, rfl⟩ := map_eq_ok.1 h
    rfl
  | ssmInterpret code ssm =>
    obtain ⟨e, -, rfl⟩ := map_eq_ok.1 h
    rfl

/-! ### The invariant -/

theorem inv_iff {s : State} :
    s.inv = true ↔ romWf s.rom = true ∧ s.response.all (responseLegal s.rom) = true := by
  simp [State.inv]

/-- The response of an operation is a failure or a legal result. -/
theorem responseLegal_operation {rom : Rom} (hw : romWf rom = true) (i : Instr) (tie : Tie)
    (T : SsmTable) : responseLegal rom (Response.ofExcept (operation i rom tie T)) = true := by
  cases h : operation i rom tie T with
  | ok r => exact operation_legal hw h
  | error e => rfl

/-- Settles O4: the step has checked the ROM and leaves it alone; the response it puts on the port is none,
or that of an operation over the well-formed ROM, case by case of the instruction. -/
theorem stepKeepsTheInvariant : Obligations.StepKeepsTheInvariant := by
  unfold Obligations.StepKeepsTheInvariant
  intro s t _ hstep
  obtain ⟨hw, ⟨-, rfl⟩ | ⟨f, i, -, -, hexec⟩⟩ := step_cases hstep
  · exact inv_iff.2 ⟨hw, rfl⟩
  · obtain rfl := exec_cases hexec
    exact inv_iff.2 ⟨hw, responseLegal_operation hw i s.tie s.ssmTable⟩

/-! ### The ROM entry an operation reads -/

theorem resolve_congr {rom rom' : Rom} {code : Byte} (h : romRead rom code = romRead rom' code) :
    resolve rom code = resolve rom' code := by
  rw [resolve, resolve, h]

/-- An operation reads the ROM at its `romAddress` only (R29, R46). -/
theorem operation_congr {i : Instr} {rom rom' : Rom}
    (h : ∀ c, romAddress i = some c → romRead rom c = romRead rom' c) (tie : Tie) (T : SsmTable) :
    operation i rom tie T = operation i rom' tie T := by
  have hres : ∀ c, romAddress i = some c → resolve rom c = resolve rom' c :=
    fun c hc => resolve_congr (h c hc)
  cases i with
  | octalParse str => rfl
  | unpack w => rfl
  | lookup code => rw [operation, operation, hres code rfl]
  | labelRaw code => rw [operation, operation, hres code rfl]
  | labelName code => rw [operation, operation, hres code rfl]
  | labelUnits code => rw [operation, operation, hres code rfl]
  | labelOctal code => rw [operation, operation, hres code rfl]
  | ssmInterpret code ssm => rw [operation, operation, hres code rfl]
  | pack code sdi data ssm => rw [operation, operation, packWord, packWord, hres code rfl]
  | bnrToField code x => rw [operation, operation, bnrToField, bnrToField, hres code rfl]
  | bnrToPhys code data => rw [operation, operation, bnrToPhys, bnrToPhys, hres code rfl]
  | bcdToField code c => rw [operation, operation, bcdToField, bcdToField, hres code rfl]
  | bcdToCal code data => rw [operation, operation, bcdToCal, bcdToCal, hres code rfl]
  | encode code sdi v ssm => rw [operation, operation, encodeWord, encodeWord, hres code rfl]
  | toPhysical code data => rw [operation, operation, toPhysical, toPhysical, hres code rfl]
  | decode w =>
    rw [operation, operation, decodeWord, decodeWord]
    rcases unpackWord_cases w with ⟨-, hf⟩ | ⟨-, hf⟩
    · rw [hf]
      rfl
    · rw [hf]
      simp only [bind, Except.bind, hres _ rfl]

/-- Settles O11: both states answer with their operation, and the two operations are equal, since an
operation sees TIE, SSM_TABLE and the entry at its address only. -/
theorem oneRomEntryDecidesTheResponse : Obligations.OneRomEntryDecidesTheResponse := by
  unfold Obligations.OneRomEntryDecidesTheResponse
  intro i s t htie htable hread
  have hop : operation i s.rom s.tie s.ssmTable = operation i t.rom t.tie t.ssmTable := by
    rw [htie, htable, operation_congr hread]
  exact ⟨_, exec_eq_answered i s, hop ▸ exec_eq_answered i t⟩

/-! ### The frame -/

/-- An answered operation leaves the ROM and the parameters as they were and no request (R20, R21). -/
theorem exec_frame {i : Instr} {s t : State} (h : exec i s = .next t) :
    t.rom = s.rom ∧ t.tie = s.tie ∧ t.ssmTable = s.ssmTable ∧ t.request = none := by
  obtain rfl := exec_cases h
  simp

/-- Settles O10: an operation only answers, and a step runs an operation or idles with no request. -/
theorem noOperationWritesState : Obligations.NoOperationWritesState := by
  unfold Obligations.NoOperationWritesState
  refine ⟨fun i s t h => exec_frame h, fun s t hstep => ?_⟩
  obtain ⟨-, ⟨hreq, rfl⟩ | ⟨f, i, -, -, hexec⟩⟩ := step_cases hstep
  · simp [hreq]
  · exact exec_frame hexec

end Sys2Proof.Proofs

/-! PROOFS. Serving a request is a function of the ROM, TIE, SSM_TABLE and the request, and no sequence of
requests changes the first three (R20, R49, R272). -/

namespace Sys2Proof.Proofs

open Sys2Proof.Machine

/-! ### The three outcomes of a served request -/

/-- An ill-formed ROM is refused before the request is read (R102). -/
theorem serve_of_illFormedRom {s : State} (hw : ¬romWf s.rom = true) (f : Frame) :
    serve s f = .refused .illFormedRom :=
  if_neg hw

/-- A reserved encoding is refused before any check of its operands (R90, R250). -/
theorem serve_of_decode_error {s : State} (hw : romWf s.rom = true) {f : Frame} {why : Reserved}
    (hdec : decode f = .error why) : serve s f = .refused (.reservedEncoding why) := by
  simp [serve, step, hw, hdec]

/-- A request that decodes is answered with its operation; nothing of the port as it was stays. -/
theorem serve_of_decode_ok {s : State} (hw : romWf s.rom = true) {f : Frame} {i : Instr}
    (hdec : decode f = .ok i) : serve s f =
      .next (s.answered (Response.ofExcept (operation i s.rom s.tie s.ssmTable))) := by
  simp [serve, step, hw, hdec, exec_eq_answered]

/-! ### What serving depends on and what it keeps -/

/-- `t` holds the ROM and the parameters of `s`; the request and the response on the port are free. -/
def SameConfig (s t : State) : Prop := t.rom = s.rom ∧ t.tie = s.tie ∧ t.ssmTable = s.ssmTable

theorem SameConfig.answered_eq {s t : State} (h : SameConfig s t) (r : Response) :
    t.answered r = s.answered r := by
  obtain ⟨hrom, htie, htable⟩ := h
  rw [State.answered, State.answered, hrom, htie, htable]

/-- The outcome of a request, its next state included, does not depend on what is left on the port. -/
theorem SameConfig.serve_eq {s t : State} (h : SameConfig s t) (f : Frame) : serve t f = serve s f := by
  have ⟨hrom, htie, htable⟩ := h
  by_cases hw : romWf s.rom = true
  case neg => rw [serve_of_illFormedRom hw, serve_of_illFormedRom (hrom ▸ hw)]
  case pos =>
    have hw' : romWf t.rom = true := hrom ▸ hw
    cases hdec : decode f with
    | error why => rw [serve_of_decode_error hw hdec, serve_of_decode_error hw' hdec]
    | ok i =>
      rw [serve_of_decode_ok hw hdec, serve_of_decode_ok hw' hdec, h.answered_eq, hrom, htie, htable]

/-- Answering a sequence of requests keeps the ROM and the parameters: O10's frame, step after step. -/
theorem sameConfig_of_reaches {s t : State} (h : Reaches s t) : SameConfig s t := by
  induction h with
  | here => exact ⟨rfl, rfl, rfl⟩
  | served t u f _ hserve ih =>
    obtain ⟨hrom, htie, htable⟩ := ih
    obtain ⟨hrom', htie', htable', -⟩ := noOperationWritesState.2 (t.present f) u hserve
    exact ⟨hrom'.trans hrom, htie'.trans htie, htable'.trans htable⟩

/-- Settles O12: a reached state has the ROM and the parameters of the first, so a request has the very same
outcome in both. -/
theorem historyNeverChangesAResponse : Obligations.HistoryNeverChangesAResponse := by
  unfold Obligations.HistoryNeverChangesAResponse
  intro s t f hreach
  have hserve : serve t f = serve s f := (sameConfig_of_reaches hreach).serve_eq f
  exact ⟨by rw [answerTo, answerTo, hserve], fun why => by rw [hserve]⟩

end Sys2Proof.Proofs

/-! PROOFS. Decoding by the operation code, and decoding the frame of an instruction (R72 to R80,
R93). -/

namespace Sys2Proof.Proofs

open Sys2Proof.Machine

/-! ### The sixteen operation codes (R77) -/

/-- Every operation code is one of the sixteen of R77, named by its operation. -/
theorem opcode_cases {motive : BitVec 4 → Prop} (op : BitVec 4)
    (lookup : motive 0x0) (labelRaw : motive 0x1) (labelName : motive 0x2) (labelUnits : motive 0x3)
    (labelOctal : motive 0x4) (octalParse : motive 0x5) (pack : motive 0x6) (unpack : motive 0x7)
    (bnrToField : motive 0x8) (bnrToPhys : motive 0x9) (bcdToField : motive 0xA)
    (bcdToCal : motive 0xB) (ssmInterpret : motive 0xC) (encode : motive 0xD) (decode : motive 0xE)
    (toPhysical : motive 0xF) : motive op := by
  obtain ⟨k, rfl⟩ : ∃ k : Fin 16, op = BitVec.ofFin k := ⟨op.toFin, rfl⟩
  fin_cases k <;> assumption

/-- Every value tag is one of the four of R80. -/
theorem vtag_cases {motive : BitVec 2 → Prop} (vtag : BitVec 2) (physical : motive 0)
    (calendar : motive 1) (raw : motive 2) (reserved : motive 3) : motive vtag := by
  obtain ⟨k, rfl⟩ : ∃ k : Fin 4, vtag = BitVec.ofFin k := ⟨vtag.toFin, rfl⟩
  fin_cases k <;> assumption

/-! ### Decoding by operation code and by value tag -/

section decode

variable {f : Frame}

/-- The four header bits the decoder looks at are those of the operation code (R72). -/
theorem opBits {op : BitVec 4} (h : f.op = op) :
    f.H.getLsbD 3 = op.getLsbD 3 ∧ f.H.getLsbD 2 = op.getLsbD 2 ∧ f.H.getLsbD 1 = op.getLsbD 1 ∧
      f.H.getLsbD 0 = op.getLsbD 0 :=
  ⟨getLsbD_of_op h (by decide), getLsbD_of_op h (by decide), getLsbD_of_op h (by decide),
    getLsbD_of_op h (by decide)⟩

/-- The two header bits that select ENCODE's value are those of the value tag (R80). -/
theorem vtagBits {vtag : BitVec 2} (h : f.vtag = vtag) :
    f.H.getLsbD 5 = vtag.getLsbD 1 ∧ f.H.getLsbD 4 = vtag.getLsbD 0 :=
  ⟨getLsbD_of_vtag h (i := 1) (by decide), getLsbD_of_vtag h (i := 0) (by decide)⟩

theorem valueOperand_physical (h : f.vtag = 0) : f.valueOperand = .ok (.physical f.B) := by
  simp only [Frame.valueOperand, vtagBits h]; rfl

theorem valueOperand_calendar (h : f.vtag = 1) :
    f.valueOperand = f.calendarOperand.map .calendar := by
  simp only [Frame.valueOperand, vtagBits h]; rfl

theorem valueOperand_raw (h : f.vtag = 2) : f.valueOperand = .ok (.raw f.A) := by
  simp only [Frame.valueOperand, vtagBits h]; rfl

theorem valueOperand_reserved (h : f.vtag = 3) : f.valueOperand = .error .valueTag := by
  simp only [Frame.valueOperand, vtagBits h]; rfl

/-! One equation for each operation code: the instruction, or what becomes of its operand. -/

variable (hr : f.reserved = 0)
include hr

theorem decode_lookup (h : f.op = 0x0) : decode f = .ok (.lookup f.code) := by
  simp only [decode_of_reserved hr, decodeOp, opBits h]; rfl

theorem decode_labelRaw (h : f.op = 0x1) : decode f = .ok (.labelRaw f.code) := by
  simp only [decode_of_reserved hr, decodeOp, opBits h]; rfl

theorem decode_labelName (h : f.op = 0x2) : decode f = .ok (.labelName f.code) := by
  simp only [decode_of_reserved hr, decodeOp, opBits h]; rfl

theorem decode_labelUnits (h : f.op = 0x3) : decode f = .ok (.labelUnits f.code) := by
  simp only [decode_of_reserved hr, decodeOp, opBits h]; rfl

theorem decode_labelOctal (h : f.op = 0x4) : decode f = .ok (.labelOctal f.code) := by
  simp only [decode_of_reserved hr, decodeOp, opBits h]; rfl

theorem decode_octalParse (h : f.op = 0x5) : decode f = f.stringOperand.map .octalParse := by
  simp only [decode_of_reserved hr, decodeOp, opBits h]; rfl

theorem decode_pack (h : f.op = 0x6) : decode f = .ok (.pack f.code f.sdi f.A f.ssm) := by
  simp only [decode_of_reserved hr, decodeOp, opBits h]; rfl

theorem decode_unpack (h : f.op = 0x7) : decode f = .ok (.unpack f.A) := by
  simp only [decode_of_reserved hr, decodeOp, opBits h]; rfl

theorem decode_bnrToField (h : f.op = 0x8) : decode f = .ok (.bnrToField f.code f.B) := by
  simp only [decode_of_reserved hr, decodeOp, opBits h]; rfl

theorem decode_bnrToPhys (h : f.op = 0x9) :
    decode f = f.dataOperand.map (.bnrToPhys f.code) := by
  simp only [decode_of_reserved hr, decodeOp, opBits h]; rfl

theorem decode_bcdToField (h : f.op = 0xA) :
    decode f = f.calendarOperand.map (.bcdToField f.code) := by
  simp only [decode_of_reserved hr, decodeOp, opBits h]; rfl

theorem decode_bcdToCal (h : f.op = 0xB) :
    decode f = f.dataOperand.map (.bcdToCal f.code) := by
  simp only [decode_of_reserved hr, decodeOp, opBits h]; rfl

theorem decode_ssmInterpret (h : f.op = 0xC) :
    decode f = f.ssmOperand.map (.ssmInterpret f.code) := by
  simp only [decode_of_reserved hr, decodeOp, opBits h]; rfl

theorem decode_encode (h : f.op = 0xD) :
    decode f = f.valueOperand.map (.encode f.code f.sdi · f.ssm) := by
  simp only [decode_of_reserved hr, decodeOp, opBits h]; rfl

theorem decode_decode (h : f.op = 0xE) : decode f = .ok (.decode f.A) := by
  simp only [decode_of_reserved hr, decodeOp, opBits h]; rfl

theorem decode_toPhysical (h : f.op = 0xF) :
    decode f = f.dataOperand.map (.toPhysical f.code) := by
  simp only [decode_of_reserved hr, decodeOp, opBits h]; rfl

end decode

/-! ### From an instruction to its frame and back -/

/-- A string of at most 255 bytes reads back (R76). -/
theorem stringOperand_of_fits {f : Frame} (h : stringFits f.S = true) : f.stringOperand = .ok f.S :=
  if_pos h

/-- An SSM operand the encoder wrote reads back (R78). -/
theorem ssmOperand_of_setWidth {f : Frame} {m : BitVec 2} (h : f.ssm = m.setWidth 8) :
    f.ssmOperand = .ok m := by
  have h1 : f.ssm.extractLsb' 2 6 = 0 := by
    rw [h]
    exact BitVec.eq_of_getLsbD_eq fun i _ => by simp
  have h2 : f.ssm.extractLsb' 0 2 = m := by
    rw [h]
    exact BitVec.eq_of_getLsbD_eq fun i hi => by simp [hi]; omega
  rw [Frame.ssmOperand, if_pos h1, h2]

/-- The value operand the encoder wrote reads back (R80). -/
theorem valueOperand_encodeValue (code sdi ssm : Byte) (v : Value) :
    (encodeValue code sdi ssm v).valueOperand = .ok v := by
  cases v with
  | physical x => exact valueOperand_physical (vtag_of_header rfl)
  | calendar c =>
    rw [valueOperand_calendar (vtag_of_header rfl), calendarOperand_of_toSlot rfl]
    rfl
  | raw r => exact valueOperand_raw (vtag_of_header rfl)

theorem encodeValue_H (code sdi ssm : Byte) (v : Value) :
    (encodeValue code sdi ssm v).H = header 0xD v.vtag code sdi ssm := by
  cases v <;> rfl

/-- Settles O13, operation by operation: the header's fields and the operand's slot read back as the encoder
wrote them. -/
theorem decodeOfEncodeIsTheInstruction : Obligations.DecodeOfEncodeIsTheInstruction := by
  unfold Obligations.DecodeOfEncodeIsTheInstruction
  intro i hi
  cases i with
  | lookup code =>
    have h : (encode (.lookup code)).H = header 0x0 0 code 0 0 := rfl
    rw [decode_lookup (reserved_of_header h) (op_of_header h), code_of_header h]
  | labelRaw code =>
    have h : (encode (.labelRaw code)).H = header 0x1 0 code 0 0 := rfl
    rw [decode_labelRaw (reserved_of_header h) (op_of_header h), code_of_header h]
  | labelName code =>
    have h : (encode (.labelName code)).H = header 0x2 0 code 0 0 := rfl
    rw [decode_labelName (reserved_of_header h) (op_of_header h), code_of_header h]
  | labelUnits code =>
    have h : (encode (.labelUnits code)).H = header 0x3 0 code 0 0 := rfl
    rw [decode_labelUnits (reserved_of_header h) (op_of_header h), code_of_header h]
  | labelOctal code =>
    have h : (encode (.labelOctal code)).H = header 0x4 0 code 0 0 := rfl
    rw [decode_labelOctal (reserved_of_header h) (op_of_header h), code_of_header h]
  | octalParse str =>
    have h : (encode (.octalParse str)).H = header 0x5 0 0 0 0 := rfl
    rw [decode_octalParse (reserved_of_header h) (op_of_header h),
      stringOperand_of_fits (f := encode (.octalParse str)) hi]
    rfl
  | pack code sdi data ssm =>
    have h : (encode (.pack code sdi data ssm)).H = header 0x6 0 code sdi ssm := rfl
    rw [decode_pack (reserved_of_header h) (op_of_header h), code_of_header h, sdi_of_header h,
      ssm_of_header h]
    rfl
  | unpack w =>
    have h : (encode (.unpack w)).H = header 0x7 0 0 0 0 := rfl
    rw [decode_unpack (reserved_of_header h) (op_of_header h)]
    rfl
  | bnrToField code x =>
    have h : (encode (.bnrToField code x)).H = header 0x8 0 code 0 0 := rfl
    rw [decode_bnrToField (reserved_of_header h) (op_of_header h), code_of_header h]
    rfl
  | bnrToPhys code data =>
    have h : (encode (.bnrToPhys code data)).H = header 0x9 0 code 0 0 := rfl
    rw [decode_bnrToPhys (reserved_of_header h) (op_of_header h), code_of_header h,
      dataOperand_of_setWidth rfl]
    rfl
  | bcdToField code c =>
    have h : (encode (.bcdToField code c)).H = header 0xA 0 code 0 0 := rfl
    rw [decode_bcdToField (reserved_of_header h) (op_of_header h), code_of_header h,
      calendarOperand_of_toSlot rfl]
    rfl
  | bcdToCal code data =>
    have h : (encode (.bcdToCal code data)).H = header 0xB 0 code 0 0 := rfl
    rw [decode_bcdToCal (reserved_of_header h) (op_of_header h), code_of_header h,
      dataOperand_of_setWidth rfl]
    rfl
  | ssmInterpret code ssm =>
    have h : (encode (.ssmInterpret code ssm)).H = header 0xC 0 code 0 (ssm.setWidth 8) := rfl
    rw [decode_ssmInterpret (reserved_of_header h) (op_of_header h), code_of_header h,
      ssmOperand_of_setWidth (ssm_of_header h)]
    rfl
  | encode code sdi v ssm =>
    have h := encodeValue_H code sdi ssm v
    rw [Sys2Proof.encode, decode_encode (reserved_of_header h) (op_of_header h), code_of_header h,
      sdi_of_header h, ssm_of_header h, valueOperand_encodeValue]
    rfl
  | decode w =>
    have h : (encode (.decode w)).H = header 0xE 0 0 0 0 := rfl
    rw [decode_decode (reserved_of_header h) (op_of_header h)]
    rfl
  | toPhysical code data =>
    have h : (encode (.toPhysical code data)).H = header 0xF 0 code 0 0 := rfl
    rw [decode_toPhysical (reserved_of_header h) (op_of_header h), code_of_header h,
      dataOperand_of_setWidth rfl]
    rfl

end Sys2Proof.Proofs

/-! PROOFS. What the decoder refuses and why, and the step that serves a request (R70, R78, R90). -/

namespace Sys2Proof.Proofs

open Sys2Proof.Machine

/-! ### What the operands of a frame can be -/

section operands

variable {α β : Type} {why why' : Reserved}

/-- An operand that is read after one check is refused when the check fails, for that one reason. -/
theorem check_eq_error {c : Prop} [Decidable c] {a : α} :
    (if c then Except.ok a else .error why : Except Reserved α) = .error why' ↔ ¬c ∧ why' = why := by
  split <;> simp [*, eq_comm]

/-- An operand that is read after one check is read exactly when the check holds. -/
theorem check_eq_ok {c : Prop} [Decidable c] {a b : α} :
    (if c then Except.ok a else .error why : Except Reserved α) = .ok b ↔ c ∧ a = b := by
  split <;> simp [*]

/-- `map_eq_ok` of the operations, for the decoder's refusals. -/
theorem operand_map_eq_ok {x : Except Reserved α} {g : α → β} {b : β} :
    x.map g = .ok b ↔ ∃ a, x = .ok a ∧ g a = b := by
  cases x <;> simp [Except.map]

/-- `map_eq_error` of the operations, for the decoder's refusals. -/
theorem operand_map_eq_error {x : Except Reserved α} {g : α → β} :
    x.map g = .error why ↔ x = .error why := by
  cases x <;> simp [Except.map]

variable {f : Frame}

theorem dataOperand_eq_error :
    f.dataOperand = .error why ↔ ¬f.A.extractLsb' 19 13 = 0 ∧ why = .dataBits := check_eq_error

theorem calendarOperand_eq_error :
    f.calendarOperand = .error why ↔ ¬f.C.extractLsb' 1 7 = 0 ∧ why = .calendarBits := check_eq_error

theorem ssmOperand_eq_error :
    f.ssmOperand = .error why ↔ ¬f.ssm.extractLsb' 2 6 = 0 ∧ why = .ssmBits := check_eq_error

theorem stringOperand_eq_error :
    f.stringOperand = .error why ↔ ¬stringFits f.S = true ∧ why = .oversizeString := check_eq_error

/-- A value whose bits from `k` up are 0 is its low `k` bits, widened again. -/
theorem setWidth_low_of_high_eq_zero {w k m : Nat} {x : BitVec w} (h : x.extractLsb' k m = 0)
    (hw : w ≤ k + m) : x = (x.extractLsb' 0 k).setWidth w := by
  refine BitVec.eq_of_getLsbD_eq fun i hi => ?_
  rw [BitVec.getLsbD_setWidth, BitVec.getLsbD_extractLsb', Nat.zero_add]
  by_cases hik : i < k
  · simp [hi, hik]
  · have hbit := congrArg (fun v => v.getLsbD (i - k)) h
    rw [BitVec.getLsbD_extractLsb', Nat.add_sub_of_le (by omega)] at hbit
    simpa [hik, show i - k < m by omega] using hbit

/-- A data operand that is read is what the encoder would write back. -/
theorem dataOperand_eq_ok {d : DataField} (h : f.dataOperand = .ok d) : f.A = d.setWidth 32 := by
  obtain ⟨hz, rfl⟩ := check_eq_ok.1 h
  exact setWidth_low_of_high_eq_zero hz (by decide)

theorem ssmOperand_eq_ok {m : BitVec 2} (h : f.ssmOperand = .ok m) : f.ssm = m.setWidth 8 := by
  obtain ⟨hz, rfl⟩ := check_eq_ok.1 h
  exact setWidth_low_of_high_eq_zero hz (by decide)

theorem stringOperand_eq_ok {str : Bytes} (h : f.stringOperand = .ok str) :
    stringFits str = true ∧ f.S = str := by
  obtain ⟨hfits, rfl⟩ := check_eq_ok.1 h
  exact ⟨hfits, rfl⟩

theorem calTag_bit_ofBit (b : Bool) : (CalTag.ofBit b).bit = b := by cases b <;> rfl

theorem calendarOperand_eq_ok {c : Calendar} (h : f.calendarOperand = .ok c) : f.C = c.toSlot := by
  obtain ⟨hz, rfl⟩ := check_eq_ok.1 h
  refine BitVec.eq_of_getLsbD_eq fun i hi => ?_
  rw [getLsbD_toSlot]
  simp only [calTag_bit_ofBit, BitVec.getLsbD_extractLsb']
  split_ifs
  · rw [show i = 0 by omega]
  · have hbit := congrArg (fun v => v.getLsbD (i - 1)) hz
    simpa [show i - 1 < 7 by omega, show 1 + (i - 1) = i by omega] using hbit
  · simp [show i - 8 < 8 by omega, show 8 + (i - 8) = i by omega]
  · simp [show i - 16 < 8 by omega, show 16 + (i - 16) = i by omega]
  · simp [show i - 24 < 8 by omega, show 24 + (i - 24) = i by omega]

end operands

/-! ### Which frames are refused, and why (R90) -/

/-- The condition under which the decoder refuses a frame for a reason (`decode_eq_error`). -/
def RefusedFor (f : Frame) : Reserved → Prop
  | .headerBits => f.reserved ≠ 0
  | .valueTag => f.reserved = 0 ∧ f.op = 0xD ∧ f.vtag = 3
  | .calendarBits => f.reserved = 0 ∧ readsC f = true ∧ f.C.extractLsb' 1 7 ≠ 0
  | .dataBits => f.reserved = 0 ∧ formatOf f.op = .LD ∧ f.A.extractLsb' 19 13 ≠ 0
  | .ssmBits => f.reserved = 0 ∧ f.op = 0xC ∧ f.ssm.extractLsb' 2 6 ≠ 0
  | .oversizeString => f.reserved = 0 ∧ f.op = 0x5 ∧ ¬stringFits f.S = true

theorem formatOf_eq_LD {op : BitVec 4} : formatOf op = .LD ↔ op = 0x9 ∨ op = 0xB ∨ op = 0xF := by
  revert op; decide

theorem readsC_eq_true {f : Frame} : readsC f = true ↔ f.op = 0xA ∨ f.op = 0xD ∧ f.vtag = 1 := by
  have hBC : ∀ op, formatOf op = .BC ↔ op = 0xA := by decide
  have hE : ∀ op, formatOf op = .E ↔ op = 0xD := by decide
  simp [readsC, hBC, hE]

/-- What the decoder refuses meets the condition of the reason it names. -/
theorem refusedFor_of_decode_eq_error {f : Frame} {why : Reserved} (h : decode f = .error why) :
    RefusedFor f why := by
  by_cases hr : f.reserved = 0
  case neg =>
    obtain rfl := Except.error.inj (h.symm.trans (if_neg hr))
    exact hr
  case pos =>
    cases hop : f.op using opcode_cases with
    | lookup => rw [decode_lookup hr hop] at h; cases h
    | labelRaw => rw [decode_labelRaw hr hop] at h; cases h
    | labelName => rw [decode_labelName hr hop] at h; cases h
    | labelUnits => rw [decode_labelUnits hr hop] at h; cases h
    | labelOctal => rw [decode_labelOctal hr hop] at h; cases h
    | pack => rw [decode_pack hr hop] at h; cases h
    | unpack => rw [decode_unpack hr hop] at h; cases h
    | bnrToField => rw [decode_bnrToField hr hop] at h; cases h
    | decode => rw [decode_decode hr hop] at h; cases h
    | octalParse =>
      rw [decode_octalParse hr hop, operand_map_eq_error, stringOperand_eq_error] at h
      obtain ⟨hS, rfl⟩ := h
      exact ⟨hr, hop, hS⟩
    | bnrToPhys =>
      rw [decode_bnrToPhys hr hop, operand_map_eq_error, dataOperand_eq_error] at h
      obtain ⟨hA, rfl⟩ := h
      exact ⟨hr, formatOf_eq_LD.2 (by simp [hop]), hA⟩
    | bcdToCal =>
      rw [decode_bcdToCal hr hop, operand_map_eq_error, dataOperand_eq_error] at h
      obtain ⟨hA, rfl⟩ := h
      exact ⟨hr, formatOf_eq_LD.2 (by simp [hop]), hA⟩
    | toPhysical =>
      rw [decode_toPhysical hr hop, operand_map_eq_error, dataOperand_eq_error] at h
      obtain ⟨hA, rfl⟩ := h
      exact ⟨hr, formatOf_eq_LD.2 (by simp [hop]), hA⟩
    | bcdToField =>
      rw [decode_bcdToField hr hop, operand_map_eq_error, calendarOperand_eq_error] at h
      obtain ⟨hC, rfl⟩ := h
      exact ⟨hr, readsC_eq_true.2 (.inl hop), hC⟩
    | ssmInterpret =>
      rw [decode_ssmInterpret hr hop, operand_map_eq_error, ssmOperand_eq_error] at h
      obtain ⟨hssm, rfl⟩ := h
      exact ⟨hr, hop, hssm⟩
    | encode =>
      rw [decode_encode hr hop, operand_map_eq_error] at h
      cases hv : f.vtag using vtag_cases with
      | physical => rw [valueOperand_physical hv] at h; cases h
      | calendar =>
        rw [valueOperand_calendar hv, operand_map_eq_error, calendarOperand_eq_error] at h
        obtain ⟨hC, rfl⟩ := h
        exact ⟨hr, readsC_eq_true.2 (.inr ⟨hop, hv⟩), hC⟩
      | raw => rw [valueOperand_raw hv] at h; cases h
      | reserved =>
        obtain rfl := Except.error.inj ((valueOperand_reserved hv).symm.trans h)
        exact ⟨hr, hop, hv⟩

/-- Each condition makes the decoder refuse, for that reason. -/
theorem decode_eq_error_of_refusedFor {f : Frame} {why : Reserved} (h : RefusedFor f why) :
    decode f = .error why := by
  cases why with
  | headerBits => exact if_neg h
  | valueTag =>
    obtain ⟨hr, hop, hv⟩ := h
    rw [decode_encode hr hop, valueOperand_reserved hv]
    rfl
  | calendarBits =>
    obtain ⟨hr, hread, hC⟩ := h
    have hcal := calendarOperand_eq_error.2 ⟨hC, rfl⟩
    rcases readsC_eq_true.1 hread with hop | ⟨hop, hv⟩
    · rw [decode_bcdToField hr hop, hcal]
      rfl
    · rw [decode_encode hr hop, valueOperand_calendar hv, hcal]
      rfl
  | dataBits =>
    obtain ⟨hr, hfmt, hA⟩ := h
    have hdata := dataOperand_eq_error.2 ⟨hA, rfl⟩
    rcases formatOf_eq_LD.1 hfmt with hop | hop | hop
    · rw [decode_bnrToPhys hr hop, hdata]
      rfl
    · rw [decode_bcdToCal hr hop, hdata]
      rfl
    · rw [decode_toPhysical hr hop, hdata]
      rfl
  | ssmBits =>
    obtain ⟨hr, hop, hssm⟩ := h
    rw [decode_ssmInterpret hr hop, ssmOperand_eq_error.2 ⟨hssm, rfl⟩]
    rfl
  | oversizeString =>
    obtain ⟨hr, hop, hS⟩ := h
    rw [decode_octalParse hr hop, stringOperand_eq_error.2 ⟨hS, rfl⟩]
    rfl

/-- The frames the decoder refuses are those of the conditions, each for its reason. -/
theorem decode_eq_error {f : Frame} {why : Reserved} :
    decode f = .error why ↔ RefusedFor f why :=
  ⟨refusedFor_of_decode_eq_error, decode_eq_error_of_refusedFor⟩

/-- For a string the port can hold, the reasons of the decoder are the conditions of R90. -/
theorem reservedRequest_iff {f : Frame} (hS : f.S.length ≤ 255) :
    ReservedRequest f ↔ ∃ why, RefusedFor f why := by
  constructor
  · intro h
    by_cases hr : f.reserved = 0
    case neg => exact ⟨.headerBits, hr⟩
    case pos =>
      rcases h with h | ⟨hop, hv⟩ | ⟨hread, hC⟩ | ⟨hfmt, hA⟩ | ⟨hop, hssm⟩
      · exact absurd hr h
      · exact ⟨.valueTag, hr, hop, hv⟩
      · exact ⟨.calendarBits, hr, hread, hC⟩
      · exact ⟨.dataBits, hr, hfmt, hA⟩
      · exact ⟨.ssmBits, hr, hop, hssm⟩
  · rintro ⟨why, h⟩
    cases why with
    | headerBits => exact .inl h
    | valueTag => exact .inr (.inl h.2)
    | calendarBits => exact .inr (.inr (.inl h.2))
    | dataBits => exact .inr (.inr (.inr (.inl h.2)))
    | ssmBits => exact .inr (.inr (.inr (.inr h.2)))
    | oversizeString =>
      obtain ⟨-, -, hlong⟩ := h
      exact absurd (decide_eq_true (by omega)) hlong

/-! ### The step on a request -/

/-- A step with a request on the port is the serving of that request. -/
theorem step_eq_serve {s : State} {f : Frame} (hreq : s.request = some f) : step s = serve s f := by
  rw [serve, State.present, ← hreq]

/-- Settles O6: the request is served, and a request that decodes is served by its operation. -/
theorem stepRunsTheDecodedInstruction : Obligations.StepRunsTheDecodedInstruction := by
  unfold Obligations.StepRunsTheDecodedInstruction
  intro s f i hw hreq hdec
  rw [step_eq_serve hreq, serve_of_decode_ok hw hdec, exec_eq_answered]

/-- Settles O9: every arm of `exec` ends in `respond`, which answers. -/
theorem everyOperationIsAnswered : Obligations.EveryOperationIsAnswered := by
  unfold Obligations.EveryOperationIsAnswered
  exact fun i s => ⟨_, exec_eq_answered i s⟩

/-- Settles O53: past the check of the ROM, the step idles. -/
theorem stepWithoutARequestAnswersNothing : Obligations.StepWithoutARequestAnswersNothing := by
  unfold Obligations.StepWithoutARequestAnswersNothing
  intro s hw hreq
  have hidle : step s = .next s.idle := by simp [step, hw, hreq]
  exact hidle

/-- Settles O7: the step refuses what the decoder refuses, for R90's reasons, and answers with the operation
of whatever decodes. -/
theorem stepRefusesExactlyTheReservedRequests :
    Obligations.StepRefusesExactlyTheReservedRequests := by
  unfold Obligations.StepRefusesExactlyTheReservedRequests
  intro s f hw hreq hS
  rw [reservedRequest_iff hS, step_eq_serve hreq]
  constructor
  · rintro ⟨why, h⟩
    exact ⟨why, serve_of_decode_error hw (decode_eq_error.2 h)⟩
  · intro h
    cases hdec : decode f with
    | error why => exact absurd ⟨why, decode_eq_error.1 hdec⟩ h
    | ok i => exact ⟨_, serve_of_decode_ok hw hdec⟩

end Sys2Proof.Proofs

/-! PROOFS. The frame of the fields a format reads: what the encoder writes for a decoded frame, and what
decides the decoding (R72, R78, R88). -/

namespace Sys2Proof.Proofs

open Sys2Proof.Machine

/-! ### The read fields, format by format (R78) -/

section readFields

variable {f : Frame} {op : BitVec 4}

/-- A header field whose bits are all in its format's mask is read. -/
theorem extract_readFields {k n : Nat}
    (hm : (headerMask (formatOf f.op)).extractLsb' k n = BitVec.allOnes n) :
    (readFields f).H.extractLsb' k n = f.H.extractLsb' k n := by
  rw [readFields, BitVec.extractLsb'_and, hm, BitVec.and_allOnes]

/-- Every format reads the operation code. -/
@[simp] theorem readFields_op (f : Frame) : (readFields f).op = f.op :=
  extract_readFields (by cases formatOf f.op <;> rfl)

/-- Every format reads the reserved header bits. -/
@[simp] theorem readFields_reserved (f : Frame) : (readFields f).reserved = f.reserved :=
  extract_readFields (by cases formatOf f.op <;> rfl)

theorem readFields_slotA (h : readsA f = true) : (readFields f).A = f.A := if_pos h

theorem readFields_slotC (h : readsC f = true) : (readFields f).C = f.C := if_pos h

theorem readFields_slotS (h : readsS f = true) : (readFields f).S = f.S := if_pos h

variable (hr : f.reserved = 0) (hop : f.op = op)
include hr hop

/-- Masking a header masks its fields one by one. -/
theorem and_headerMask {vtag vm : BitVec 2} {code cm sdi sm ssm mm : Byte} {mask : Word}
    (hv : f.vtag &&& vm = vtag) (hc : f.code &&& cm = code) (hs : f.sdi &&& sm = sdi)
    (hm : f.ssm &&& mm = ssm) (hmask : mask = mm ++ sm ++ cm ++ 3#2 ++ vm ++ BitVec.allOnes 4) :
    f.H &&& mask = header op vtag code sdi ssm := by
  rw [header_of_fields hr, hmask, hop, header, header, BitVec.and_append, BitVec.and_append,
    BitVec.and_append, BitVec.and_append, BitVec.and_append, hv, hc, hs, hm, BitVec.zero_and,
    BitVec.and_allOnes]

theorem and_mask_opOnly : f.H &&& 0x000000CF = header op 0 0 0 0 :=
  and_headerMask hr hop BitVec.and_zero BitVec.and_zero BitVec.and_zero BitVec.and_zero rfl

theorem and_mask_code : f.H &&& 0x0000FFCF = header op 0 f.code 0 0 :=
  and_headerMask hr hop BitVec.and_zero BitVec.and_allOnes BitVec.and_zero BitVec.and_zero rfl

theorem and_mask_codeSsm : f.H &&& 0xFF00FFCF = header op 0 f.code 0 f.ssm :=
  and_headerMask hr hop BitVec.and_zero BitVec.and_allOnes BitVec.and_zero BitVec.and_allOnes rfl

theorem and_mask_codeSdiSsm : f.H &&& 0xFFFFFFCF = header op 0 f.code f.sdi f.ssm :=
  and_headerMask hr hop BitVec.and_zero BitVec.and_allOnes BitVec.and_allOnes BitVec.and_allOnes rfl

theorem and_mask_all : f.H &&& 0xFFFFFFFF = header op f.vtag f.code f.sdi f.ssm :=
  and_headerMask hr hop BitVec.and_allOnes BitVec.and_allOnes BitVec.and_allOnes BitVec.and_allOnes rfl

theorem readFields_L (hF : formatOf op = .L) :
    readFields f = .ofHeader (header op 0 f.code 0 0) := by
  simp only [readFields, readsA, readsB, readsC, readsS, hop, hF, headerMask, and_mask_code hr hop]
  rfl

theorem readFields_S (hF : formatOf op = .S) :
    readFields f = { Frame.ofHeader (header op 0 0 0 0) with S := f.S } := by
  simp only [readFields, readsA, readsB, readsC, readsS, hop, hF, headerMask, and_mask_opOnly hr hop]
  rfl

theorem readFields_P (hF : formatOf op = .P) :
    readFields f = { Frame.ofHeader (header op 0 f.code f.sdi f.ssm) with A := f.A } := by
  simp only [readFields, readsA, readsB, readsC, readsS, hop, hF, headerMask,
    and_mask_codeSdiSsm hr hop]
  rfl

theorem readFields_W (hF : formatOf op = .W) :
    readFields f = { Frame.ofHeader (header op 0 0 0 0) with A := f.A } := by
  simp only [readFields, readsA, readsB, readsC, readsS, hop, hF, headerMask, and_mask_opOnly hr hop]
  rfl

theorem readFields_BP (hF : formatOf op = .BP) :
    readFields f = { Frame.ofHeader (header op 0 f.code 0 0) with B := f.B } := by
  simp only [readFields, readsA, readsB, readsC, readsS, hop, hF, headerMask, and_mask_code hr hop]
  rfl

theorem readFields_LD (hF : formatOf op = .LD) :
    readFields f = { Frame.ofHeader (header op 0 f.code 0 0) with A := f.A } := by
  simp only [readFields, readsA, readsB, readsC, readsS, hop, hF, headerMask, and_mask_code hr hop]
  rfl

theorem readFields_BC (hF : formatOf op = .BC) :
    readFields f = { Frame.ofHeader (header op 0 f.code 0 0) with C := f.C } := by
  simp only [readFields, readsA, readsB, readsC, readsS, hop, hF, headerMask, and_mask_code hr hop]
  rfl

theorem readFields_SS (hF : formatOf op = .SS) :
    readFields f = .ofHeader (header op 0 f.code 0 f.ssm) := by
  simp only [readFields, readsA, readsB, readsC, readsS, hop, hF, headerMask, and_mask_codeSsm hr hop]
  rfl

omit hop in
/-- What format E reads is the frame of the value its tag selects (R80). -/
theorem readFields_E (hop : f.op = 0xD) {v : Value} (hval : f.valueOperand = .ok v) :
    readFields f = encodeValue f.code f.sdi f.ssm v := by
  have hF : formatOf 0xD = .E := rfl
  have hH := and_mask_all hr hop
  cases hv : f.vtag using vtag_cases with
  | physical =>
    obtain rfl := Except.ok.inj ((valueOperand_physical hv).symm.trans hval)
    simp only [readFields, readsA, readsB, readsC, readsS, hop, hF, headerMask, hH, hv]
    rfl
  | calendar =>
    rw [valueOperand_calendar hv] at hval
    obtain ⟨c, hc, rfl⟩ := operand_map_eq_ok.1 hval
    simp only [readFields, readsA, readsB, readsC, readsS, hop, hF, headerMask, hH, hv,
      calendarOperand_eq_ok hc]
    rfl
  | raw =>
    obtain rfl := Except.ok.inj ((valueOperand_raw hv).symm.trans hval)
    simp only [readFields, readsA, readsB, readsC, readsS, hop, hF, headerMask, hH, hv]
    rfl
  | reserved => cases (valueOperand_reserved hv).symm.trans hval

end readFields

/-- Settles O14, operation by operation: the decoder's equation names the instruction, and the format's
equation says what is left of the frame. -/
theorem encodeOfDecodeIsTheReadFields : Obligations.EncodeOfDecodeIsTheReadFields := by
  unfold Obligations.EncodeOfDecodeIsTheReadFields
  intro f i h
  by_cases hr : f.reserved = 0
  case neg => cases (show decode f = .error .headerBits from if_neg hr).symm.trans h
  case pos =>
    cases hop : f.op using opcode_cases with
    | lookup =>
      obtain rfl := Except.ok.inj ((decode_lookup hr hop).symm.trans h)
      exact ⟨(readFields_L hr hop rfl).symm, rfl⟩
    | labelRaw =>
      obtain rfl := Except.ok.inj ((decode_labelRaw hr hop).symm.trans h)
      exact ⟨(readFields_L hr hop rfl).symm, rfl⟩
    | labelName =>
      obtain rfl := Except.ok.inj ((decode_labelName hr hop).symm.trans h)
      exact ⟨(readFields_L hr hop rfl).symm, rfl⟩
    | labelUnits =>
      obtain rfl := Except.ok.inj ((decode_labelUnits hr hop).symm.trans h)
      exact ⟨(readFields_L hr hop rfl).symm, rfl⟩
    | labelOctal =>
      obtain rfl := Except.ok.inj ((decode_labelOctal hr hop).symm.trans h)
      exact ⟨(readFields_L hr hop rfl).symm, rfl⟩
    | octalParse =>
      rw [decode_octalParse hr hop] at h
      obtain ⟨str, hstr, rfl⟩ := operand_map_eq_ok.1 h
      obtain ⟨hfits, rfl⟩ := stringOperand_eq_ok hstr
      exact ⟨(readFields_S hr hop rfl).symm, hfits⟩
    | pack =>
      obtain rfl := Except.ok.inj ((decode_pack hr hop).symm.trans h)
      exact ⟨(readFields_P hr hop rfl).symm, rfl⟩
    | unpack =>
      obtain rfl := Except.ok.inj ((decode_unpack hr hop).symm.trans h)
      exact ⟨(readFields_W hr hop rfl).symm, rfl⟩
    | bnrToField =>
      obtain rfl := Except.ok.inj ((decode_bnrToField hr hop).symm.trans h)
      exact ⟨(readFields_BP hr hop rfl).symm, rfl⟩
    | bnrToPhys =>
      rw [decode_bnrToPhys hr hop] at h
      obtain ⟨d, hd, rfl⟩ := operand_map_eq_ok.1 h
      rw [readFields_LD hr hop rfl, dataOperand_eq_ok hd]
      exact ⟨rfl, rfl⟩
    | bcdToField =>
      rw [decode_bcdToField hr hop] at h
      obtain ⟨c, hc, rfl⟩ := operand_map_eq_ok.1 h
      rw [readFields_BC hr hop rfl, calendarOperand_eq_ok hc]
      exact ⟨rfl, rfl⟩
    | bcdToCal =>
      rw [decode_bcdToCal hr hop] at h
      obtain ⟨d, hd, rfl⟩ := operand_map_eq_ok.1 h
      rw [readFields_LD hr hop rfl, dataOperand_eq_ok hd]
      exact ⟨rfl, rfl⟩
    | ssmInterpret =>
      rw [decode_ssmInterpret hr hop] at h
      obtain ⟨m, hm, rfl⟩ := operand_map_eq_ok.1 h
      rw [readFields_SS hr hop rfl, ssmOperand_eq_ok hm]
      exact ⟨rfl, rfl⟩
    | encode =>
      rw [decode_encode hr hop] at h
      obtain ⟨v, hv, rfl⟩ := operand_map_eq_ok.1 h
      exact ⟨(readFields_E hr hop hv).symm, rfl⟩
    | decode =>
      obtain rfl := Except.ok.inj ((decode_decode hr hop).symm.trans h)
      exact ⟨(readFields_W hr hop rfl).symm, rfl⟩
    | toPhysical =>
      rw [decode_toPhysical hr hop] at h
      obtain ⟨d, hd, rfl⟩ := operand_map_eq_ok.1 h
      rw [readFields_LD hr hop rfl, dataOperand_eq_ok hd]
      exact ⟨rfl, rfl⟩

/-! ### The decoder sees the read fields only (R88) -/

/-- A frame and its read fields are refused for the same reason. -/
theorem refusedFor_readFields {f : Frame} {why : Reserved} (h : RefusedFor f why) :
    RefusedFor (readFields f) why := by
  have hvtag : f.op = 0xD → (readFields f).vtag = f.vtag := fun hop =>
    extract_readFields (by rw [hop]; rfl)
  cases why with
  | headerBits => rwa [RefusedFor, readFields_reserved]
  | valueTag =>
    have ⟨_, hop, _⟩ := h
    rwa [RefusedFor, readFields_reserved, readFields_op, hvtag hop]
  | calendarBits =>
    obtain ⟨hr, hread, hC⟩ := h
    rw [RefusedFor, readFields_reserved, readFields_slotC hread, readsC_eq_true, readFields_op]
    exact ⟨hr, (readsC_eq_true.1 hread).imp_right fun ⟨hop, hv⟩ => ⟨hop, (hvtag hop).trans hv⟩, hC⟩
  | dataBits =>
    have ⟨_, hfmt, _⟩ := h
    rwa [RefusedFor, readFields_reserved, readFields_op, readFields_slotA (by rw [readsA, hfmt])]
  | ssmBits =>
    have ⟨_, hop, _⟩ := h
    have hssm : (readFields f).ssm = f.ssm := extract_readFields (by rw [hop]; rfl)
    rwa [RefusedFor, readFields_reserved, readFields_op, hssm]
  | oversizeString =>
    have ⟨_, hop, _⟩ := h
    rwa [RefusedFor, readFields_reserved, readFields_op, readFields_slotS (by rw [readsS, hop]; rfl)]

/-- Setting the unread fields to 0 does not change the decoding: what decodes is encoded and decoded again,
what is refused is refused for the same reason. -/
theorem decode_readFields (f : Frame) : decode (readFields f) = decode f := by
  cases h : decode f with
  | ok i =>
    obtain ⟨henc, hwf⟩ := encodeOfDecodeIsTheReadFields f i h
    rw [← henc, decodeOfEncodeIsTheInstruction i hwf]
  | error why => exact decode_eq_error.2 (refusedFor_readFields (decode_eq_error.1 h))

/-- What serving a request does depends on its decoding only. -/
theorem serve_congr {f g : Frame} (h : decode f = decode g) (s : State) : serve s f = serve s g := by
  by_cases hw : romWf s.rom = true
  case neg => rw [serve_of_illFormedRom hw, serve_of_illFormedRom hw]
  case pos =>
    cases hdec : decode g with
    | ok i => rw [serve_of_decode_ok hw hdec, serve_of_decode_ok hw (h.trans hdec)]
    | error why => rw [serve_of_decode_error hw hdec, serve_of_decode_error hw (h.trans hdec)]

/-- Settles O15: both frames decode as their common read fields do, and a step serves the decoding. -/
theorem unreadFieldsNeverMatter : Obligations.UnreadFieldsNeverMatter := by
  unfold Obligations.UnreadFieldsNeverMatter
  intro f g h
  have hdec : decode f = decode g := by rw [← decode_readFields f, h, decode_readFields g]
  exact ⟨hdec, serve_congr hdec⟩

end Sys2Proof.Proofs

/-! PROOFS. Codes as octal strings, served frames and the pseudo-operations (R94, R115 to R117). -/

namespace Sys2Proof.Proofs

open Sys2Proof.Machine

/-! ### Codes as octal strings -/

theorem octalDigit_toNat {d : Nat} (h : d < 8) : (octalDigit d).toNat = 0x30 + d := by
  rw [octalDigit, BitVec.toNat_ofNat]
  omega

theorem isOctalDigit_iff {b : Byte} : isOctalDigit b = true ↔ 0x30 ≤ b.toNat ∧ b.toNat ≤ 0x37 := by
  simp [isOctalDigit]

/-- The three digits `octal3` writes are those of the code in base 8 (R116). -/
theorem octal3_eq (c : Byte) : octal3 c =
    [octalDigit (c.toNat / 64), octalDigit (c.toNat / 8 % 8), octalDigit (c.toNat % 8)] := by
  have htop : c.toNat / 64 % 4 = c.toNat / 64 := by omega
  simp [octal3, BitVec.extractLsb'_toNat, Nat.shiftRight_eq_div_pow, htop]

/-- `parseOctal` reads three octal digits in 000 to 377, and nothing else (R115). -/
theorem parseOctal_eq_ok {str : Bytes} {v : Byte} : parseOctal str = .ok v ↔
    ∃ a b c : Byte, str = [a, b, c] ∧ (0x30 ≤ a.toNat ∧ a.toNat ≤ 0x33) ∧
      (0x30 ≤ b.toNat ∧ b.toNat ≤ 0x37) ∧ (0x30 ≤ c.toNat ∧ c.toNat ≤ 0x37) ∧
      v.toNat = 64 * (a.toNat - 0x30) + 8 * (b.toNat - 0x30) + (c.toNat - 0x30) := by
  constructor
  · intro h
    unfold parseOctal at h
    split at h
    case h_2 => cases h
    case h_1 a b c =>
      split at h
      case isFalse => cases h
      case isTrue hdigits =>
        simp only [Bool.and_eq_true, isOctalDigit_iff, decide_eq_true_eq] at hdigits
        obtain rfl := Except.ok.inj h
        refine ⟨a, b, c, rfl, by omega, by omega, by omega, ?_⟩
        rw [BitVec.toNat_ofNat, Nat.mod_eq_of_lt (by omega)]
  · rintro ⟨a, b, c, rfl, ha, hb, hc, hv⟩
    have hdigits : (isOctalDigit a && isOctalDigit b && isOctalDigit c && a.toNat ≤ 0x33 : Bool) = true := by
      simp only [Bool.and_eq_true, isOctalDigit_iff, decide_eq_true_eq]
      omega
    rw [parseOctal, if_pos hdigits, ← hv, BitVec.ofNat_toNat, BitVec.setWidth_eq]

/-- `parseOctal` raises UnknownLabel only (R115). -/
theorem parseOctal_eq_error {str : Bytes} {e : Failure} (h : parseOctal str = .error e) :
    e = .unknownLabel := by
  unfold parseOctal at h
  split at h
  · split at h
    · cases h
    · exact (Except.error.inj h).symm
  · exact (Except.error.inj h).symm

/-- The string of a code parses to the code (R117). -/
theorem parseOctal_octal3 (c : Byte) : parseOctal (octal3 c) = .ok c := by
  have h1 := octalDigit_toNat (d := c.toNat / 64) (by omega)
  have h2 := octalDigit_toNat (d := c.toNat / 8 % 8) (by omega)
  have h3 := octalDigit_toNat (d := c.toNat % 8) (by omega)
  exact parseOctal_eq_ok.2 ⟨_, _, _, octal3_eq c, by omega, by omega, by omega, by omega⟩

/-- A string that parses is the string of its code (R117). -/
theorem octal3_of_parseOctal {str : Bytes} {v : Byte} (h : parseOctal str = .ok v) :
    octal3 v = str := by
  obtain ⟨a, b, c, rfl, ha, hb, hc, hv⟩ := parseOctal_eq_ok.1 h
  have h1 : octalDigit (v.toNat / 64) = a := BitVec.eq_of_toNat_eq (by
    rw [octalDigit_toNat] <;> omega)
  have h2 : octalDigit (v.toNat / 8 % 8) = b := BitVec.eq_of_toNat_eq (by
    rw [octalDigit_toNat] <;> omega)
  have h3 : octalDigit (v.toNat % 8) = c := BitVec.eq_of_toNat_eq (by
    rw [octalDigit_toNat] <;> omega)
  rw [octal3_eq, h1, h2, h3]

/-! ### Serving the frames the host writes -/

/-- Serving the frame of a well-formed instruction executes it. -/
theorem serve_encode {s : State} (hw : romWf s.rom = true) {i : Instr} (hi : i.wellFormed = true) :
    serve s (encode i) = exec i s := by
  rw [serve_of_decode_ok hw (decodeOfEncodeIsTheInstruction i hi), exec_eq_answered]

/-- A response on the port does not change what serving the next request does (R21). -/
theorem serve_answered (s : State) (r : Response) (f : Frame) : serve (s.answered r) f = serve s f :=
  SameConfig.serve_eq ⟨rfl, rfl, rfl⟩ f

theorem serve_octalParse {s : State} (hw : romWf s.rom = true) {str : Bytes}
    (hs : stringFits str = true) :
    serve s (encode (.octalParse str)) = respond s ((parseOctal str).map .code) :=
  serve_encode hw (i := .octalParse str) hs

/-- After a string that parses, the host serves the second request with its code (R94). -/
theorem serveOctal_of_ok {s : State} (hw : romWf s.rom = true) {str : Bytes}
    (hs : stringFits str = true) {c : Byte} (h : parseOctal str = .ok c) (next : Byte → Frame) :
    serveOctal s str next = serve s (next c) := by
  rw [serveOctal, serve_octalParse hw hs, h]
  exact serve_answered s _ (next c)

/-- After a string that does not parse, the host stops with the failure on the port (R94). -/
theorem serveOctal_of_error {s : State} (hw : romWf s.rom = true) {str : Bytes}
    (hs : stringFits str = true) {e : Failure} (h : parseOctal str = .error e) (next : Byte → Frame) :
    serveOctal s str next = .next (s.answered (.failure e)) := by
  rw [serveOctal, serve_octalParse hw hs, h]
  rfl

/-- Filling in the code of a header whose code is 0 gives the header with that code (R72, R94). -/
theorem header_or_code (op : BitVec 4) (vtag : BitVec 2) (code sdi ssm : Byte) :
    header op vtag 0 sdi ssm ||| (code.setWidth 32 <<< 8) = header op vtag code sdi ssm := by
  refine BitVec.eq_of_getLsbD_eq fun i hi => ?_
  simp only [BitVec.getLsbD_or, getLsbD_header, BitVec.getLsbD_shiftLeft, BitVec.getLsbD_setWidth, hi]
  by_cases h8 : i < 8
  · simp [h8]
  · by_cases h16 : i < 16
    · simp [h8, h16, show ¬i < 4 by omega, show ¬i < 6 by omega, show i - 8 < 32 by omega]
    · simp [h8, h16, show ¬i < 4 by omega, show ¬i < 6 by omega,
        BitVec.getLsbD_of_ge code (i - 8) (by omega)]

theorem withCode_encodeValue (code sdi ssm : Byte) (v : Value) :
    Frame.withCode (encodeValue 0 sdi ssm v) code = encode (.encode code sdi v ssm) := by
  rw [Frame.withCode, encodeValue_H, header_or_code]
  cases v <;> rfl

/-- Settles O52: OCTAL_PARSE and DECODE are answered first; their response decides the second request, which
is served as if it were the first. -/
theorem pseudoOperationsExpand : Obligations.PseudoOperationsExpand := by
  unfold Obligations.PseudoOperationsExpand
  intro s hw
  have hdecode : ∀ w, serve s (encode (.decode w)) = exec (.decode w) s := fun w =>
    serve_encode hw rfl
  refine ⟨fun c => ?_, fun c sdi ssm v => ?_, fun str f hlen hbad => ?_, fun w d h => ?_,
    fun w e h => ?_⟩
  · rw [runLine, serveOctal_of_ok hw rfl (parseOctal_octal3 c), serve_encode hw rfl]
  · rw [runLine, serveOctal_of_ok hw rfl (parseOctal_octal3 c), withCode_encodeValue,
      serve_encode hw rfl]
  · have hs : stringFits str = true := decide_eq_true (by omega)
    have herr : parseOctal str = .error .unknownLabel := by
      cases hp : parseOctal str with
      | ok c => exact absurd (octal3_of_parseOctal hp) (hbad c)
      | error e => rw [parseOctal_eq_error hp]
    exact ⟨serveOctal_of_error hw hs herr _, serveOctal_of_error hw hs herr _⟩
  · rw [runLine, serveDecodePhys, hdecode, h]
    exact (serve_answered s _ _).trans (serve_encode hw rfl)
  · rw [runLine, serveDecodePhys, hdecode, h]
    rfl

/-! ### Frames and a line written out -/

/-- Settles O16: the decoder computes each of the nine. -/
theorem writtenOutFramesDecode : Obligations.WrittenOutFramesDecode := by
  unfold Obligations.WrittenOutFramesDecode
  decide

/-- ENCODE of 250.0 knots for the ground speed, in 2000 steps of 0.125, with SSM 3 (R95). -/
theorem encodeWord_groundSpeed :
    encodeWord State.reset.rom State.reset.tie 0o012 0 (.physical 0x406F400000000000) 3 =
      .ok 0xE01F4050 := by
  decide +kernel

/-- Settles O51: the assembler and ENCODE compute the frame and the word of the example. -/
theorem assembledExample : Obligations.AssembledExample := by
  unfold Obligations.AssembledExample
  refine ⟨by decide, ?_⟩
  rw [exec, execEncode, encodeWord_groundSpeed]
  rfl

end Sys2Proof.Proofs

/-! PROOFS. The responses as they stand on the port (R81 to R87). -/

namespace Sys2Proof.Proofs

open Sys2Proof.Machine

/-- `exec` answers a result exactly when its operation returns it. -/
theorem exec_eq_success {i : Instr} {s : State} {r : Result} :
    exec i s = .next (s.answered (.success r)) ↔ operation i s.rom s.tie s.ssmTable = .ok r := by
  rw [exec_eq_respond, respond_eq_success]

/-! ### Status codes (R82) -/

/-- The status of a failure is 1 to 6. -/
theorem statusCode_ne (e : Failure) : e.statusCode ≠ 0 ∧ e.statusCode ≠ 7 := by
  cases e <;> decide

/-- Settles O47: a success has status 0 and a record, a failure has its own number and none. -/
theorem statusCodesOnThePort : Obligations.StatusCodesOnThePort := by
  unfold Obligations.StatusCodesOnThePort
  refine ⟨fun r => ?_, rfl, rfl, rfl, rfl, rfl, rfl⟩
  cases r with
  | success r => simp [Response.toPort]
  | failure e =>
    obtain ⟨h0, h7⟩ := statusCode_ne e
    exact ⟨iff_of_false h0 (by simp [Response.toPort]), h7⟩

/-! ### Record shapes (R83) -/

/-- Settles O50, operation by operation: the result is the one constructor its operation maps into. -/
theorem everyOperationHasItsResultRecord : Obligations.EveryOperationHasItsResultRecord := by
  unfold Obligations.EveryOperationHasItsResultRecord
  intro i s r h
  have hop := exec_eq_success.1 h
  cases i with
  | lookup code =>
    obtain ⟨e, -, rfl⟩ := map_eq_ok.1 hop
    exact ⟨_, rfl⟩
  | labelRaw code =>
    obtain ⟨e, -, rfl⟩ := map_eq_ok.1 hop
    exact ⟨_, rfl⟩
  | labelName code =>
    obtain ⟨e, -, rfl⟩ := map_eq_ok.1 hop
    exact ⟨_, rfl⟩
  | labelUnits code =>
    obtain ⟨e, -, rfl⟩ := map_eq_ok.1 hop
    exact ⟨_, rfl⟩
  | labelOctal code =>
    obtain ⟨e, -, rfl⟩ := map_eq_ok.1 hop
    exact ⟨_, rfl, rfl, rfl⟩
  | octalParse str =>
    obtain ⟨c, -, rfl⟩ := map_eq_ok.1 hop
    exact ⟨_, rfl⟩
  | pack code sdi data ssm =>
    obtain ⟨w, -, rfl⟩ := map_eq_ok.1 hop
    exact ⟨_, rfl⟩
  | unpack w =>
    obtain ⟨f, -, rfl⟩ := map_eq_ok.1 hop
    exact ⟨_, _, _, _, rfl⟩
  | bnrToField code x =>
    obtain ⟨n, -, rfl⟩ := map_eq_ok.1 hop
    exact ⟨_, rfl⟩
  | bnrToPhys code data =>
    obtain ⟨x, -, rfl⟩ := map_eq_ok.1 hop
    exact ⟨_, rfl⟩
  | bcdToField code c =>
    obtain ⟨d, -, rfl⟩ := map_eq_ok.1 hop
    exact ⟨_, rfl⟩
  | bcdToCal code data =>
    obtain ⟨c, -, rfl⟩ := map_eq_ok.1 hop
    exact ⟨_, rfl⟩
  | ssmInterpret code ssm =>
    obtain ⟨e, -, rfl⟩ := map_eq_ok.1 hop
    exact ⟨_, rfl⟩
  | encode code sdi v ssm =>
    obtain ⟨w, -, rfl⟩ := map_eq_ok.1 hop
    exact ⟨_, rfl⟩
  | decode w =>
    obtain ⟨d, -, rfl⟩ := map_eq_ok.1 hop
    exact ⟨_, rfl⟩
  | toPhysical code data =>
    obtain ⟨p, -, rfl⟩ := map_eq_ok.1 hop
    exact ⟨_, _, rfl⟩

/-! ### The values of the records (R83 to R86) -/

theorem kindCode_eq (k : Kind) :
    (kindCode k = 0 ↔ k = .bnr) ∧ (kindCode k = 1 ↔ k = .bcd) ∧ (kindCode k = 2 ↔ k = .discrete) ∧
      kindCode k ≠ 3 := by
  cases k <;> decide

/-- The record's resolution is that of the entry's encoding, present exactly for BNR (R84). -/
theorem encodingResolution_eq_some {enc : Encoding} {res : F64} :
    encodingResolution enc = some res ↔ enc = .bnr res := by
  cases enc <;> simp [encodingResolution]

/-- The record's layout is that of the entry's encoding, present exactly for BCD (R84). -/
theorem encodingLayout_isSome {e : LabelEntry} :
    ((encodingLayout e.encoding).map layoutRecord).isSome ↔ e.kind = .bcd := by
  rw [kind_bcd_iff]
  cases e.encoding <;> simp [encodingLayout]

theorem bit_eq_true {t : CalTag} : t.bit = true ↔ t = .time := by
  cases t <;> decide

/-- The fields of slot C read back, its reserved bits 0 (R75, R86). -/
theorem toSlot_fields (c : Calendar) :
    (c.toSlot.getLsbD 0 = true ↔ c.tag = .time) ∧ c.toSlot.extractLsb' 1 7 = 0 ∧
      c.toSlot.extractLsb' 8 8 = c.f1 ∧ c.toSlot.extractLsb' 16 8 = c.f2 ∧
      c.toSlot.extractLsb' 24 8 = c.f3 := by
  obtain ⟨hz, hc⟩ := check_eq_ok.1
    (calendarOperand_of_toSlot (f := { Frame.ofHeader 0 with C := c.toSlot }) rfl)
  refine ⟨?_, hz, congrArg Calendar.f1 hc, congrArg Calendar.f2 hc, congrArg Calendar.f3 hc⟩
  rw [getLsbD_toSlot, if_pos (by decide), bit_eq_true]

/-- Settles O48: a BNR integer fits the word, an entry fits its record because its ROM is well-formed, and a
calendar value reads back from slot C. -/
theorem resultRecordsOnThePort : Obligations.ResultRecordsOnThePort := by
  unfold Obligations.ResultRecordsOnThePort
  refine ⟨fun s code x n hw h => ?_, fun rom c e hw hread => ?_, ⟨rfl, rfl, rfl, rfl, rfl, rfl⟩,
    fun c => ⟨rfl, toSlot_fields c⟩⟩
  · obtain ⟨m, hm, ⟨⟩⟩ := map_eq_ok.1 (exec_eq_success.1 h)
    obtain ⟨hlo, hhi⟩ := bnrToField_bounds hw hm
    exact ⟨rfl, signedWord_toInt (by omega) (by omega)⟩
  · obtain ⟨-, hwidth⟩ := width_of_read hw hread
    obtain ⟨hname, hunits⟩ := asciiString_of_read hw hread
    obtain ⟨hbnr, hbcd, hdiscrete, hne⟩ := kindCode_eq e.kind
    refine ⟨entryRecord e, rfl, code_of_read hw hread, ?_, stringRecord_len hname, rfl,
      stringRecord_len hunits, rfl, hbnr, hbcd, hdiscrete, hne,
      fun res => encodingResolution_eq_some, encodingLayout_isSome, fun L hL => ?_⟩
    · rw [entryRecord, BitVec.toNat_ofNat]
      omega
    · exact ⟨layoutRecord L, by rw [entryRecord, hL]; rfl, bit_eq_true, rfl⟩

/-! ### The records of UNPACK, TO_PHYSICAL and DECODE (R83, R87, R221) -/

/-- A code whose bits are those of a word's low byte in reverse order is the code UNPACK reads (R61). -/
theorem eq_reverse8_low {w : Word} {code : Byte} (h : ∀ i < 8, code.getLsbD i = w.getLsbD (7 - i)) :
    code = reverse8 (w.extractLsb' 0 8) := by
  refine eq_reverse8 fun i hi => ?_
  rw [h i hi, BitVec.getLsbD_extractLsb', Nat.zero_add]
  simp [show 7 - i < 8 by omega]

/-- What UNPACK returns (R133). -/
theorem unpackWord_eq_ok {w : Word} {f : WireFields} (h : unpackWord w = .ok f) :
    f = { code := reverse8 (w.extractLsb' 0 8), sdi := w.extractLsb' 8 2,
          data := w.extractLsb' 10 19, ssm := w.extractLsb' 29 2 } := by
  rcases unpackWord_cases w with ⟨-, hraise⟩ | ⟨-, hok⟩
  · cases hraise.symm.trans h
  · exact Except.ok.inj (h.symm.trans hok)

/-- An operation that begins with `resolve` goes on with the entry of a present code. -/
theorem bind_resolve {rom : Rom} {code : Byte} {e : LabelEntry} (h : romRead rom code = some e)
    {α : Type} {g : LabelEntry → Except Failure α} : resolve rom code >>= g = g e := by
  rw [resolve_of_some h]
  rfl

/-- TO_PHYSICAL returns what BNR_TO_PHYS returns, with the units of the entry (R222). -/
theorem toPhysical_eq_ok {rom : Rom} {code : Byte} {data : DataField} {e : LabelEntry}
    (hread : romRead rom code = some e) {p : F64 × Bytes} (h : toPhysical rom code data = .ok p) :
    bnrToPhys rom code data = .ok p.1 ∧ p.2 = e.units := by
  rw [toPhysical, bind_resolve hread] at h
  rw [bnrToPhys, bind_resolve hread]
  obtain ⟨res, hres, ⟨⟩⟩ := bind_eq_ok.1 h
  exact ⟨bind_eq_ok.2 ⟨res, hres, rfl⟩, rfl⟩

/-- What DECODE returns for a word whose code is present (R220, R221). -/
theorem decodeWord_eq_ok {rom : Rom} {T : SsmTable} {w : Word} {d : DecodedWord} {e : LabelEntry}
    (hread : romRead rom (reverse8 (w.extractLsb' 0 8)) = some e) (h : decodeWord rom T w = .ok d) :
    ∃ cal, decodedCalendar e.encoding (w.extractLsb' 10 19) = .ok cal ∧
      d = { label := e, sdi := w.extractLsb' 8 2, data := w.extractLsb' 10 19,
            ssm := w.extractLsb' 29 2, status := ssmStatus T e.kind (w.extractLsb' 29 2),
            cal := cal } := by
  obtain ⟨f, hf, h⟩ := bind_eq_ok.1 h
  obtain rfl := unpackWord_eq_ok hf
  rw [bind_resolve hread] at h
  obtain ⟨cal, hcal, h⟩ := bind_eq_ok.1 h
  exact ⟨cal, hcal, (Except.ok.inj h).symm⟩

/-- The calendar BCD_TO_CAL returns is the one DECODE puts into its record (R220). -/
theorem decodedCalendar_of_bcdToCal {rom : Rom} {code : Byte} {data : DataField} {e : LabelEntry}
    {c : Calendar} (hread : romRead rom code = some e) (h : bcdToCal rom code data = .ok c) :
    decodedCalendar e.encoding data = .ok (some c) := by
  rw [bcdToCal, bind_resolve hread] at h
  obtain ⟨L, hL, hc⟩ := bind_eq_ok.1 h
  rw [bcdLayout_eq_ok.1 hL, decodedCalendar, hc]
  rfl

/-- Settles O49: each record is that of the one result its operation returns. -/
theorem fieldsAndPhysicalAndDecodedRecordsOnThePort :
    Obligations.FieldsAndPhysicalAndDecodedRecordsOnThePort := by
  unfold Obligations.FieldsAndPhysicalAndDecodedRecordsOnThePort
  refine ⟨fun s w code r hcode h => ?_, fun s code data e r hw hread h => ?_,
    fun s w code e r hw hcode hread h => ?_⟩
  · obtain ⟨f, hf, rfl⟩ := map_eq_ok.1 (exec_eq_success.1 h)
    rw [eq_reverse8_low hcode, unpackWord_eq_ok hf]
    rfl
  · obtain ⟨p, hp, rfl⟩ := map_eq_ok.1 (exec_eq_success.1 h)
    obtain ⟨hphys, hunits⟩ := toPhysical_eq_ok hread hp
    obtain ⟨-, hascii⟩ := asciiString_of_read hw hread
    refine ⟨p.1, stringRecord p.2, rfl, exec_eq_success.2 (map_eq_ok.2 ⟨p.1, hphys, rfl⟩), ?_, hunits⟩
    rw [hunits, stringRecord_len hascii]
  · obtain ⟨d, hd, rfl⟩ := map_eq_ok.1 (exec_eq_success.1 h)
    obtain ⟨cal, hcal, rfl⟩ := decodeWord_eq_ok (eq_reverse8_low hcode ▸ hread) hd
    obtain ⟨hpresent, -⟩ := decodedCalendar_legal hw hread hcal
    refine ⟨_, _, rfl, rfl, rfl, rfl, rfl, rfl, rfl, ?_, fun c hc => ?_⟩
    · simp [decodedRecord, hpresent]
    · obtain ⟨c', hc', ⟨⟩⟩ := map_eq_ok.1 (exec_eq_success.1 hc)
      obtain rfl := Except.ok.inj (hcal.symm.trans (decodedCalendar_of_bcdToCal hread hc'))
      rfl

end Sys2Proof.Proofs

/-! PROOFS. The Label ROM: what its check accepts (R102, R170, R171), what it holds after reset (R104), and the
label operations (R110 to R117). -/

namespace Sys2Proof.Proofs

open Sys2Proof.Machine

/-! ### The check of a ROM, item by item (R102) -/

/-- A ROM in list form is well-formed exactly when every entry it reads as is. -/
theorem romWf_iff_read {rom : Rom} (hc : rom.Pairwise fun p q => p.1.toNat < q.1.toNat) :
    romWf rom = true ↔ ∀ c e, romRead rom c = some e → entryWf c e = true := by
  have hcanon : Rom.canonical rom = true := decide_eq_true hc
  rw [romWf_iff]
  constructor
  · rintro ⟨-, hall⟩ c e hread
    exact hall _ (romRead_mem hread)
  · intro hall
    exact ⟨hcanon, fun p hp => hall p.1 p.2 (romRead_of_mem hcanon hp)⟩

theorem asciiString_iff {t : Bytes} :
    asciiString t = true ↔ t.length ≤ 255 ∧ ∀ b ∈ t, b.toNat < 128 := by
  simp [asciiString, stringFits, Nat.lt_succ_iff]

/-- A product with the width's power of two that is at most the largest finite binary64 passes the check:
the two are compared as multiples of `2^971`. -/
theorem resolutionBounded_of_le {width : Nat} {res : F64} (hsign : F64.sign res = false)
    (h : F64.value res * 2 ^ (width - 1) ≤ maxFinite) : resolutionBounded width res = true := by
  rw [resolutionBounded, Bool.or_eq_true, decide_eq_true_eq, decide_eq_true_eq, or_iff_not_imp_left]
  intro hs
  obtain ⟨j, hj⟩ : ∃ j, F64.scale res + (width - 1) = 2046 + j := ⟨_, (Nat.add_sub_of_le (by omega)).symm⟩
  have hprod : F64.value res * 2 ^ (width - 1) = F64.significand res * 2 ^ j * 2 ^ 971 := by
    have hexp : ((F64.scale res : ℤ) - 1075) + ((width - 1 : ℕ) : ℤ) = ((j + 971 : ℕ) : ℤ) := by omega
    have hpow : (2 : ℚ) ^ ((F64.scale res : ℤ) - 1075) * 2 ^ (width - 1) = 2 ^ j * 2 ^ 971 := by
      rw [← zpow_natCast, ← zpow_add₀ two_ne_zero, hexp, zpow_natCast, pow_add]
    rw [F64.value, hsign, if_neg Bool.false_ne_true, one_mul, mul_assoc, hpow, mul_assoc]
  rw [hprod, maxFinite] at h
  have hle : (F64.significand res : ℚ) * 2 ^ j ≤ 2 ^ 53 - 1 := le_of_mul_le_mul_right h (by positivity)
  rw [hj, Nat.add_sub_cancel_left, Nat.le_sub_one_iff_lt (by positivity)]
  have hlt : (F64.significand res : ℚ) * 2 ^ j < 2 ^ 53 := hle.trans_lt (sub_one_lt _)
  exact_mod_cast hlt

/-- The check of a resolution accepts exactly what R102 item 3 asks of its value. -/
theorem resolutionWf_iff {width : Nat} {res : F64} :
    resolutionWf width res = true ↔ F64.isFinite res = true ∧ 0 < F64.value res ∧
      F64.value res * 2 ^ (width - 1) ≤ maxFinite := by
  refine ⟨resolutionWf_spec, ?_⟩
  rintro ⟨hfin, hpos, hmax⟩
  obtain ⟨hsign, hsig⟩ := (value_pos_iff res).1 hpos
  simp [resolutionWf, hfin, hsign, hsig, resolutionBounded_of_le hsign hmax]

/-- For two digit groups that are not empty, lying one after the other is sharing no bit: a shared bit is the
first bit of one of them. -/
theorem groupsApart_iff {g h : Nat × Nat} (hg : 0 < g.2) (hh : 0 < h.2) : groupsApart g h = true ↔
    ∀ i, ¬((g.1 ≤ i ∧ i < g.1 + g.2) ∧ (h.1 ≤ i ∧ i < h.1 + h.2)) := by
  rw [groupsApart, Bool.or_eq_true, decide_eq_true_eq, decide_eq_true_eq]
  constructor
  · intro happart i
    omega
  · intro hdisj
    have hfirst := hdisj (max g.1 h.1)
    omega

/-- The groups of a layout whose tens groups are not empty are not empty. -/
theorem groups_width_pos {L : Layout} (h : ∀ f ∈ fieldDescs L, 1 ≤ f.tw) : ∀ g ∈ L.groups, 0 < g.2 := by
  simp only [fieldDescs, Layout.groups, unitsWidth, List.forall_mem_cons, List.not_mem_nil,
    false_imp_iff, implies_true, and_true] at h ⊢
  omega

/-- The check of a layout accepts exactly what R170 and R171 ask of it. -/
theorem layout_wf_iff {L : Layout} {width : Nat} : L.wf width = true ↔
    (∀ f ∈ fieldDescs L, 1 ≤ f.tw ∧ f.tw ≤ 4 ∧ f.lo ≤ f.hi ∧ f.hi ≤ 99) ∧
      (∀ g ∈ L.groups, g.1 + g.2 ≤ width) ∧
      L.groups.Pairwise fun g h => ∀ i, ¬((g.1 ≤ i ∧ i < g.1 + g.2) ∧ (h.1 ≤ i ∧ i < h.1 + h.2)) := by
  have hparts : L.wf width = true ↔ (∀ f ∈ fieldDescs L, f.wf = true) ∧
      (∀ g ∈ L.groups, g.1 + g.2 ≤ width) ∧ L.groups.Pairwise fun g h => groupsApart g h = true := by
    simp [Layout.wf, fieldDescs, and_assoc]
  rw [hparts]
  simp only [fieldDesc_wf_iff]
  refine and_congr_right fun hfields => and_congr_right fun _ => List.Pairwise.iff_of_mem fun hg hh => ?_
  have hpos := groups_width_pos fun f hf => (hfields f hf).1
  exact groupsApart_iff (hpos _ hg) (hpos _ hh)

/-- The check of what an entry holds for its kind, one condition for each kind that has one. -/
theorem encodingWf_iff {width : Nat} {enc : Encoding} : encodingWf width enc = true ↔
    (∀ res, enc = .bnr res → 2 ≤ width ∧ resolutionWf width res = true) ∧
      (∀ L, enc = .bcd L → L.wf width = true) := by
  cases enc <;> simp [encodingWf]

/-- Settles O5: the check of a ROM is that of every entry read, and each item of that check says what the spec
asks. -/
theorem romCheckIsTheSpecsList : Obligations.RomCheckIsTheSpecsList := by
  unfold Obligations.RomCheckIsTheSpecsList
  intro rom hc
  rw [romWf_iff_read hc]
  refine forall₂_congr fun c e => imp_congr_right fun _ => ?_
  simp only [entryWf_iff, asciiString_iff, encodingWf_iff, resolutionWf_iff, layout_wf_iff]

/-- Settles O8: the check of the ROM comes first in every step. -/
theorem stepRefusesAnIllFormedRom : Obligations.StepRefusesAnIllFormedRom := by
  unfold Obligations.StepRefusesAnIllFormedRom
  intro s hw
  rw [step, if_neg (Bool.eq_false_iff.1 hw)]

/-! ### The ROM after reset (R104, R270) -/

/-- Reading a ROM looks at its first slot, then at the others. -/
theorem romRead_cons (a : Byte) (e : LabelEntry) (rom : Rom) (c : Byte) :
    romRead ((a, e) :: rom) c = if c = a then some e else romRead rom c := by
  rw [romRead, romRead, List.lookup_cons]
  by_cases h : c = a
  · simp [h]
  · rw [beq_false_of_ne h, if_neg h]

/-- Reset loads the default ROM. -/
@[simp] theorem reset_rom : State.reset.rom = defaultRom := rfl

/-- Settles O1: the default ROM is read slot by slot, and its four entries are those of the spec. -/
theorem resetHoldsTheDefaultRom : Obligations.ResetHoldsTheDefaultRom := by
  unfold Obligations.ResetHoldsTheDefaultRom
  intro c
  rw [reset_rom, defaultRom, romRead_cons, romRead_cons, romRead_cons, romRead_cons]
  rfl

theorem romWf_defaultRom : romWf defaultRom = true := by decide

/-- Settles O3: the default ROM passes the check, and reset leaves no response on the port. -/
theorem invariantHoldsAtReset : Obligations.InvariantHoldsAtReset := by
  unfold Obligations.InvariantHoldsAtReset
  exact inv_iff.2 ⟨romWf_defaultRom, rfl⟩

/-! ### The label operations -/

/-- `exec` answers a failure exactly when its operation raises it. -/
theorem exec_eq_failure {i : Instr} {s : State} {e : Failure} :
    exec i s = .next (s.answered (.failure e)) ↔ operation i s.rom s.tie s.ssmTable = .error e := by
  rw [exec_eq_respond, respond_eq_failure]

/-- An operation that reads a field of an absent code raises UnknownLabel (R241). -/
theorem map_resolve_of_none {rom : Rom} {code : Byte} (h : romRead rom code = none)
    (g : LabelEntry → Result) : (resolve rom code).map g = .error .unknownLabel :=
  map_eq_error.2 (resolve_of_none h)

/-- An operation that reads a field of a present code returns the field. -/
theorem map_resolve_of_some {rom : Rom} {code : Byte} {e : LabelEntry} (h : romRead rom code = some e)
    (g : LabelEntry → Result) : (resolve rom code).map g = .ok (g e) :=
  map_eq_ok.2 ⟨e, resolve_of_some h, rfl⟩

/-- Settles O17: LOOKUP resolves its code and returns the entry. -/
theorem lookupReturnsTheWholeEntry : Obligations.LookupReturnsTheWholeEntry := by
  unfold Obligations.LookupReturnsTheWholeEntry
  refine ⟨fun f hr hop => decode_lookup hr hop, fun s code => ⟨fun h => ?_, fun e h => ?_⟩⟩
  · exact exec_eq_failure.2 (map_resolve_of_none h _)
  · exact exec_eq_success.2 (map_resolve_of_some h _)

/-- Settles O18: each accessor resolves its code and returns its field; a well-formed ROM holds an entry at its
own code. -/
theorem labelAccessorsReturnTheFields : Obligations.LabelAccessorsReturnTheFields := by
  unfold Obligations.LabelAccessorsReturnTheFields
  have raw : ∀ (s : State) (code : Byte) (e : LabelEntry), romRead s.rom code = some e →
      exec (.labelRaw code) s = .next (s.answered (.success (.code e.code))) :=
    fun s code e h => exec_eq_success.2 (map_resolve_of_some h _)
  refine ⟨fun f hr => ⟨decode_labelRaw hr, decode_labelName hr, decode_labelUnits hr⟩, fun s code =>
    ⟨fun h => ⟨?_, ?_, ?_⟩, fun e h => ⟨raw s code e h, ?_, ?_⟩, fun e hw h => ?_⟩⟩
  · exact exec_eq_failure.2 (map_resolve_of_none h _)
  · exact exec_eq_failure.2 (map_resolve_of_none h _)
  · exact exec_eq_failure.2 (map_resolve_of_none h _)
  · exact exec_eq_success.2 (map_resolve_of_some h _)
  · exact exec_eq_success.2 (map_resolve_of_some h _)
  · rw [raw s code e h, code_of_read hw h]

/-- Settles O19: LABEL_OCTAL resolves its code and returns `octal3` of the entry's code, which is its three
digits in base 8. -/
theorem labelOctalWritesThreeDigits : Obligations.LabelOctalWritesThreeDigits := by
  unfold Obligations.LabelOctalWritesThreeDigits
  refine ⟨fun f hr hop => decode_labelOctal hr hop, fun s code => ⟨fun h => ?_, fun e h => ?_⟩⟩
  · exact exec_eq_failure.2 (map_resolve_of_none h _)
  · have hdigits : exec (.labelOctal code) s = .next (s.answered (.success (.string (octal3 e.code)))) :=
      exec_eq_success.2 (map_resolve_of_some h _)
    rw [hdigits, octal3_eq]
    rfl

/-! ### OCTAL_PARSE -/

/-- OCTAL_PARSE answers a code exactly when the string parses to it, whatever the state holds. -/
theorem exec_octalParse_eq_code {s : State} {str : Bytes} {c : Byte} :
    exec (.octalParse str) s = .next (s.answered (.success (.code c))) ↔ parseOctal str = .ok c := by
  rw [exec_eq_success, operation, map_eq_ok]
  simp

/-- OCTAL_PARSE fails exactly when the string does not parse, and with UnknownLabel. -/
theorem exec_octalParse_eq_unknownLabel {s : State} {str : Bytes} :
    exec (.octalParse str) s = .next (s.answered (.failure .unknownLabel)) ↔
      ∀ v, parseOctal str ≠ .ok v := by
  rw [exec_eq_failure, operation, map_eq_error]
  cases h : parseOctal str with
  | ok c => simp
  | error e => simp [parseOctal_eq_error h]

/-- Settles O20: `parseOctal` returns a value for three octal digits in 000 to 377 and for nothing else. -/
theorem octalParseReadsThreeOctalDigits : Obligations.OctalParseReadsThreeOctalDigits := by
  unfold Obligations.OctalParseReadsThreeOctalDigits
  refine ⟨fun f hr hop hS => ?_, fun s str => ⟨fun a b c hstr ha ha' hb hb' hc hc' => ?_, fun hbad => ?_⟩⟩
  · rw [decode_octalParse hr hop, stringOperand_of_fits (decide_eq_true (by omega))]
    rfl
  · have hv : (BitVec.ofNat 8 (64 * (a.toNat - 0x30) + 8 * (b.toNat - 0x30) + (c.toNat - 0x30))).toNat =
        64 * (a.toNat - 0x30) + 8 * (b.toNat - 0x30) + (c.toNat - 0x30) := by
      rw [BitVec.toNat_ofNat, Nat.mod_eq_of_lt (by omega)]
    exact ⟨_, hv, exec_octalParse_eq_code.2 (parseOctal_eq_ok.2
      ⟨a, b, c, hstr, ⟨ha, ha'⟩, ⟨hb, hb'⟩, ⟨hc, hc'⟩, hv⟩)⟩
  · refine exec_octalParse_eq_unknownLabel.2 fun v hv => hbad ?_
    obtain ⟨a, b, c, hstr, ⟨ha, ha'⟩, ⟨hb, hb'⟩, ⟨hc, hc'⟩, -⟩ := parseOctal_eq_ok.1 hv
    exact ⟨a, b, c, hstr, ha, ha', hb, hb', hc, hc'⟩

/-- Settles O21: OCTAL_PARSE answers what `parseOctal` returns, which inverts `octal3`. -/
theorem octalNotationGoesRound : Obligations.OctalNotationGoesRound := by
  unfold Obligations.OctalNotationGoesRound
  exact ⟨fun s c => exec_octalParse_eq_code.2 (parseOctal_octal3 c),
    fun s str c h => octal3_of_parseOctal (exec_octalParse_eq_code.1 h)⟩

end Sys2Proof.Proofs

/-! PROOFS. The Word Codec (R130 to R136): the label's bit reversal, what PACK lays out, what UNPACK reads back,
and what the parity check detects. -/

namespace Sys2Proof.Proofs

open Sys2Proof.Machine

/-! ### Words and their fields -/

/-- The code UNPACK reads is a word's low byte in reverse order (R61). -/
theorem getLsbD_reverse8_low (w : Word) {i : Nat} (hi : i < 8) :
    (reverse8 (w.extractLsb' 0 8)).getLsbD i = w.getLsbD (7 - i) := by
  rw [getLsbD_reverse8 _ hi, BitVec.getLsbD_extractLsb', Nat.zero_add]
  simp [show 7 - i < 8 by omega]

/-- UNPACK returns the fields a word of odd parity holds, and nothing for any other word (R133). -/
theorem unpackWord_eq_ok_iff_holds {w : Word} {f : WireFields} :
    unpackWord w = .ok f ↔ WordHolds w f.code f.sdi.toNat f.data.toNat f.ssm.toNat := by
  rcases unpackWord_cases w with ⟨heven, hraise⟩ | ⟨hodd, hok⟩
  · refine iff_of_false (fun h => ?_) fun ⟨_, _, _, _, hp⟩ => ?_
    · cases hraise.symm.trans h
    · omega
  · constructor
    · intro h
      obtain rfl := unpackWord_eq_ok h
      refine ⟨fun i hi => ?_, rfl, rfl, rfl, hodd⟩
      rw [getLsbD_reverse8_low w (by omega), show 7 - (7 - i) = i by omega]
    · rintro ⟨hcode, hsdi, hdata, hssm, -⟩
      have hlow : f.code = reverse8 (w.extractLsb' 0 8) := eq_reverse8_low fun i hi => by
        rw [hcode (7 - i) (by omega), show 7 - (7 - i) = i by omega]
      rw [hok, ← hlow, BitVec.eq_of_toNat_eq hsdi, BitVec.eq_of_toNat_eq hdata, BitVec.eq_of_toNat_eq hssm]

/-- UNPACK raises ParityError exactly for a word of even parity, and nothing else (R133). -/
theorem unpackWord_eq_error {w : Word} {e : Failure} :
    unpackWord w = .error e ↔ popcount w % 2 = 0 ∧ e = .parityError := by
  rcases unpackWord_cases w with ⟨heven, hraise⟩ | ⟨hodd, hok⟩
  · simp [hraise, heven, eq_comm]
  · simp [hok, hodd]

/-- An operand below `2^n` loses nothing when it is cut to `n` bits. -/
theorem toNat_setWidth_of_lt {n k m : Nat} {v : BitVec n} (h : v.toNat < 2 ^ k) (hk : k ≤ m) :
    (v.setWidth m).toNat = v.toNat := by
  rw [BitVec.toNat_setWidth, Nat.mod_eq_of_lt (Nat.lt_of_lt_of_le h (Nat.pow_le_pow_right (by decide) hk))]

/-- With a well-formed ROM PACK returns a word that holds its operands, if they are in range (R132). -/
theorem packWord_holds {rom : Rom} {code sdi ssm : Byte} {data : Word} {e : LabelEntry}
    (hw : romWf rom = true) (hread : romRead rom code = some e)
    (hsdi : sdi.toNat < 4) (hdata : data.toNat < 2 ^ e.width) (hssm : ssm.toNat < 4) :
    ∃ w, packWord rom code sdi data ssm = .ok w ∧ WordHolds w code sdi.toNat data.toNat ssm.toNat := by
  obtain ⟨-, hwidth⟩ := width_of_read hw hread
  have hholds := assembleWord_holds code (sdi.setWidth 2) (data.setWidth 19) (ssm.setWidth 2)
  rw [toNat_setWidth_of_lt (k := 2) hsdi (by decide), toNat_setWidth_of_lt hdata hwidth,
    toNat_setWidth_of_lt (k := 2) hssm (by decide)] at hholds
  exact ⟨_, packWord_eq_ok.2 ⟨e, hread, hsdi, hdata, hssm, rfl⟩, hholds⟩

/-! ### What the operations answer -/

/-- PACK answers exactly the word it returns. -/
theorem exec_pack_eq_word {s : State} {code sdi ssm : Byte} {data w : Word} :
    exec (.pack code sdi data ssm) s = .next (s.answered (.success (.word w))) ↔
      packWord s.rom code sdi data ssm = .ok w := by
  rw [exec_eq_success, operation, map_eq_ok]
  simp

/-- PACK answers exactly the failure it raises. -/
theorem exec_pack_eq_failure {s : State} {code sdi ssm : Byte} {data : Word} {e : Failure} :
    exec (.pack code sdi data ssm) s = .next (s.answered (.failure e)) ↔
      packWord s.rom code sdi data ssm = .error e := exec_eq_failure.trans map_eq_error

/-- UNPACK answers exactly the fields it returns. -/
theorem exec_unpack_eq_fields {s : State} {w : Word} {f : WireFields} :
    exec (.unpack w) s = .next (s.answered (.success (.fields f))) ↔ unpackWord w = .ok f := by
  rw [exec_eq_success, operation, map_eq_ok]
  simp

/-- UNPACK answers ParityError exactly for a word of even parity. -/
theorem exec_unpack_eq_parityError {s : State} {w : Word} :
    exec (.unpack w) s = .next (s.answered (.failure .parityError)) ↔ popcount w % 2 = 0 := by
  rw [exec_eq_failure, operation, map_eq_error, unpackWord_eq_error]
  simp

/-- UNPACK answers some fields for a word of odd parity. -/
theorem exec_unpack_of_odd {s : State} {w : Word} (h : popcount w % 2 = 1) :
    ∃ f, exec (.unpack w) s = .next (s.answered (.success (.fields f))) := by
  rcases unpackWord_cases w with ⟨heven, -⟩ | ⟨-, hok⟩
  · omega
  · exact ⟨_, exec_unpack_eq_fields.2 hok⟩

/-- Reading the calendar of a word never raises ParityError (R176). -/
theorem decodedCalendar_ne_parityError (enc : Encoding) (data : DataField) :
    decodedCalendar enc data ≠ .error .parityError := by
  cases enc with
  | bnr res => simp [decodedCalendar]
  | bcd L =>
    rw [decodedCalendar, Ne, map_eq_error]
    rcases unpackCalendar_cases L data with ⟨-, h⟩ | ⟨-, -, h⟩ | ⟨-, h⟩ <;> simp [h]
  | discrete => simp [decodedCalendar]

/-- DECODE answers ParityError exactly for a word of even parity (R220). -/
theorem exec_decode_eq_parityError {s : State} {w : Word} :
    exec (.decode w) s = .next (s.answered (.failure .parityError)) ↔ popcount w % 2 = 0 := by
  rw [exec_eq_failure, operation, map_eq_error]
  constructor
  · intro h
    rcases bind_eq_error.1 h with h | ⟨f, -, h⟩
    · exact (unpackWord_eq_error.1 h).1
    rcases bind_eq_error.1 h with h | ⟨e, -, h⟩
    · cases (resolve_eq_error.1 h).2
    rcases bind_eq_error.1 h with h | ⟨cal, -, h⟩
    · exact absurd h (decodedCalendar_ne_parityError _ _)
    · cases h
  · intro h
    exact bind_eq_error.2 (.inl (unpackWord_eq_error.2 ⟨h, rfl⟩))

/-! ### The statements about PACK and UNPACK -/

/-- Settles O23: PACK returns the assembled word, which holds its operands, and raises what
`packWord_eq_error` lists. -/
theorem packLaysOutTheWord : Obligations.PackLaysOutTheWord := by
  unfold Obligations.PackLaysOutTheWord
  refine ⟨fun f hr hop => decode_pack hr hop, fun s code sdi data ssm hw =>
    ⟨fun habsent => ?_, fun e hread hbad => ?_, fun e hread hsdi hdata hssm => ?_⟩⟩
  · exact exec_pack_eq_failure.2 (packWord_eq_error.2 (.inl ⟨habsent, rfl⟩))
  · exact exec_pack_eq_failure.2 (packWord_eq_error.2 (.inr ⟨e, hread, hbad, rfl⟩))
  · obtain ⟨w, hpack, hholds⟩ := packWord_holds hw hread hsdi hdata hssm
    exact ⟨w, hholds, exec_pack_eq_word.2 hpack⟩

/-- Settles O24: the parity decides whether UNPACK answers fields, and they are the bits of the word. -/
theorem unpackChecksParityAndSplits : Obligations.UnpackChecksParityAndSplits := by
  unfold Obligations.UnpackChecksParityAndSplits
  refine ⟨fun f hr hop => decode_unpack hr hop, fun s w =>
    ⟨exec_unpack_eq_parityError.2, fun hodd => ?_⟩⟩
  obtain ⟨f, hf⟩ := exec_unpack_of_odd (s := s) hodd
  obtain rfl := unpackWord_eq_ok (exec_unpack_eq_fields.1 hf)
  exact ⟨_, fun i hi => getLsbD_reverse8_low w hi, rfl, rfl, rfl, hf⟩

/-- Settles O25: both operations return assembled words only, and these have odd parity. -/
theorem returnedWordsHaveOddParity : Obligations.ReturnedWordsHaveOddParity := by
  unfold Obligations.ReturnedWordsHaveOddParity
  refine fun s w => ⟨fun code sdi data ssm h => packWord_odd (exec_pack_eq_word.1 h),
    fun code sdi v ssm h => ?_⟩
  obtain ⟨w', hencode, ⟨⟩⟩ := map_eq_ok.1 (exec_eq_success.1 h)
  exact encodeWord_odd hencode

/-- Settles O26: a word and the fields it holds decide each other (`unpackWord_eq_ok_iff_holds`,
`WordHolds.unique`), and PACK returns the word that holds its operands. -/
theorem packAndUnpackAreInverse : Obligations.PackAndUnpackAreInverse := by
  unfold Obligations.PackAndUnpackAreInverse
  refine ⟨fun s code sdi data ssm e hw hread hsdi hdata hssm => ?_, fun s w f e hw hunpack hread hdata => ?_⟩
  · exact ⟨_, exec_pack_eq_word.2 (packWord_eq_ok.2 ⟨e, hread, hsdi, hdata, hssm, rfl⟩),
      exec_unpack_eq_fields.2 (unpackWord_eq_ok_iff_holds.2 (assembleWord_holds ..))⟩
  · have hholds := unpackWord_eq_ok_iff_holds.1 (exec_unpack_eq_fields.1 hunpack)
    have hsdi8 : (f.sdi.setWidth 8).toNat = f.sdi.toNat := BitVec.toNat_setWidth_of_le (by decide)
    have hdata32 : (f.data.setWidth 32).toNat = f.data.toNat :=
      BitVec.toNat_setWidth_of_le (by decide)
    have hssm8 : (f.ssm.setWidth 8).toNat = f.ssm.toNat := BitVec.toNat_setWidth_of_le (by decide)
    obtain ⟨w', hpack, hholds'⟩ := packWord_holds hw hread (hsdi8.trans_lt f.sdi.isLt)
      (hdata32.trans_lt hdata) (hssm8.trans_lt f.ssm.isLt)
    rw [hsdi8, hdata32, hssm8] at hholds'
    rw [hholds.unique hholds']
    exact exec_pack_eq_word.2 hpack

/-- Settles O27: parity is additive under exclusive or, and both operations raise ParityError for even parity
only. -/
theorem oddBitFlipsAreDetected : Obligations.OddBitFlipsAreDetected := by
  unfold Obligations.OddBitFlipsAreDetected
  intro s w m hw
  have hxor := popcount_xor w m
  refine ⟨fun hm => ?_, fun hm => ?_⟩
  · have heven : popcount (w ^^^ m) % 2 = 0 := by omega
    exact ⟨exec_unpack_eq_parityError.2 heven, exec_decode_eq_parityError.2 heven⟩
  · have hodd : popcount (w ^^^ m) % 2 = 1 := by omega
    refine ⟨exec_unpack_of_odd hodd, fun h => ?_⟩
    have := exec_decode_eq_parityError.1 h
    omega

/-! ### Bit reversal -/

theorem reverse8_reverse8 (b : Byte) : reverse8 (reverse8 b) = b := by
  refine (eq_reverse8 fun i hi => ?_).symm
  rw [getLsbD_reverse8 b (by omega), show 7 - (7 - i) = i by omega]

/-- A byte that reversal leaves alone is its low half behind the mirror image of that half. -/
theorem eq_mirrored_of_reverse8_eq {b : Byte} (h : reverse8 b = b) :
    b = (b.setWidth 4).reverse ++ b.setWidth 4 := by
  refine BitVec.eq_of_getLsbD_eq fun i hi => ?_
  rw [BitVec.getLsbD_append]
  by_cases hlow : i < 4
  · simp [hlow]
  · have hmirror : b.getLsbD i = b.getLsbD (7 - i) := by rw [← getLsbD_reverse8 b hi, h]
    rw [if_neg hlow, hmirror, BitVec.getLsbD_reverse, BitVec.getMsbD_eq_getLsbD, BitVec.getLsbD_setWidth,
      show 4 - 1 - (i - 4) = 7 - i by omega]
    simp [show i - 4 < 4 by omega, show 7 - i < 4 by omega]

/-- Settles O22: reversal is an involution, and a fixed point is given by its low half, so there are sixteen. -/
theorem bitReversalIsItsOwnInverse : Obligations.BitReversalIsItsOwnInverse := by
  unfold Obligations.BitReversalIsItsOwnInverse
  refine ⟨fun b i hi => getLsbD_reverse8 b hi, reverse8_reverse8,
    Function.Involutive.bijective reverse8_reverse8, fun b => ⟨fun h => ?_, fun h => ?_⟩⟩
  · have hlisted : ∀ n : BitVec 4, n.reverse ++ n ∈ ([0x00, 0xFF, 0x18, 0x24, 0x3C, 0x42, 0x5A, 0x66,
        0x7E, 0x81, 0x99, 0xA5, 0xBD, 0xC3, 0xDB, 0xE7] : List Byte) := by decide
    exact eq_mirrored_of_reverse8_eq h ▸ hlisted _
  · revert b
    decide

end Sys2Proof.Proofs

/-! PROOFS. What the two roundings of R12 keep: a rounding to an integer against the half below an integer, and
the values a binary64 holds exactly. -/

namespace Sys2Proof.Machine

/-! ### Rounding to an integer -/

/-- An integer is its own rounding. -/
theorem isRounded_intCast (tie : Tie) (n : ℤ) : IsRounded tie n n := by
  simp [IsRounded]

/-- A rounded quotient times its divisor is at most half a divisor away from the dividend. -/
theorem IsRounded.abs_mul_sub_le {tie : Tie} {v r : ℚ} {n : ℤ} (h : IsRounded tie (v / r) n) (hr : 0 < r) :
    |(n : ℚ) * r - v| ≤ r / 2 := by
  have hdist : (n : ℚ) * r - v = (n - v / r) * r := by rw [sub_mul, div_mul_cancel₀ v hr.ne']
  rw [hdist, abs_mul, abs_of_pos hr]
  linarith [mul_le_mul_of_nonneg_right h.1 hr.le]

section half

variable {tie : Tie} {q : ℚ} {n k : ℤ} (h : IsRounded tie q n)
include h

theorem IsRounded.lt_of_lt_half (hq : q < k - 1 / 2) : n < k := by
  have : (n : ℚ) < k := by linarith [(abs_le.1 h.1).2]
  exact_mod_cast this

theorem IsRounded.le_of_half_lt (hq : (k : ℚ) - 1 / 2 < q) : k ≤ n := by
  have : ((k - 1 : ℤ) : ℚ) < n := by push_cast; linarith [(abs_le.1 h.1).1]
  have : k - 1 < n := by exact_mod_cast this
  omega

/-- Where the half below `k` rounds up, what rounds below `k` lies below that half. -/
theorem IsRounded.lt_iff_of_half_up (hk : IsRounded tie (k - 1 / 2) k) : n < k ↔ q < k - 1 / 2 := by
  refine ⟨fun hn => ?_, h.lt_of_lt_half⟩
  rcases lt_trichotomy q (k - 1 / 2) with hq | rfl | hq
  · exact hq
  · exact absurd (h.unique hk) hn.ne
  · exact absurd (h.le_of_half_lt hq) (not_le.2 hn)

/-- Where the half below `k` rounds down, what rounds below `k` is that half or lies below it. -/
theorem IsRounded.lt_iff_of_half_down (hk : IsRounded tie (k - 1 / 2) (k - 1)) : n < k ↔ q ≤ k - 1 / 2 := by
  refine ⟨fun hn => not_lt.1 fun hq => not_le.2 hn (h.le_of_half_lt hq), fun hq => ?_⟩
  rcases hq.lt_or_eq with hq | rfl
  · exact h.lt_of_lt_half hq
  · have := h.unique hk
    omega

end half

/-- With ties to even the half below an even integer rounds up to it. -/
theorem isRounded_half_of_even {k : ℤ} (hk : k % 2 = 0) : IsRounded .tiesToEven (k - 1 / 2) k :=
  ⟨by norm_num [abs_le], fun _ => hk⟩

/-- With ties away the half below a positive integer rounds up to it. -/
theorem isRounded_half_of_pos {k : ℤ} (hk : 0 < k) : IsRounded .tiesAway (k - 1 / 2) k := by
  have hk' : (1 : ℚ) ≤ k := by exact_mod_cast hk
  refine ⟨by norm_num [abs_le], fun _ => ?_⟩
  show |(k : ℚ) - 1 / 2| < |(k : ℚ)|
  rw [abs_of_pos (by linarith), abs_of_pos (by linarith)]
  linarith

/-- With ties away the half below an integer that is not positive rounds down. -/
theorem isRounded_half_of_nonpos {k : ℤ} (hk : k ≤ 0) : IsRounded .tiesAway (k - 1 / 2) (k - 1) := by
  have hk' : (k : ℚ) ≤ 0 := by exact_mod_cast hk
  have hdist : ((k - 1 : ℤ) : ℚ) - (k - 1 / 2) = -(1 / 2) := by push_cast; ring
  refine ⟨by rw [hdist]; norm_num, fun _ => ?_⟩
  show |(k : ℚ) - 1 / 2| < |((k - 1 : ℤ) : ℚ)|
  push_cast
  rw [abs_of_neg (by linarith), abs_of_neg (by linarith)]
  linarith

/-! ### Values that a binary64 holds exactly -/

/-- The binary64 nearest a rational that some finite binary64 is equal to has that value. -/
theorem IsNearestF64.value_eq {q : ℚ} {r y : F64} (h : IsNearestF64 q r) (hy : F64.isFinite y = true)
    (hq : F64.value y = q) : F64.value r = q := by
  obtain ⟨hle, -⟩ := h.2 y hy
  rw [hq, sub_self, abs_zero] at hle
  exact sub_eq_zero.1 (abs_nonpos_iff.1 hle)

/-- Every sign and every 63 low bits are those of a binary64. -/
theorem exists_sign_lowBits (sign : Bool) {b : Nat} (hb : b < 2 ^ 63) :
    ∃ y : F64, F64.sign y = sign ∧ lowBits y = b := by
  refine ⟨BitVec.cons sign (BitVec.ofNat 63 b), ?_, ?_⟩
  · exact (BitVec.getLsbD_cons sign _ 63).trans (if_pos rfl)
  · have hlow : (BitVec.cons sign (BitVec.ofNat 63 b)).setWidth 63 = BitVec.ofNat 63 b :=
      BitVec.setWidth_cons
    have := congrArg BitVec.toNat hlow
    rwa [BitVec.toNat_setWidth, BitVec.toNat_ofNat, Nat.mod_eq_of_lt hb] at this

/-- An integer of at most 53 bits times a power of two is a magnitude: it is doubled until it has 53 bits or
the exponent is used up. -/
theorem exists_magnitude_eq (j : Nat) {m : Nat} (hm : m ≤ 2 ^ 53) : ∃ b, magnitude b = m * 2 ^ j := by
  induction j generalizing m with
  | zero => exact ⟨_, magnitude_bits (.inl rfl) hm⟩
  | succ j ih =>
    by_cases hfull : 2 ^ 52 ≤ m
    · exact ⟨_, magnitude_bits (.inr hfull) hm⟩
    · obtain ⟨b, hb⟩ := ih (m := 2 * m) (by omega)
      exact ⟨b, by rw [hb, pow_succ]; ring⟩

/-- The largest finite value in units of `2^-1074`. -/
theorem maxFinite_eq : maxFinite = (magnitude (2047 * 2 ^ 52 - 1) : ℚ) * 2 ^ (-1074 : ℤ) := by
  have hpow : (2 : ℚ) ^ 2045 * 2 ^ (-1074 : ℤ) = 2 ^ 971 := by
    rw [← zpow_natCast, ← zpow_natCast, ← zpow_add₀ two_ne_zero]
    rfl
  rw [magnitude_max, Nat.cast_mul, Nat.cast_pow, Nat.cast_ofNat, mul_assoc, hpow, maxFinite]
  norm_num

/-- An integer of at most 53 bits times a power of two within the finite range is the value of a finite
binary64. -/
theorem exists_finite_value_eq {n k : ℤ} (hn : n.natAbs ≤ 2 ^ 53) (hk : -1074 ≤ k)
    (hmax : |(n : ℚ) * 2 ^ k| ≤ maxFinite) :
    ∃ y : F64, F64.isFinite y = true ∧ F64.value y = n * 2 ^ k := by
  obtain ⟨b, hb⟩ := exists_magnitude_eq (k + 1074).toNat hn
  have hmag : (magnitude b : ℚ) * 2 ^ (-1074 : ℤ) = |(n : ℚ)| * 2 ^ k := by
    rw [hb, Nat.cast_mul, Nat.cast_natAbs, Int.cast_abs, Nat.cast_pow, Nat.cast_ofNat, ← zpow_natCast,
      mul_assoc, ← zpow_add₀ two_ne_zero]
    congr 2
    omega
  have hfin : b ≤ 2047 * 2 ^ 52 - 1 := by
    rw [abs_mul, abs_of_pos (two_zpow_pos k), ← hmag, maxFinite_eq] at hmax
    exact magnitude_strictMono.le_iff_le.1
      (by exact_mod_cast le_of_mul_le_mul_right hmax (two_zpow_pos _))
  obtain ⟨y, hsign, hlow⟩ := exists_sign_lowBits (decide (n < 0)) (b := b) (by omega)
  refine ⟨y, (isFinite_iff y).2 (by omega), ?_⟩
  rw [value_eq, hlow, mul_assoc, hmag, hsign, ← mul_assoc]
  congr 1
  rcases lt_or_ge n 0 with hneg | hpos
  · have : (n : ℚ) < 0 := by exact_mod_cast hneg
    simp [hneg, abs_of_neg this]
  · have : (0 : ℚ) ≤ n := by exact_mod_cast hpos
    simp [not_lt.2 hpos, abs_of_nonneg this]

/-- The least power of two that is the value of a binary64 is the unit `2^-1074`. -/
theorem le_of_value_eq_zpow {x : F64} {k : ℤ} (h : F64.value x = 2 ^ k) : -1074 ≤ k := by
  have hpos : 0 < F64.value x := h ▸ two_zpow_pos k
  obtain ⟨hsign, -⟩ := (value_pos_iff x).1 hpos
  rw [value_eq, hsign, if_neg Bool.false_ne_true, one_mul] at h hpos
  have hone : (1 : ℚ) ≤ magnitude (lowBits x) := by
    exact_mod_cast (mul_pos_iff_of_pos_right (two_zpow_pos _)).1 hpos
  have hle : (2 : ℚ) ^ (-1074 : ℤ) ≤ 2 ^ k := h ▸ le_mul_of_one_le_left (two_zpow_pos _).le hone
  exact (zpow_le_zpow_iff_right₀ one_lt_two).1 hle

/-- The only patterns of value 0 are the two zeros. -/
theorem eq_zero_of_value_eq_zero {x : F64} (h : F64.value x = 0) : x = 0 ∨ x = 0x8000000000000000 := by
  have hmag : magnitude (lowBits x) = 0 := by
    rw [value_eq, mul_assoc] at h
    have hsign : (if F64.sign x then (-1 : ℚ) else 1) ≠ 0 := by split <;> norm_num
    exact_mod_cast (mul_eq_zero_iff_right (two_zpow_pos _).ne').1 ((mul_eq_zero_iff_left hsign).1 h)
  have hlow : lowBits x = 0 := magnitude_strictMono.injective hmag
  cases hsign : F64.sign x with
  | false => exact .inl (F64.ext hsign hlow)
  | true => exact .inr (F64.ext hsign hlow)

end Sys2Proof.Machine

/-! PROOFS. The BNR Converter (R150 to R156): the field pattern, what its two operations answer, and what the
one rounding of each of them costs. -/

namespace Sys2Proof.Proofs

open Sys2Proof.Machine

/-! ### The field pattern of a BNR integer (R150) -/

/-- The field pattern of `n` is `n mod 2^W`. -/
theorem bnrField_toNat {width : Nat} (hw : width ≤ 19) (n : ℤ) :
    ((bnrField width n).toNat : ℤ) = n % 2 ^ width := by
  have hnonneg : 0 ≤ n % ((2 ^ width : ℕ) : ℤ) := Int.emod_nonneg _ (by positivity)
  rw [bnrField, BitVec.toNat_setWidth_of_le hw, BitVec.toNat_ofInt, Int.toNat_of_nonneg hnonneg]
  push_cast
  rfl

/-- Every integer of the signed range reads back from its field pattern. -/
theorem bnrInteger_bnrField {width : Nat} (hw : 1 ≤ width) (hw' : width ≤ 19) {n : ℤ}
    (h : inSignedRange width n = true) : bnrInteger width (bnrField width n) = n := by
  obtain ⟨hlo, hhi⟩ := inSignedRange_iff.1 h
  rw [bnrInteger, bnrField, BitVec.setWidth_setWidth_of_le _ hw', BitVec.setWidth_eq]
  exact BitVec.toInt_ofInt_eq_self hw hlo (by omega)

/-- Settles O29: the pattern is the `W`-bit two's complement of `n`, widened with zeros. -/
theorem bnrFieldPatternIsTwosComplement : Obligations.BnrFieldPatternIsTwosComplement := by
  unfold Obligations.BnrFieldPatternIsTwosComplement
  exact fun width n hw hw' => ⟨bnrField_toNat hw' n,
    fun hlo hhi => bnrInteger_bnrField hw hw' (inSignedRange_iff.2 ⟨hlo, hhi⟩)⟩

/-! ### What the two operations answer -/

/-- BNR_TO_FIELD answers exactly the failure it raises. -/
theorem exec_bnrToField_eq_failure {s : State} {code : Byte} {x : F64} {f : Failure} :
    exec (.bnrToField code x) s = .next (s.answered (.failure f)) ↔
      bnrToField s.rom s.tie code x = .error f := exec_eq_failure.trans map_eq_error

/-- BNR_TO_PHYS answers exactly the failure it raises. -/
theorem exec_bnrToPhys_eq_failure {s : State} {code : Byte} {data : DataField} {f : Failure} :
    exec (.bnrToPhys code data) s = .next (s.answered (.failure f)) ↔
      bnrToPhys s.rom code data = .error f := exec_eq_failure.trans map_eq_error

/-- An operation that reads an entry first raises UnknownLabel for an absent code. -/
theorem bind_resolve_of_none {rom : Rom} {code : Byte} (h : romRead rom code = none) {α : Type}
    {g : LabelEntry → Except Failure α} : resolve rom code >>= g = .error .unknownLabel :=
  bind_eq_error.2 (.inl (resolve_of_none h))

/-- An operation that reads an entry and its resolution raises UnsupportedConversion for a label that is not
BNR. -/
theorem bind_bnrResolution_of_not_bnr {rom : Rom} {code : Byte} {e : LabelEntry}
    (hread : romRead rom code = some e) (hk : e.kind ≠ .bnr) {α : Type}
    {g : LabelEntry → F64 → Except Failure α} :
    (resolve rom code >>= fun e => bnrResolution e >>= g e) = .error .unsupportedConversion := by
  rw [bind_resolve hread]
  exact bind_eq_error.2 (.inl (bnrResolution_of_not_bnr hk))

/-- An operation that reads an entry and its resolution goes on with both for a BNR label. -/
theorem bind_bnrResolution {rom : Rom} {code : Byte} {e : LabelEntry} {res : F64}
    (hread : romRead rom code = some e) (hres : e.encoding = .bnr res) {α : Type}
    {g : LabelEntry → F64 → Except Failure α} :
    (resolve rom code >>= fun e => bnrResolution e >>= g e) = g e res := by
  rw [bind_resolve hread, bnrResolution_of_bnr hres]
  rfl

section bnrLabel

variable {s : State} {code : Byte} {e : LabelEntry} {res : F64}
variable (hread : romRead s.rom code = some e) (hres : e.encoding = .bnr res)
include hread hres

/-- BNR_TO_FIELD of a BNR label answers `n` exactly when quantizing gives `n`. -/
theorem exec_bnrToField_eq_signedInt {x : F64} {n : ℤ} :
    exec (.bnrToField code x) s = .next (s.answered (.success (.signedInt n))) ↔
      quantize s.tie e.width res x = .ok n := by
  rw [exec_eq_success, operation, map_eq_ok, bnrToField, bind_bnrResolution hread hres]
  simp

/-- BNR_TO_FIELD of a BNR label answers OutOfRange when quantizing raises it. -/
theorem exec_bnrToField_of_outOfRange {x : F64} (h : quantize s.tie e.width res x = .error .outOfRange) :
    exec (.bnrToField code x) s = .next (s.answered (.failure .outOfRange)) :=
  exec_bnrToField_eq_failure.2 ((bind_bnrResolution hread hres).trans h)

/-- BNR_TO_PHYS of a BNR label answers the physical value of the data field, whatever it holds. -/
theorem exec_bnrToPhys_of_bnr (data : DataField) : exec (.bnrToPhys code data) s =
    .next (s.answered (.success (.float (physicalValue e.width res data)))) :=
  exec_eq_success.2 (map_eq_ok.2 ⟨_, bind_bnrResolution hread hres, rfl⟩)

end bnrLabel

/-- Quantizing returns exactly the rounding of the exact quotient of a finite value, if it is in range
(R152). -/
theorem quantize_eq_ok {tie : Tie} {width : Nat} {res x : F64} {n : ℤ} (hr : 0 < F64.value res) :
    quantize tie width res x = .ok n ↔ F64.isFinite x = true ∧
      IsRounded tie (F64.value x / F64.value res) n ∧ inSignedRange width n = true := by
  rcases quantize_cases tie width x hr with ⟨hx, h⟩ | ⟨hx, m, hm, hrange⟩
  · simp [h, hx]
  have hn : IsRounded tie (F64.value x / F64.value res) n ↔ m = n := ⟨hm.unique, fun h => h ▸ hm⟩
  rw [hn]
  rcases hrange with ⟨hin, h⟩ | ⟨hout, h⟩
  · rw [h, Except.ok.injEq]
    exact ⟨fun hmn => ⟨hx, hmn, hmn ▸ hin⟩, fun ⟨_, hmn, _⟩ => hmn⟩
  · rw [h]
    refine iff_of_false (by simp) ?_
    rintro ⟨-, rfl, hin⟩
    exact Bool.false_ne_true (hout.symm.trans hin)

/-- Settles O28: the label and its kind are looked at first, then `quantize_cases` lists the answers. -/
theorem bnrToFieldRoundsTheExactQuotient : Obligations.BnrToFieldRoundsTheExactQuotient := by
  unfold Obligations.BnrToFieldRoundsTheExactQuotient
  refine ⟨fun f hr hop => decode_bnrToField hr hop, fun s code x hw =>
    ⟨fun habsent => ?_, fun e hread hk => ?_, fun e res hread hres hx => ?_,
      fun e res hread hres hx => ?_⟩⟩
  · exact exec_bnrToField_eq_failure.2 (bind_resolve_of_none habsent)
  · exact exec_bnrToField_eq_failure.2 (bind_bnrResolution_of_not_bnr hread hk)
  · exact exec_bnrToField_of_outOfRange hread hres (by simp [quantize, hx])
  · obtain ⟨-, -, -, hpos, -⟩ := resolution_of_read hw hread hres
    rcases quantize_cases s.tie e.width x hpos with ⟨hx', -⟩ | ⟨-, n, hn, ⟨hin, h⟩ | ⟨hout, h⟩⟩
    · exact absurd (hx.symm.trans hx') Bool.noConfusion
    · obtain ⟨hlo, hhi⟩ := inSignedRange_iff.1 hin
      exact ⟨n, hn, fun _ => (exec_bnrToField_eq_signedInt hread hres).2 h, fun _ => by omega⟩
    · refine ⟨n, hn, fun hin => ?_, fun _ => exec_bnrToField_of_outOfRange hread hres h⟩
      exact absurd (inSignedRange_iff.2 hin) (Bool.eq_false_iff.1 hout)

/-- Settles O30: the label and its kind are looked at first, then every data value converts. -/
theorem bnrToPhysRoundsTheExactProduct : Obligations.BnrToPhysRoundsTheExactProduct := by
  unfold Obligations.BnrToPhysRoundsTheExactProduct
  refine ⟨fun f hr hop hA => ?_, fun s code data hw =>
    ⟨fun habsent => ?_, fun e hread hk => ?_, fun e res hread hres => ?_⟩⟩
  · rw [decode_bnrToPhys hr hop, Frame.dataOperand, if_pos hA]
    rfl
  · exact exec_bnrToPhys_eq_failure.2 (bind_resolve_of_none habsent)
  · exact exec_bnrToPhys_eq_failure.2 (bind_bnrResolution_of_not_bnr hread hk)
  · obtain ⟨hwidth, -, -, hpos, hmax⟩ := resolution_of_read hw hread hres
    obtain ⟨hnear, hzero⟩ := physicalValue_spec (by omega) hpos hmax data
    exact ⟨_, hnear, hzero, exec_bnrToPhys_of_bnr hread hres data⟩

/-! ### The conversions there and back (R154, R155) -/

/-- The field pattern of an integer of the signed range converts to the binary64 nearest its exact product
with the resolution, and that of 0 to +0.0. -/
theorem physicalValue_bnrField {rom : Rom} (hw : romWf rom = true) {code : Byte} {e : LabelEntry} {res : F64}
    (hread : romRead rom code = some e) (hres : e.encoding = .bnr res) {n : ℤ}
    (hn : inSignedRange e.width n = true) :
    IsNearestF64 ((n : ℚ) * F64.value res) (physicalValue e.width res (bnrField e.width n)) ∧
      (n = 0 → physicalValue e.width res (bnrField e.width n) = 0) := by
  obtain ⟨hwidth, hwidth', -, hpos, hmax⟩ := resolution_of_read hw hread hres
  have hspec := physicalValue_spec (by omega) hpos hmax (bnrField e.width n)
  rwa [bnrInteger_bnrField (by omega) hwidth' hn] at hspec

/-- An integer of the signed range times a resolution that is a power of two is the value of a finite
binary64 (R151). -/
theorem exists_finite_value_eq_mul {rom : Rom} (hw : romWf rom = true) {code : Byte} {e : LabelEntry}
    {res : F64} (hread : romRead rom code = some e) (hres : e.encoding = .bnr res) {n : ℤ}
    (hn : inSignedRange e.width n = true) (htwo : IsPowerOfTwo (F64.value res)) :
    ∃ y : F64, F64.isFinite y = true ∧ F64.value y = n * F64.value res := by
  obtain ⟨-, hwidth, -, hpos, hmax⟩ := resolution_of_read hw hread hres
  obtain ⟨hlo, hhi⟩ := inSignedRange_iff.1 hn
  obtain ⟨hlo', hhi'⟩ := bounds_of_inSignedRange hwidth hn
  have habs : |(n : ℚ)| ≤ 2 ^ (e.width - 1) := by
    exact_mod_cast (abs_le.2 ⟨hlo, by omega⟩ : |n| ≤ 2 ^ (e.width - 1))
  have hprod : |(n : ℚ) * F64.value res| ≤ maxFinite := by
    rw [abs_mul, abs_of_pos hpos, mul_comm]
    exact (mul_le_mul_of_nonneg_left habs hpos.le).trans hmax
  obtain ⟨k, hk⟩ := htwo
  rw [hk] at hprod ⊢
  exact exists_finite_value_eq (by omega) (le_of_value_eq_zpow hk) hprod

/-- Settles O31: the rounding of the quotient errs by at most a half, and a product with a power of two is the
value of a binary64, to which the nearest one is equal. -/
theorem quantizationErrsByAtMostHalfAStep : Obligations.QuantizationErrsByAtMostHalfAStep := by
  unfold Obligations.QuantizationErrsByAtMostHalfAStep
  intro s code x n e res hw hread hres hx
  obtain ⟨-, -, -, hpos, -⟩ := resolution_of_read hw hread hres
  obtain ⟨-, hround, hn⟩ := (quantize_eq_ok hpos).1 ((exec_bnrToField_eq_signedInt hread hres).1 hx)
  refine ⟨hround.abs_mul_sub_le hpos, fun htwo => ?_⟩
  obtain ⟨hnear, -⟩ := physicalValue_bnrField hw hread hres hn
  obtain ⟨y, hy, hvalue⟩ := exists_finite_value_eq_mul hw hread hres hn htwo
  exact ⟨_, exec_bnrToPhys_of_bnr hread hres _, hnear.1, hnear.value_eq hy hvalue⟩

/-- Settles O32: the quotient is the integer `n` itself, and the nearest binary64 to the product has the value
of `x`; only a zero has two patterns. -/
theorem exactMultiplesConvertExactly : Obligations.ExactMultiplesConvertExactly := by
  unfold Obligations.ExactMultiplesConvertExactly
  intro s code x n e res hw hread hres hx hvalue hlo hhi
  obtain ⟨-, -, -, hpos, -⟩ := resolution_of_read hw hread hres
  have hn : inSignedRange e.width n = true := inSignedRange_iff.2 ⟨hlo, hhi⟩
  obtain ⟨hnear, hzero⟩ := physicalValue_bnrField hw hread hres hn
  have hround : IsRounded s.tie (F64.value x / F64.value res) n := by
    rw [hvalue, mul_div_cancel_right₀ _ hpos.ne']
    exact isRounded_intCast s.tie n
  have hback := exec_bnrToPhys_of_bnr hread hres (bnrField e.width n)
  have hn0 : F64.value x = 0 → n = 0 := fun h => by
    rw [hvalue, mul_eq_zero_iff_right hpos.ne'] at h
    exact_mod_cast h
  refine ⟨(exec_bnrToField_eq_signedInt hread hres).2 ((quantize_eq_ok hpos).2 ⟨hx, hround, hn⟩),
    fun hne => ?_, fun heq => ?_⟩
  · have hsame : physicalValue e.width res (bnrField e.width n) = x := by
      by_cases h0 : F64.value x = 0
      · rw [hzero (hn0 h0), (eq_zero_of_value_eq_zero h0).resolve_right hne]
      · exact (eq_of_value_eq (hvalue.trans (hnear.value_eq hx hvalue).symm) h0).symm
    rw [hback, hsame]
  · have h0 : F64.value x = 0 := by
      rw [heq, value_eq]
      norm_num [lowBits, magnitude]
    rw [hback, hzero (hn0 h0)]

/-! ### The accepted range (R156) -/

/-- The values `v` that a width and a resolution of value `r` accept: the lower end is half a step below the
signed range, itself accepted with ties to even, and the upper end half a step above it, never accepted. -/
def AcceptedValue : Tie → Nat → ℚ → ℚ → Prop
  | .tiesToEven, width, r, v =>
    (-(2 : ℚ) ^ (width - 1) - 1 / 2) * r ≤ v ∧ v < ((2 : ℚ) ^ (width - 1) - 1 / 2) * r
  | .tiesAway, width, r, v =>
    (-(2 : ℚ) ^ (width - 1) - 1 / 2) * r < v ∧ v < ((2 : ℚ) ^ (width - 1) - 1 / 2) * r

/-- The two ends of the accepted values, the lower one as TIE says. -/
theorem acceptedValue_iff {tie : Tie} {width : Nat} {r v : ℚ} : AcceptedValue tie width r v ↔
    (tie = .tiesToEven ∧ (-(2 : ℚ) ^ (width - 1) - 1 / 2) * r ≤ v ∨
      tie = .tiesAway ∧ (-(2 : ℚ) ^ (width - 1) - 1 / 2) * r < v) ∧
    v < ((2 : ℚ) ^ (width - 1) - 1 / 2) * r := by
  cases tie with
  | tiesToEven => simp [AcceptedValue]
  | tiesAway => simp [AcceptedValue]

/-- The rounding of a quotient lies in the signed range exactly for an accepted value. -/
theorem inSignedRange_iff_acceptedValue {tie : Tie} {width : Nat} {v r : ℚ} {n : ℤ} (hw : 2 ≤ width)
    (hr : 0 < r) (h : IsRounded tie (v / r) n) :
    inSignedRange width n = true ↔ AcceptedValue tie width r v := by
  obtain ⟨p, hp⟩ : ∃ p : ℤ, (2 : ℤ) ^ (width - 1) = p := ⟨_, rfl⟩
  have hpos : 0 < p := hp ▸ by positivity
  have heven : p % 2 = 0 := by
    rw [← hp, show width - 1 = width - 2 + 1 by omega, pow_succ]
    exact Int.mul_emod_left _ _
  have hcast : (2 : ℚ) ^ (width - 1) = p := by exact_mod_cast hp
  have hneg : -(p : ℚ) = ((-p : ℤ) : ℚ) := by push_cast; rfl
  have hrange : inSignedRange width n = true ↔ ¬n < -p ∧ n < p := by
    rw [inSignedRange_iff, hp]
    omega
  cases tie with
  | tiesToEven =>
    rw [hrange, h.lt_iff_of_half_up (isRounded_half_of_even (by omega)),
      h.lt_iff_of_half_up (isRounded_half_of_even heven), not_lt, le_div_iff₀ hr, div_lt_iff₀ hr,
      AcceptedValue, hcast, hneg]
  | tiesAway =>
    rw [hrange, h.lt_iff_of_half_down (isRounded_half_of_nonpos (by omega)),
      h.lt_iff_of_half_up (isRounded_half_of_pos hpos), not_le, lt_div_iff₀ hr, div_lt_iff₀ hr,
      AcceptedValue, hcast, hneg]

/-- BNR_TO_FIELD of a BNR label answers an integer exactly for the accepted finite values. -/
theorem exec_bnrToField_accepts_iff {s : State} {code : Byte} {x : F64} {e : LabelEntry} {res : F64}
    (hw : romWf s.rom = true) (hread : romRead s.rom code = some e) (hres : e.encoding = .bnr res)
    (hx : F64.isFinite x = true) :
    (∃ n, exec (.bnrToField code x) s = .next (s.answered (.success (.signedInt n)))) ↔
      AcceptedValue s.tie e.width (F64.value res) (F64.value x) := by
  obtain ⟨hwidth, -, -, hpos, -⟩ := resolution_of_read hw hread hres
  simp only [exec_bnrToField_eq_signedInt hread hres]
  rcases quantize_cases s.tie e.width x hpos with ⟨hx', -⟩ | ⟨-, n, hn, hrange⟩
  · exact absurd (hx.symm.trans hx') Bool.noConfusion
  rw [← inSignedRange_iff_acceptedValue hwidth hpos hn]
  rcases hrange with ⟨hin, h⟩ | ⟨hout, h⟩
  · simp [hin, h]
  · simp [hout, h]

/-- The resolution of label 012 is 0.125 (R105). -/
theorem value_eighth : F64.value 0x3FC0000000000000 = 1 / 8 := by
  have hratio : F64.ratio 0x3FC0000000000000 = { num := 2 ^ 52, den := 2 ^ 55 } := by decide
  norm_num [← ratio_toRat, hratio, Ratio.toRat]

/-- The resolution of label 203 is 1.0 (R107). -/
theorem value_one : F64.value 0x3FF0000000000000 = 1 := by
  have hratio : F64.ratio 0x3FF0000000000000 = { num := 2 ^ 52, den := 2 ^ 52 } := by decide
  norm_num [← ratio_toRat, hratio, Ratio.toRat]

/-- Settles O33: the ends of the signed range are even integers, so the half next to each end rounds as TIE
says; the two default ranges are the general one for their widths and resolutions. -/
theorem acceptedPhysicalRange : Obligations.AcceptedPhysicalRange := by
  unfold Obligations.AcceptedPhysicalRange
  refine ⟨fun s code x e res hw hread hres hx => ?_, fun s x hrom hx => ?_⟩
  · rw [exec_bnrToField_accepts_iff hw hread hres hx]
    cases s.tie with
    | tiesToEven => rfl
    | tiesAway => rfl
  · have hw : romWf s.rom = true := hrom ▸ romWf_defaultRom
    have h012 : romRead s.rom 0o012 = some groundSpeed := by rw [hrom]; rfl
    have h203 : romRead s.rom 0o203 = some pressureAltitude := by rw [hrom]; rfl
    rw [exec_bnrToField_accepts_iff hw h012 rfl hx, exec_bnrToField_accepts_iff hw h203 rfl hx,
      value_eighth, value_one, acceptedValue_iff, acceptedValue_iff]
    norm_num [groundSpeed, pressureAltitude]

end Sys2Proof.Proofs

/-! PROOFS. The BCD Converter (R170 to R179): where the digits of a layout lie, what writing and reading a
calendar value does to them, and what the two operations answer. -/

namespace Sys2Proof.Proofs

open Sys2Proof.Machine

/-! ### The fields and the digit groups of a layout -/

theorem inRange_iff {f : FieldDesc} {v : Nat} : f.inRange v = true ↔ f.lo ≤ v ∧ v ≤ f.hi := by
  simp [FieldDesc.inRange]

theorem fits_iff {f : FieldDesc} {v : Nat} : f.fits v = true ↔ v / 10 < 2 ^ f.tw := by
  simp [FieldDesc.fits]

theorem digitsValid_iff {f : FieldDesc} {d : DataField} :
    f.digitsValid d = true ↔ grp d f.t f.tw ≤ 9 ∧ grp d f.u 4 ≤ 9 := by
  rw [FieldDesc.digitsValid, Bool.and_eq_true, decide_eq_true_eq, decide_eq_true_eq]
  rfl

theorem value_eq_digits (f : FieldDesc) (d : DataField) :
    f.value d = 10 * grp d f.t f.tw + grp d f.u 4 := rfl

/-- The two digit groups of a field, tens first (R170). -/
def fieldGroups (f : FieldDesc) : List (Nat × Nat) := [(f.t, f.tw), (f.u, 4)]

/-- The groups of a layout are those of its fields. -/
theorem groups_eq_flatMap (L : Layout) : L.groups = (fieldDescs L).flatMap fieldGroups := rfl

/-- The fields that a calendar value is written into are those of the layout. -/
theorem map_fst_fieldPairs (L : Layout) (c : Calendar) :
    (fieldPairs L c).map Prod.fst = fieldDescs L := rfl

theorem forall_fieldDescs_iff {L : Layout} (c : Calendar) {P : FieldDesc → Prop} :
    (∀ f ∈ fieldDescs L, P f) ↔ ∀ p ∈ fieldPairs L c, P p.1 := by
  rw [← map_fst_fieldPairs L c, List.forall_mem_map]

/-- The groups of a field lie in the data field and share no bit (R171). -/
structure Placed (f : FieldDesc) : Prop where
  tens : f.t + f.tw ≤ 19
  units : f.u + 4 ≤ 19
  apart : groupsApart (f.t, f.tw) (f.u, 4) = true

/-- No group of `f` shares a bit with a group of `g` (R171). -/
def FieldsApart (f g : FieldDesc) : Prop :=
  ∀ a ∈ fieldGroups f, ∀ b ∈ fieldGroups g, groupsApart a b = true

theorem FieldsApart.symm {f g : FieldDesc} (h : FieldsApart f g) : FieldsApart g f := fun a ha b hb => by
  simpa [groupsApart, or_comm] using h b hb a ha

/-- The fields of a well-formed layout are placed, and apart from each other. -/
theorem fields_placed_apart {L : Layout} {width : Nat} (hL : L.wf width = true) (hwidth : width ≤ 19) :
    (∀ f ∈ fieldDescs L, Placed f) ∧ (fieldDescs L).Pairwise FieldsApart := by
  obtain ⟨-, -, -, hinside, hapart⟩ := layoutFacts hL
  rw [groups_eq_flatMap] at hinside hapart
  obtain ⟨hown, hothers⟩ := List.pairwise_flatMap.1 hapart
  refine ⟨fun f hf => ?_, hothers⟩
  have hin : ∀ g ∈ fieldGroups f, g.1 + g.2 ≤ 19 := fun g hg =>
    (hinside g (List.mem_flatMap.2 ⟨f, hf, hg⟩)).trans hwidth
  exact ⟨hin (f.t, f.tw) (by simp [fieldGroups]), hin (f.u, 4) (by simp [fieldGroups]),
    List.rel_of_pairwise_cons (hown f hf) (List.mem_singleton_self _)⟩

/-! ### Writing the fields one after the other -/

/-- The two groups of `f` hold the digits of `v`. -/
def HoldsDigits (f : FieldDesc) (v : Nat) (d : DataField) : Prop :=
  grp d f.t f.tw = v / 10 ∧ grp d f.u 4 = v % 10

/-- The tens digit of the pair's value fits the pair's field, whose groups are placed. -/
structure Writable (p : FieldDesc × Nat) : Prop where
  placed : Placed p.1
  fits : p.2 / 10 < 2 ^ p.1.tw

/-- A field holds what was written into it. -/
theorem holdsDigits_write {p : FieldDesc × Nat} (hp : Writable p) (d : DataField) :
    HoldsDigits p.1 p.2 (p.1.write p.2 d) := by
  obtain ⟨⟨ht, hu, hd⟩, hfits⟩ := hp
  obtain ⟨htens, hunits, -⟩ := write_spec (d := d) ht hu hd hfits
  exact ⟨htens, hunits⟩

/-- A write of one field leaves the digits of a field apart from it alone. -/
theorem HoldsDigits.write_other {g : FieldDesc} {v : Nat} {d : DataField} (h : HoldsDigits g v d)
    {p : FieldDesc × Nat} (hp : Writable p) (hapart : FieldsApart p.1 g) :
    HoldsDigits g v (p.1.write p.2 d) := by
  obtain ⟨⟨ht, hu, hd⟩, hfits⟩ := hp
  obtain ⟨-, -, hother⟩ := write_spec (d := d) ht hu hd hfits
  simp only [FieldsApart, fieldGroups, List.forall_mem_cons, List.not_mem_nil, false_imp_iff,
    implies_true, and_true] at hapart
  obtain ⟨⟨htt, htu⟩, hut, huu⟩ := hapart
  exact ⟨(hother _ _ htt hut).trans h.1, (hother _ _ htu huu).trans h.2⟩

/-- Write each value into its field, in the order of the list (R175). -/
def writeFields : List (FieldDesc × Nat) → DataField → DataField
  | [], d => d
  | p :: ps, d => writeFields ps (p.1.write p.2 d)

/-- Writes of fields apart from `g` leave the digits of `g` alone. -/
theorem HoldsDigits.writeFields_other {g : FieldDesc} {v : Nat} {ps : List (FieldDesc × Nat)}
    (hps : ∀ p ∈ ps, Writable p ∧ FieldsApart p.1 g) {d : DataField} (h : HoldsDigits g v d) :
    HoldsDigits g v (writeFields ps d) := by
  induction ps generalizing d with
  | nil => exact h
  | cons p ps ih =>
    obtain ⟨⟨hp, hapart⟩, hps⟩ := List.forall_mem_cons.1 hps
    exact ih hps (h.write_other hp hapart)

/-- Every field of the list holds its own value after the writes: the later ones leave it alone. -/
theorem holdsDigits_writeFields {ps : List (FieldDesc × Nat)} (hps : ∀ p ∈ ps, Writable p)
    (hapart : ps.Pairwise fun p q => FieldsApart p.1 q.1) (d : DataField) :
    ∀ p ∈ ps, HoldsDigits p.1 p.2 (writeFields ps d) := by
  induction ps generalizing d with
  | nil => simp
  | cons p ps ih =>
    obtain ⟨hp, hps⟩ := List.forall_mem_cons.1 hps
    obtain ⟨hfirst, hapart⟩ := List.pairwise_cons.1 hapart
    refine List.forall_mem_cons.2 ⟨?_, ih hps hapart _⟩
    exact (holdsDigits_write hp d).writeFields_other fun q hq => ⟨hps q hq, (hfirst q hq).symm⟩

/-- The writes leave every bit outside the groups of the list's fields alone. -/
theorem getLsbD_writeFields {ps : List (FieldDesc × Nat)} (hps : ∀ p ∈ ps, Placed p.1) {i : Nat}
    (hi : ∀ p ∈ ps, ∀ g ∈ fieldGroups p.1, ¬(g.1 ≤ i ∧ i < g.1 + g.2)) (d : DataField) :
    (writeFields ps d).getLsbD i = d.getLsbD i := by
  induction ps generalizing d with
  | nil => rfl
  | cons p ps ih =>
    obtain ⟨hp, hps⟩ := List.forall_mem_cons.1 hps
    obtain ⟨hout, hi⟩ := List.forall_mem_cons.1 hi
    rw [writeFields, ih hps hi]
    exact getLsbD_write hp.tens hp.units (hout (p.1.t, p.1.tw) (by simp [fieldGroups]))
      (hout (p.1.u, 4) (by simp [fieldGroups]))

/-! ### Packing a calendar value (R175) -/

/-- Every field of the calendar value is in its legal range, and its tens digit fits (R175). -/
def Packable (L : Layout) (c : Calendar) : Prop :=
  ∀ p ∈ fieldPairs L c, p.1.lo ≤ p.2 ∧ p.2 ≤ p.1.hi ∧ p.2 / 10 < 2 ^ p.1.tw

theorem not_packable_iff {L : Layout} {c : Calendar} : ¬Packable L c ↔
    ∃ p ∈ fieldPairs L c, p.2 < p.1.lo ∨ p.1.hi < p.2 ∨ 2 ^ p.1.tw ≤ p.2 / 10 := by
  simp only [Packable, not_forall, exists_prop, not_and_or, not_le, not_lt]

/-- A calendar value that can be packed is written into an empty data field. -/
theorem packCalendar_of_packable {L : Layout} {c : Calendar} (h : Packable L c) :
    packCalendar L c = .ok (writeFields (fieldPairs L c) 0) := by
  rcases packCalendar_cases L c with ⟨⟨p, hp, hbad⟩, -⟩ | ⟨-, hok⟩
  · obtain ⟨hlo, hhi, hfits⟩ := h p hp
    exact absurd ⟨inRange_iff.2 ⟨hlo, hhi⟩, fits_iff.2 hfits⟩ hbad
  · exact hok

/-- Every other calendar value is OutOfRange. -/
theorem packCalendar_of_not_packable {L : Layout} {c : Calendar} (h : ¬Packable L c) :
    packCalendar L c = .error .outOfRange := by
  rcases packCalendar_cases L c with ⟨-, hraise⟩ | ⟨hgood, -⟩
  · exact hraise
  · refine absurd (fun p hp => ?_) h
    obtain ⟨hrange, hfits⟩ := hgood p hp
    obtain ⟨hlo, hhi⟩ := inRange_iff.1 hrange
    exact ⟨hlo, hhi, fits_iff.1 hfits⟩

/-- Only a calendar value that can be packed is. -/
theorem packable_of_packCalendar {L : Layout} {c : Calendar} {d : DataField}
    (h : packCalendar L c = .ok d) : Packable L c := by
  by_contra hbad
  cases (packCalendar_of_not_packable hbad).symm.trans h

/-- The digits of a calendar value packed into a well-formed layout, and the bits no group covers. -/
theorem packCalendar_spec {L : Layout} {width : Nat} (hL : L.wf width = true) (hwidth : width ≤ 19)
    {c : Calendar} {d : DataField} (h : packCalendar L c = .ok d) :
    (∀ p ∈ fieldPairs L c, HoldsDigits p.1 p.2 d) ∧ ∀ i, ¬Covered L i → d.getLsbD i = false := by
  have hgood := packable_of_packCalendar h
  obtain rfl := Except.ok.inj ((packCalendar_of_packable hgood).symm.trans h)
  obtain ⟨hplaced, hapart⟩ := fields_placed_apart hL hwidth
  rw [forall_fieldDescs_iff c] at hplaced
  rw [← map_fst_fieldPairs L c, List.pairwise_map] at hapart
  have hwritable : ∀ p ∈ fieldPairs L c, Writable p := fun p hp =>
    let ⟨_, _, hfits⟩ := hgood p hp
    ⟨hplaced p hp, hfits⟩
  refine ⟨holdsDigits_writeFields hwritable hapart 0, fun i hi => ?_⟩
  refine (getLsbD_writeFields hplaced (fun p hp g hg hbit => hi ⟨g, ?_, hbit⟩) 0).trans BitVec.getLsbD_zero
  rw [groups_eq_flatMap]
  exact List.mem_flatMap.2 ⟨p.1, map_fst_fieldPairs L c ▸ List.mem_map_of_mem hp, hg⟩

/-! ### Reading a calendar value (R176) -/

/-- Every digit group of the layout holds a decimal digit. -/
def DigitsValid (L : Layout) (d : DataField) : Prop :=
  ∀ f ∈ fieldDescs L, grp d f.t f.tw ≤ 9 ∧ grp d f.u 4 ≤ 9

theorem not_digitsValid_iff {L : Layout} {d : DataField} : ¬DigitsValid L d ↔
    ∃ f ∈ fieldDescs L, 9 < grp d f.t f.tw ∨ 9 < grp d f.u 4 := by
  simp only [DigitsValid, not_forall, exists_prop, not_and_or, not_le]

/-- Every field read is in its legal range. -/
def FieldsInRange (L : Layout) (d : DataField) : Prop :=
  ∀ f ∈ fieldDescs L, f.lo ≤ f.value d ∧ f.value d ≤ f.hi

theorem not_fieldsInRange_iff {L : Layout} {d : DataField} : ¬FieldsInRange L d ↔
    ∃ f ∈ fieldDescs L, f.value d < f.lo ∨ f.hi < f.value d := by
  simp only [FieldsInRange, not_forall, exists_prop, not_and_or, not_le]

/-- The answers of reading, in the words of R176. -/
theorem unpackCalendar_trichotomy (L : Layout) (d : DataField) :
    (¬DigitsValid L d ∧ unpackCalendar L d = .error .invalidDigit) ∨
      (DigitsValid L d ∧ ¬FieldsInRange L d ∧ unpackCalendar L d = .error .invalidField) ∨
      (DigitsValid L d ∧ FieldsInRange L d ∧ unpackCalendar L d = .ok
        { tag := L.tag, f1 := BitVec.ofNat 8 (L.f1.value d), f2 := BitVec.ofNat 8 (L.f2.value d),
          f3 := BitVec.ofNat 8 (L.f3.value d) }) := by
  have h := unpackCalendar_cases L d
  simp only [← Bool.not_eq_true, digitsValid_iff, inRange_iff] at h
  rcases h with ⟨⟨f, hf, hbad⟩, h⟩ | ⟨hdigits, ⟨f, hf, hbad⟩, h⟩ | ⟨hgood, h⟩
  · exact .inl ⟨fun hdigits => hbad (hdigits f hf), h⟩
  · exact .inr (.inl ⟨hdigits, fun hrange => hbad (hrange f hf), h⟩)
  · exact .inr (.inr ⟨fun f hf => (hgood f hf).1, fun f hf => (hgood f hf).2, h⟩)

theorem unpackCalendar_eq_invalidDigit {L : Layout} {d : DataField} :
    unpackCalendar L d = .error .invalidDigit ↔ ¬DigitsValid L d := by
  rcases unpackCalendar_trichotomy L d with ⟨hbad, h⟩ | ⟨hdigits, -, h⟩ | ⟨hdigits, -, h⟩
  · simp [h, hbad]
  · simp [h, hdigits]
  · simp [h, hdigits]

theorem unpackCalendar_eq_invalidField {L : Layout} {d : DataField} :
    unpackCalendar L d = .error .invalidField ↔ DigitsValid L d ∧ ¬FieldsInRange L d := by
  rcases unpackCalendar_trichotomy L d with ⟨hbad, h⟩ | ⟨hdigits, hbad, h⟩ | ⟨-, hrange, h⟩
  · simp [h, hbad]
  · simp [h, hdigits, hbad]
  · simp [h, hrange]

/-- A value up to the end of a well-formed field's range fits a byte (R170). -/
theorem toNat_ofNat_of_le_hi {f : FieldDesc} (hf : f.wf = true) {v : Nat} (hv : v ≤ f.hi) :
    (BitVec.ofNat 8 v).toNat = v := by
  obtain ⟨-, -, -, hhi⟩ := fieldDesc_wf_iff.1 hf
  rw [BitVec.toNat_ofNat, Nat.mod_eq_of_lt (by omega)]

/-- The calendar value has the layout's tag and the values of the layout's fields in the data field. -/
def ReadFrom (L : Layout) (d : DataField) (c : Calendar) : Prop :=
  c.tag = L.tag ∧ ∀ p ∈ fieldPairs L c, p.2 = p.1.value d

theorem readFrom_iff {L : Layout} {d : DataField} {c : Calendar} : ReadFrom L d c ↔ c.tag = L.tag ∧
    c.f1.toNat = L.f1.value d ∧ c.f2.toNat = L.f2.value d ∧ c.f3.toNat = L.f3.value d := by
  simp [ReadFrom, fieldPairs]

/-- A data field has at most one calendar value. -/
theorem ReadFrom.unique {L : Layout} {d : DataField} {c c' : Calendar} (h : ReadFrom L d c)
    (h' : ReadFrom L d c') : c = c' := by
  obtain ⟨htag, h1, h2, h3⟩ := readFrom_iff.1 h
  obtain ⟨htag', h1', h2', h3'⟩ := readFrom_iff.1 h'
  cases c
  rw [Calendar.mk.injEq]
  exact ⟨htag.trans htag'.symm, BitVec.eq_of_toNat_eq (h1.trans h1'.symm),
    BitVec.eq_of_toNat_eq (h2.trans h2'.symm), BitVec.eq_of_toNat_eq (h3.trans h3'.symm)⟩

/-- With a well-formed layout, valid digits and fields in range make a calendar value. -/
theorem unpackCalendar_of_valid {L : Layout} {width : Nat} (hL : L.wf width = true) {d : DataField}
    (hdigits : DigitsValid L d) (hrange : FieldsInRange L d) :
    ∃ c, unpackCalendar L d = .ok c ∧ ReadFrom L d c := by
  rcases unpackCalendar_trichotomy L d with ⟨hbad, -⟩ | ⟨-, hbad, -⟩ | ⟨-, -, h⟩
  · exact absurd hdigits hbad
  · exact absurd hrange hbad
  · obtain ⟨hf1, hf2, hf3, -, -⟩ := layoutFacts hL
    have hbyte : ∀ f ∈ fieldDescs L, f.wf = true → (BitVec.ofNat 8 (f.value d)).toNat = f.value d :=
      fun f hf hwf => toNat_ofNat_of_le_hi hwf (hrange f hf).2
    exact ⟨_, h, readFrom_iff.2 ⟨rfl, hbyte _ (by simp [fieldDescs]) hf1,
      hbyte _ (by simp [fieldDescs]) hf2, hbyte _ (by simp [fieldDescs]) hf3⟩⟩

/-- The two digits of a number make up the number. -/
theorem HoldsDigits.value_eq {f : FieldDesc} {v : Nat} {d : DataField} (h : HoldsDigits f v d) :
    f.value d = v := by
  obtain ⟨htens, hunits⟩ := h
  rw [value_eq_digits, htens, hunits, Nat.div_add_mod]

/-- Reading undoes packing (R178): the groups hold the digits of fields that are in range. -/
theorem unpackCalendar_of_packCalendar {L : Layout} {width : Nat} (hL : L.wf width = true)
    (hwidth : width ≤ 19) {c : Calendar} {d : DataField} (htag : c.tag = L.tag)
    (h : packCalendar L c = .ok d) : unpackCalendar L d = .ok c := by
  obtain ⟨hholds, -⟩ := packCalendar_spec hL hwidth h
  have hgood := packable_of_packCalendar h
  have hwf := (forall_fieldDescs_iff c).1 (layout_wf_iff.1 hL).1
  have hdigits : DigitsValid L d := (forall_fieldDescs_iff c).2 fun p hp => by
    obtain ⟨htens, hunits⟩ := hholds p hp
    obtain ⟨-, hhi, -⟩ := hgood p hp
    obtain ⟨-, -, -, h99⟩ := hwf p hp
    omega
  have hrange : FieldsInRange L d := (forall_fieldDescs_iff c).2 fun p hp => by
    obtain ⟨hlo, hhi, -⟩ := hgood p hp
    rw [(hholds p hp).value_eq]
    exact ⟨hlo, hhi⟩
  obtain ⟨c', hc', hread⟩ := unpackCalendar_of_valid hL hdigits hrange
  rw [hc', hread.unique ⟨htag, fun p hp => (hholds p hp).value_eq.symm⟩]

/-! ### What the two operations answer -/

/-- BCD_TO_FIELD answers exactly the data field it returns. -/
theorem exec_bcdToField_eq_data {s : State} {code : Byte} {c : Calendar} {d : DataField} :
    exec (.bcdToField code c) s = .next (s.answered (.success (.data d))) ↔
      bcdToField s.rom code c = .ok d := by
  rw [exec_eq_success, operation, map_eq_ok]
  simp

/-- BCD_TO_FIELD answers exactly the failure it raises. -/
theorem exec_bcdToField_eq_failure {s : State} {code : Byte} {c : Calendar} {f : Failure} :
    exec (.bcdToField code c) s = .next (s.answered (.failure f)) ↔
      bcdToField s.rom code c = .error f := exec_eq_failure.trans map_eq_error

/-- BCD_TO_CAL answers exactly the calendar value it returns. -/
theorem exec_bcdToCal_eq_calendar {s : State} {code : Byte} {d : DataField} {c : Calendar} :
    exec (.bcdToCal code d) s = .next (s.answered (.success (.calendar c))) ↔
      bcdToCal s.rom code d = .ok c := by
  rw [exec_eq_success, operation, map_eq_ok]
  simp

/-- BCD_TO_CAL answers exactly the failure it raises. -/
theorem exec_bcdToCal_eq_failure {s : State} {code : Byte} {d : DataField} {f : Failure} :
    exec (.bcdToCal code d) s = .next (s.answered (.failure f)) ↔
      bcdToCal s.rom code d = .error f := exec_eq_failure.trans map_eq_error

/-- An operation that reads an entry and its layout raises UnsupportedConversion for a label that is not
BCD. -/
theorem bind_bcdLayout_of_not_bcd {rom : Rom} {code : Byte} {e : LabelEntry}
    (hread : romRead rom code = some e) (hk : e.kind ≠ .bcd) {α : Type}
    {g : LabelEntry → Layout → Except Failure α} :
    (resolve rom code >>= fun e => bcdLayout e >>= g e) = .error .unsupportedConversion := by
  rw [bind_resolve hread]
  exact bind_eq_error.2 (.inl (bcdLayout_of_not_bcd hk))

section bcdLabel

variable {rom : Rom} {code : Byte} {e : LabelEntry} {L : Layout}
variable (hread : romRead rom code = some e) (henc : e.encoding = .bcd L)
include hread henc

/-- BCD_TO_FIELD of a BCD label packs a calendar value of the layout's tag and no other. -/
theorem bcdToField_of_bcd (c : Calendar) : bcdToField rom code c =
    if c.tag = L.tag then packCalendar L c else .error .unsupportedConversion := by
  rw [bcdToField, bind_resolve hread, bcdLayout_of_bcd henc]
  rfl

/-- BCD_TO_FIELD of a BCD label writes a packable calendar value of the layout's tag. -/
theorem bcdToField_of_packable {c : Calendar} (htag : c.tag = L.tag) (h : Packable L c) :
    bcdToField rom code c = .ok (writeFields (fieldPairs L c) 0) := by
  rw [bcdToField_of_bcd hread henc, if_pos htag, packCalendar_of_packable h]

/-- BCD_TO_FIELD of a BCD label raises OutOfRange for any other calendar value of the layout's tag. -/
theorem bcdToField_of_not_packable {c : Calendar} (htag : c.tag = L.tag) (h : ¬Packable L c) :
    bcdToField rom code c = .error .outOfRange := by
  rw [bcdToField_of_bcd hread henc, if_pos htag, packCalendar_of_not_packable h]

/-- BCD_TO_CAL of a BCD label reads the data field with its layout. -/
theorem bcdToCal_of_bcd (d : DataField) : bcdToCal rom code d = unpackCalendar L d := by
  rw [bcdToCal, bind_resolve hread, bcdLayout_of_bcd henc]
  rfl

end bcdLabel

/-- BCD_TO_FIELD returns what packing returns, for a BCD label whose layout has the value's tag, and nothing
for any other label. -/
theorem bcdToField_eq_ok {rom : Rom} {code : Byte} {c : Calendar} {d : DataField}
    (h : bcdToField rom code c = .ok d) : ∃ e L, romRead rom code = some e ∧ e.encoding = .bcd L ∧
      c.tag = L.tag ∧ packCalendar L c = .ok d := by
  obtain ⟨e, he, h⟩ := bind_eq_ok.1 h
  obtain ⟨L, hL, h⟩ := bind_eq_ok.1 h
  split at h
  case isTrue htag => exact ⟨e, L, resolve_eq_ok.1 he, bcdLayout_eq_ok.1 hL, htag, h⟩
  case isFalse => cases h

/-! ### The statements about the two operations -/

/-- Settles O35: the label, its kind and the tag are looked at first; then a calendar value is packable, and
its digits stand in the groups, or it is OutOfRange. -/
theorem bcdToFieldPacksTheDigits : Obligations.BcdToFieldPacksTheDigits := by
  unfold Obligations.BcdToFieldPacksTheDigits
  refine ⟨fun f hr hop hC => ?_, fun s code c hw => ⟨fun habsent => ?_, fun e hread hk => ?_,
    fun e L hread henc htag => ?_, fun e L hread henc htag hbad => ?_,
    fun e L hread henc htag hgood => ?_⟩⟩
  · rw [decode_bcdToField hr hop, Frame.calendarOperand, if_pos hC]
    rfl
  · exact exec_bcdToField_eq_failure.2 (bind_resolve_of_none habsent)
  · exact exec_bcdToField_eq_failure.2 (bind_bcdLayout_of_not_bcd hread hk)
  · rw [exec_bcdToField_eq_failure, bcdToField_of_bcd hread henc, if_neg htag]
  · exact exec_bcdToField_eq_failure.2
      (bcdToField_of_not_packable hread henc htag (not_packable_iff.2 hbad))
  · obtain ⟨-, hwidth⟩ := width_of_read hw hread
    obtain ⟨hholds, huncovered⟩ :=
      packCalendar_spec (bcd_of_read hw hread henc) hwidth (packCalendar_of_packable hgood)
    exact ⟨_, hholds, huncovered,
      exec_bcdToField_eq_data.2 (bcdToField_of_packable hread henc htag hgood)⟩

/-- Settles O36: the label and its kind are looked at first; then a digit is invalid, or a field out of range,
or the data field makes a calendar value. -/
theorem bcdToCalReadsTheDigits : Obligations.BcdToCalReadsTheDigits := by
  unfold Obligations.BcdToCalReadsTheDigits
  refine ⟨fun f hr hop hA => ?_, fun s code d hw => ⟨fun habsent => ?_, fun e hread hk => ?_,
    fun e L hread henc hbad => ?_, fun e L hread henc hdigits hbad => ?_,
    fun e L hread henc hgood => ?_⟩⟩
  · rw [decode_bcdToCal hr hop, Frame.dataOperand, if_pos hA]
    rfl
  · exact exec_bcdToCal_eq_failure.2 (bind_resolve_of_none habsent)
  · exact exec_bcdToCal_eq_failure.2 (bind_bcdLayout_of_not_bcd hread hk)
  · rw [exec_bcdToCal_eq_failure, bcdToCal_of_bcd hread henc]
    exact unpackCalendar_eq_invalidDigit.2 (not_digitsValid_iff.2 hbad)
  · rw [exec_bcdToCal_eq_failure, bcdToCal_of_bcd hread henc]
    exact unpackCalendar_eq_invalidField.2 ⟨hdigits, not_fieldsInRange_iff.2 hbad⟩
  · have hdigits : DigitsValid L d := fun f hf =>
      let ⟨htens, hunits, _⟩ := hgood f hf
      ⟨htens, hunits⟩
    have hrange : FieldsInRange L d := fun f hf => (hgood f hf).2.2
    obtain ⟨c, hc, htag, hvalues⟩ := unpackCalendar_of_valid (bcd_of_read hw hread henc) hdigits hrange
    exact ⟨c, htag, hvalues, exec_bcdToCal_eq_calendar.2 ((bcdToCal_of_bcd hread henc d).trans hc)⟩

/-- Settles O37: both operations use the layout of the same label, and reading undoes packing. -/
theorem calendarsGoRound : Obligations.CalendarsGoRound := by
  unfold Obligations.CalendarsGoRound
  intro s code c d hw h
  obtain ⟨e, L, hread, henc, htag, hpack⟩ := bcdToField_eq_ok (exec_bcdToField_eq_data.1 h)
  obtain ⟨-, hwidth⟩ := width_of_read hw hread
  rw [exec_bcdToCal_eq_calendar, bcdToCal_of_bcd hread henc]
  exact unpackCalendar_of_packCalendar (bcd_of_read hw hread henc) hwidth htag hpack

/-! ### InvalidDigit (R179) -/

/-- A digit group that holds 10 or more has 4 bits or more. -/
theorem four_le_of_ten_le_grp {d : DataField} {p n : Nat} (h : 10 ≤ grp d p n) : 4 ≤ n := by
  have hlt := grp_lt d p n
  by_contra hn
  have hpow : 2 ^ n ≤ 2 ^ 3 := Nat.pow_le_pow_right (by decide) (by omega)
  omega

/-- No digit group of a well-formed layout has more than 4 bits (R170). -/
theorem groups_width_le {L : Layout} {width : Nat} (hL : L.wf width = true) : ∀ g ∈ L.groups, g.2 ≤ 4 := by
  obtain ⟨hfields, -, -⟩ := layout_wf_iff.1 hL
  rw [groups_eq_flatMap, List.forall_mem_flatMap]
  intro f hf
  obtain ⟨-, htw, -, -⟩ := hfields f hf
  simp [fieldGroups, htw]

/-- With a well-formed layout a digit is invalid exactly when a group of 4 bits holds 10 or more. -/
theorem not_digitsValid_iff_nibble {L : Layout} {width : Nat} (hL : L.wf width = true) {d : DataField} :
    ¬DigitsValid L d ↔ ∃ g ∈ L.groups, g.2 = 4 ∧ 10 ≤ grp d g.1 g.2 := by
  have hgroups : DigitsValid L d ↔ ∀ g ∈ L.groups, grp d g.1 g.2 ≤ 9 := by
    rw [groups_eq_flatMap, List.forall_mem_flatMap]
    simp [DigitsValid, fieldGroups]
  simp only [hgroups, not_forall, exists_prop, not_le, Nat.lt_iff_add_one_le]
  refine exists_congr fun g => and_congr_right fun hg => (and_iff_right_of_imp fun hten => ?_).symm
  exact (groups_width_le hL g hg).antisymm (four_le_of_ten_le_grp hten)

/-- An operation that begins with UNPACK's goes on with the fields of a word of odd parity. -/
theorem bind_unpackWord_of_odd {w : Word} (h : popcount w % 2 = 1) {α : Type}
    {g : WireFields → Except Failure α} : unpackWord w >>= g =
      g { code := reverse8 (w.extractLsb' 0 8), sdi := w.extractLsb' 8 2,
          data := w.extractLsb' 10 19, ssm := w.extractLsb' 29 2 } := by
  rcases unpackWord_cases w with ⟨heven, -⟩ | ⟨-, hok⟩
  · omega
  · rw [hok]
    rfl

/-- DECODE of a word of odd parity with a BCD label raises what reading its data field raises (R220). -/
theorem decodeWord_eq_error_of_bcd {rom : Rom} {T : SsmTable} {w : Word} {e : LabelEntry} {L : Layout}
    (hodd : popcount w % 2 = 1) (hread : romRead rom (reverse8 (w.extractLsb' 0 8)) = some e)
    (henc : e.encoding = .bcd L) {f : Failure} :
    decodeWord rom T w = .error f ↔ unpackCalendar L (w.extractLsb' 10 19) = .error f := by
  rw [decodeWord, bind_unpackWord_of_odd hodd, bind_resolve hread, henc, decodedCalendar, bind_eq_error,
    map_eq_error]
  simp

/-- Settles O39: both operations raise InvalidDigit exactly when reading does. -/
theorem onlyFullNibblesRaiseInvalidDigit : Obligations.OnlyFullNibblesRaiseInvalidDigit := by
  unfold Obligations.OnlyFullNibblesRaiseInvalidDigit
  refine ⟨fun s code d e L hw hread henc => ?_, fun s w e L hw hodd hread henc => ?_, rfl, rfl⟩
  · rw [exec_bcdToCal_eq_failure, bcdToCal_of_bcd hread henc, unpackCalendar_eq_invalidDigit,
      not_digitsValid_iff_nibble (bcd_of_read hw hread henc)]
  · rw [exec_eq_failure, operation, map_eq_error, decodeWord_eq_error_of_bcd hodd hread henc,
      unpackCalendar_eq_invalidDigit, not_digitsValid_iff_nibble (bcd_of_read hw hread henc)]

/-! ### The default layouts (R172, R173, R177) -/

/-- Settles O34: the positions and the ranges are the two layouts' own; that 19 bits are covered is a
finite check. -/
theorem defaultLayoutsAreTheSpecs : Obligations.DefaultLayoutsAreTheSpecs := by
  unfold Obligations.DefaultLayoutsAreTheSpecs
  refine ⟨fun d => ⟨rfl, rfl, rfl, rfl, rfl, rfl, rfl, rfl, rfl, rfl, rfl, rfl⟩, fun v => ?_, ?_⟩
  · simp [inRange_iff, dateLayout, timeLayout]
  · unfold Covered
    decide

theorem packable_dateLayout_iff {a b c : Byte} :
    Packable dateLayout { tag := .date, f1 := a, f2 := b, f3 := c } ↔
      (1 ≤ a.toNat ∧ a.toNat ≤ 31) ∧ (1 ≤ b.toNat ∧ b.toNat ≤ 12) ∧ c.toNat ≤ 99 := by
  simp only [Packable, fieldPairs, dateLayout, List.forall_mem_cons, List.not_mem_nil, false_imp_iff,
    implies_true, and_true]
  omega

/-- The one tens bit of the hour ends the hours at 19. -/
theorem packable_timeLayout_iff {a b c : Byte} :
    Packable timeLayout { tag := .time, f1 := a, f2 := b, f3 := c } ↔
      a.toNat ≤ 19 ∧ b.toNat ≤ 59 ∧ c.toNat ≤ 59 := by
  simp only [Packable, fieldPairs, timeLayout, List.forall_mem_cons, List.not_mem_nil, false_imp_iff,
    implies_true, and_true]
  omega

/-- Settles O38: a packable calendar value of the default label's layout is answered with its field, any other
one OutOfRange. -/
theorem representableCalendarsOfTheDefaults : Obligations.RepresentableCalendarsOfTheDefaults := by
  unfold Obligations.RepresentableCalendarsOfTheDefaults
  intro s a b c hrom
  have hdate : romRead s.rom 0o260 = some dateEntry := by rw [hrom]; rfl
  have htime : romRead s.rom 0o150 = some utcTime := by rw [hrom]; rfl
  refine ⟨fun ha ha' hb hb' hc => ?_, fun ha hb hc => ?_, fun ha ha' hb hc => ⟨?_, ?_, ?_⟩⟩
  · exact ⟨_, exec_bcdToField_eq_data.2 (bcdToField_of_packable hdate rfl rfl
      (packable_dateLayout_iff.2 ⟨⟨ha, ha'⟩, ⟨hb, hb'⟩, hc⟩))⟩
  · exact ⟨_, exec_bcdToField_eq_data.2 (bcdToField_of_packable htime rfl rfl
      (packable_timeLayout_iff.2 ⟨ha, hb, hc⟩))⟩
  · exact inRange_iff.2 ⟨Nat.zero_le _, ha'⟩
  · rw [← Bool.not_eq_true, fits_iff]
    simp only [timeLayout]
    omega
  · refine exec_bcdToField_eq_failure.2 (bcdToField_of_not_packable htime rfl rfl fun h => ?_)
    obtain ⟨h19, -⟩ := packable_timeLayout_iff.1 h
    omega

end Sys2Proof.Proofs

/-! PROOFS. The SSM Interpreter (R200 to R203): the table it reads, and the SSM code on its way through the
words. -/

namespace Sys2Proof.Proofs

open Sys2Proof.Machine

/-! ### SSM_INTERPRET -/

/-- The SSM operand of a request is the low two bits of `H.ssm`, if the others are 0 (R78). -/
theorem ssmOperand_of_high_eq_zero {f : Frame} (h : f.ssm.extractLsb' 2 6 = 0) :
    f.ssmOperand = .ok (f.ssm.extractLsb' 0 2) := if_pos h

/-- The status of SSM code `i` is entry `i` of the kind's column of the table (R200). -/
theorem ssmStatus_ofNat (T : SsmTable) (k : Kind) {i : Nat} (h : i < 4) :
    ssmStatus T k (BitVec.ofNat 2 i) = (ssmColumn T k)[i] := by
  have hi : (BitVec.ofNat 2 i).toNat = i := Nat.mod_eq_of_lt h
  simp only [ssmStatus, hi]

/-- Settles O40: the operation resolves its code and reads the column of the entry's kind. -/
theorem ssmInterpretReadsTheTable : Obligations.SsmInterpretReadsTheTable := by
  unfold Obligations.SsmInterpretReadsTheTable
  refine ⟨fun f hr hop hhigh => ?_, fun s code ssm => ⟨fun h => ?_, fun e h => ?_, fun i hi => ?_⟩⟩
  · rw [decode_ssmInterpret hr hop, ssmOperand_of_high_eq_zero hhigh]
    rfl
  · exact exec_eq_failure.2 (map_resolve_of_none h _)
  · exact exec_eq_success.2 (map_resolve_of_some h _)
  · exact ⟨ssmStatus_ofNat _ .bnr hi, ssmStatus_ofNat _ .bcd hi, ssmStatus_ofNat _ .discrete hi⟩

/-! ### The SSM code of a word (R203) -/

/-- An assembled word holds in bits 30..29 an SSM operand that passed the range check (R68). -/
theorem toNat_ssm_assembleWord (code : Byte) (sdi : BitVec 2) (data : DataField) {ssm : Byte}
    (h : ssm.toNat < 4) :
    ((assembleWord code sdi data (ssm.setWidth 2)).extractLsb' 29 2).toNat = ssm.toNat := by
  obtain ⟨-, -, -, hssm, -⟩ := assembleWord_holds code sdi data (ssm.setWidth 2)
  rw [hssm, toNat_setWidth_of_lt (k := 2) h le_rfl]

/-- Which words ENCODE returns: the operands in range are assembled with the data field of a value that suits
the label (R210, R211). -/
theorem encodeWord_eq_ok {rom : Rom} {tie : Tie} {code sdi ssm : Byte} {v : Value} {w : Word} :
    encodeWord rom tie code sdi v ssm = .ok w ↔ ∃ e, romRead rom code = some e ∧
      valueSuits e.encoding v = true ∧ sdi.toNat < 4 ∧ ssm.toNat < 4 ∧
      ∃ data, valueField tie e.width e.encoding v = .ok data ∧
        assembleWord code (sdi.setWidth 2) data (ssm.setWidth 2) = w := by
  simp only [encodeWord, bind_eq_ok, resolve_eq_ok]
  refine exists_congr fun e => and_congr_right fun _ => ?_
  by_cases hsuits : valueSuits e.encoding v = true
  · by_cases hsdi : sdi.toNat < 4
    · by_cases hssm : ssm.toNat < 4
      · simp [hsuits, hsdi, hssm, Nat.not_le.2 hsdi, Nat.not_le.2 hssm, map_eq_ok]
      · simp [hsuits, hsdi, hssm, Nat.not_lt.1 hssm]
    · simp [hsuits, hsdi, Nat.not_lt.1 hsdi]
  · simp [hsuits]

/-- The record DECODE returns holds the fields UNPACK returns (R220). -/
theorem decodeWord_fields {rom : Rom} {T : SsmTable} {w : Word} {d : DecodedWord}
    (h : decodeWord rom T w = .ok d) :
    ∃ f, unpackWord w = .ok f ∧ d.sdi = f.sdi ∧ d.data = f.data ∧ d.ssm = f.ssm := by
  obtain ⟨f, hf, h⟩ := bind_eq_ok.1 h
  obtain ⟨e, -, h⟩ := bind_eq_ok.1 h
  obtain ⟨cal, -, ⟨⟩⟩ := bind_eq_ok.1 h
  exact ⟨f, hf, rfl, rfl, rfl⟩

/-- Settles O41: PACK and ENCODE return assembled words with an SSM code in range, and UNPACK's fields, which
DECODE passes on, are the bits of the word. -/
theorem ssmCodeIsCarriedUnchanged : Obligations.SsmCodeIsCarriedUnchanged := by
  unfold Obligations.SsmCodeIsCarriedUnchanged
  refine fun s w => ⟨fun code sdi data ssm h => ?_, fun code sdi v ssm h => ?_, fun f h => ?_,
    fun d h => ?_⟩
  · obtain ⟨-, -, -, -, hssm, rfl⟩ := packWord_eq_ok.1 (exec_pack_eq_word.1 h)
    exact toNat_ssm_assembleWord code _ _ hssm
  · obtain ⟨w', hencode, ⟨⟩⟩ := map_eq_ok.1 (exec_eq_success.1 h)
    obtain ⟨-, -, -, -, hssm, data, -, rfl⟩ := encodeWord_eq_ok.1 hencode
    exact toNat_ssm_assembleWord code _ _ hssm
  · rw [unpackWord_eq_ok (exec_unpack_eq_fields.1 h)]
  · obtain ⟨d', hdecode, ⟨⟩⟩ := map_eq_ok.1 (exec_eq_success.1 h)
    obtain ⟨f, hf, -, -, hssm⟩ := decodeWord_fields hdecode
    rw [hssm, unpackWord_eq_ok hf]

end Sys2Proof.Proofs

/-! PROOFS. ENCODE (R210, R211): its value operand, its checks in order, the data field of each form of value,
and the word. -/

namespace Sys2Proof.Proofs

open Sys2Proof.Machine

/-! ### The value and the label (R211) -/

/-- The model's check of a value against the label's encoding is R211's. -/
theorem valueSuits_iff {e : LabelEntry} {v : Value} : valueSuits e.encoding v = true ↔ Suits e v := by
  cases v with
  | physical x =>
    rw [Suits, kind_bnr_iff]
    cases e.encoding <;> simp [valueSuits]
  | calendar c =>
    rw [Suits]
    cases e.encoding <;> simp [valueSuits]
  | raw r =>
    rw [Suits]
    cases e.encoding <;> simp [valueSuits]

/-- A physical value suits a BNR label. -/
theorem suits_physical {e : LabelEntry} {res : F64} (henc : e.encoding = .bnr res) (x : F64) :
    Suits e (.physical x) := kind_bnr_iff.2 ⟨res, henc⟩

/-- A calendar value suits a BCD label whose layout has its tag. -/
theorem suits_calendar {e : LabelEntry} {L : Layout} (henc : e.encoding = .bcd L) {c : Calendar}
    (htag : c.tag = L.tag) : Suits e (.calendar c) := ⟨L, henc, htag⟩

/-- A raw value suits every label. -/
theorem suits_raw (e : LabelEntry) (r : Word) : Suits e (.raw r) := trivial

/-! ### The data field of a value (R210) -/

/-- A raw value is its own data field, if it fits the width. -/
theorem rawField_of_lt {width : Nat} {r : Word} (h : r.toNat < 2 ^ width) :
    rawField width r = .ok (r.setWidth 19) := if_neg (Nat.not_le.2 h)

/-- A raw value that does not fit the width is OutOfRange. -/
theorem rawField_of_le {width : Nat} {r : Word} (h : 2 ^ width ≤ r.toNat) :
    rawField width r = .error .outOfRange := if_pos h

/-- A raw value is taken as it is under every kind of label. -/
theorem valueField_raw (tie : Tie) (width : Nat) (enc : Encoding) (r : Word) :
    valueField tie width enc (.raw r) = rawField width r := by
  cases enc <;> rfl

/-- A physical value under a BNR label is quantized. -/
theorem valueField_physical {e : LabelEntry} {res : F64} (henc : e.encoding = .bnr res) (tie : Tie) (x : F64) :
    valueField tie e.width e.encoding (.physical x) =
      (quantize tie e.width res x).map (bnrField e.width) := by
  rw [henc]
  rfl

/-- A calendar value under a BCD label is packed. -/
theorem valueField_calendar {e : LabelEntry} {L : Layout} (henc : e.encoding = .bcd L) (tie : Tie)
    (c : Calendar) : valueField tie e.width e.encoding (.calendar c) = packCalendar L c := by
  rw [henc]
  rfl

/-! ### What ENCODE answers -/

/-- ENCODE answers exactly the word it returns. -/
theorem exec_encode_eq_word {s : State} {code sdi ssm : Byte} {v : Value} {w : Word} :
    exec (.encode code sdi v ssm) s = .next (s.answered (.success (.word w))) ↔
      encodeWord s.rom s.tie code sdi v ssm = .ok w := by
  rw [exec_eq_success, operation, map_eq_ok]
  simp

/-- ENCODE answers exactly the failure it raises. -/
theorem exec_encode_eq_failure {s : State} {code sdi ssm : Byte} {v : Value} {f : Failure} :
    exec (.encode code sdi v ssm) s = .next (s.answered (.failure f)) ↔
      encodeWord s.rom s.tie code sdi v ssm = .error f := exec_eq_failure.trans map_eq_error

section label

variable {s : State} {code sdi ssm : Byte} {e : LabelEntry} {v : Value}
variable (hread : romRead s.rom code = some e)
include hread

/-- A value that does not suit the label is turned away before sdi and ssm are looked at. -/
theorem encodeWord_of_not_suits (h : ¬Suits e v) :
    encodeWord s.rom s.tie code sdi v ssm = .error .unsupportedConversion := by
  rw [← valueSuits_iff] at h
  rw [encodeWord, bind_resolve hread, if_pos (by simpa using h)]

variable (hsuits : Suits e v)
include hsuits

/-- With a value that suits the label, an sdi or an ssm of 4 or more is OutOfRange. -/
theorem encodeWord_of_wide_operand (h : 4 ≤ sdi.toNat ∨ 4 ≤ ssm.toNat) :
    encodeWord s.rom s.tie code sdi v ssm = .error .outOfRange := by
  rw [encodeWord, bind_resolve hread, if_neg (by simpa using valueSuits_iff.2 hsuits)]
  rcases h with hsdi | hssm
  · rw [if_pos hsdi]
  · rw [if_pos hssm, ite_self]

variable (hsdi : sdi.toNat < 4) (hssm : ssm.toNat < 4)
include hsdi hssm

/-- ENCODE answers a word that holds its operands and the value's data field. -/
theorem exec_encode_of_field {data : DataField}
    (h : valueField s.tie e.width e.encoding v = .ok data) :
    ∃ w, WordHolds w code sdi.toNat data.toNat ssm.toNat ∧
      exec (.encode code sdi v ssm) s = .next (s.answered (.success (.word w))) := by
  have hholds := assembleWord_holds code (sdi.setWidth 2) data (ssm.setWidth 2)
  rw [toNat_setWidth_of_lt (k := 2) hsdi le_rfl, toNat_setWidth_of_lt (k := 2) hssm le_rfl] at hholds
  exact ⟨_, hholds, exec_encode_eq_word.2
    (encodeWord_eq_ok.2 ⟨e, hread, valueSuits_iff.2 hsuits, hsdi, hssm, data, h, rfl⟩)⟩

/-- ENCODE answers the failure that the conversion of its value raises. -/
theorem exec_encode_of_field_error {f : Failure}
    (h : valueField s.tie e.width e.encoding v = .error f) :
    exec (.encode code sdi v ssm) s = .next (s.answered (.failure f)) := by
  rw [exec_encode_eq_failure, encodeWord, bind_resolve hread,
    if_neg (by simpa using valueSuits_iff.2 hsuits), if_neg (Nat.not_le.2 hsdi),
    if_neg (Nat.not_le.2 hssm), h]
  rfl

end label

/-- Settles O42: the label, the value's kind, sdi and ssm are looked at first; then the value's own conversion
decides between OutOfRange and a word that holds its data field. -/
theorem encodeConvertsAndAssembles : Obligations.EncodeConvertsAndAssembles := by
  unfold Obligations.EncodeConvertsAndAssembles
  refine ⟨fun f hr hop => ⟨fun ht => ?_, fun ht hC => ?_, fun ht => ?_, fun ht => ⟨.valueTag, ?_⟩⟩,
    fun s code sdi ssm v hw => ⟨fun habsent => ?_, fun e hread hbad => ?_,
      fun e hread hsuits hwide => ?_⟩,
    fun s code sdi ssm e hw hread hsdi hssm => ?_⟩
  · rw [decode_encode hr hop, valueOperand_physical ht]
    rfl
  · rw [decode_encode hr hop, valueOperand_calendar ht, Frame.calendarOperand, if_pos hC]
    rfl
  · rw [decode_encode hr hop, valueOperand_raw ht]
    rfl
  · rw [decode_encode hr hop, valueOperand_reserved ht]
    rfl
  · exact exec_encode_eq_failure.2 (bind_resolve_of_none habsent)
  · exact exec_encode_eq_failure.2 (encodeWord_of_not_suits hread hbad)
  · exact exec_encode_eq_failure.2 (encodeWord_of_wide_operand hread hsuits hwide)
  obtain ⟨-, hwidth⟩ := width_of_read hw hread
  refine ⟨fun x res henc hx => ?_, fun x res henc hx => ?_, fun c L henc htag =>
    ⟨fun hbad => ?_, fun hgood => ?_⟩, fun r hr => ?_, fun r hr => ?_⟩
  · refine exec_encode_of_field_error hread (suits_physical henc x) hsdi hssm ?_
    rw [valueField_physical henc, map_eq_error]
    simp [quantize, hx]
  · obtain ⟨-, -, -, hpos, -⟩ := resolution_of_read hw hread henc
    have hsuits := suits_physical henc x
    rcases quantize_cases s.tie e.width x hpos with ⟨hx', -⟩ | ⟨-, n, hn, ⟨hin, h⟩ | ⟨hout, h⟩⟩
    · exact absurd (hx.symm.trans hx') Bool.noConfusion
    · obtain ⟨hlo, hhi⟩ := inSignedRange_iff.1 hin
      obtain ⟨w, hholds, hexec⟩ := exec_encode_of_field hread hsuits hsdi hssm
        ((valueField_physical henc s.tie x).trans (map_eq_ok.2 ⟨n, h, rfl⟩))
      exact ⟨n, hn, fun _ => ⟨w, _, bnrField_toNat hwidth n, hholds, hexec⟩, fun _ => by omega⟩
    · refine ⟨n, hn, fun hin => absurd (inSignedRange_iff.2 hin) (Bool.eq_false_iff.1 hout), fun _ => ?_⟩
      exact exec_encode_of_field_error hread hsuits hsdi hssm
        ((valueField_physical henc s.tie x).trans (map_eq_error.2 h))
  · refine exec_encode_of_field_error hread (suits_calendar henc htag) hsdi hssm ?_
    rw [valueField_calendar henc, packCalendar_of_not_packable (not_packable_iff.2 hbad)]
  · have hpack := packCalendar_of_packable hgood
    obtain ⟨hdigits, huncovered⟩ := packCalendar_spec (bcd_of_read hw hread henc) hwidth hpack
    obtain ⟨w, hholds, hexec⟩ := exec_encode_of_field hread (suits_calendar henc htag) hsdi hssm
      ((valueField_calendar henc s.tie c).trans hpack)
    exact ⟨w, _, hdigits, huncovered, hholds, hexec⟩
  · have hfield : valueField s.tie e.width e.encoding (.raw r) = .ok (r.setWidth 19) := by
      rw [valueField_raw, rawField_of_lt hr]
    rw [← toNat_setWidth_of_lt hr hwidth]
    exact exec_encode_of_field hread (suits_raw e r) hsdi hssm hfield
  · refine exec_encode_of_field_error hread (suits_raw e r) hsdi hssm ?_
    rw [valueField_raw, rawField_of_le hr]

end Sys2Proof.Proofs

/-! PROOFS. DECODE and TO_PHYSICAL (R220 to R222): the record of a word, and the physical value with its
units. -/

namespace Sys2Proof.Proofs

open Sys2Proof.Machine

/-! ### The record of a word (R221) -/

/-- The record DECODE fills from the fields of a word, the word's entry and its calendar. -/
def recordOf (T : SsmTable) (e : LabelEntry) (f : WireFields) (cal : Option Calendar) : DecodedWord :=
  { label := e, sdi := f.sdi, data := f.data, ssm := f.ssm, status := ssmStatus T e.kind f.ssm, cal := cal }

/-- DECODE of a word whose fields name a present label raises what reading the calendar raises, and fills the
record otherwise. -/
theorem decodeWord_of_fields {rom : Rom} {T : SsmTable} {w : Word} {f : WireFields} {e : LabelEntry}
    (hf : unpackWord w = .ok f) (hread : romRead rom f.code = some e) :
    decodeWord rom T w = (decodedCalendar e.encoding f.data).map (recordOf T e f) := by
  rw [decodeWord, hf]
  change resolve rom f.code >>= _ = _
  rw [bind_resolve hread]
  cases decodedCalendar e.encoding f.data <;> rfl

/-- A label that is not BCD has no calendar. -/
theorem decodedCalendar_of_not_bcd {e : LabelEntry} (h : e.kind ≠ .bcd) (data : DataField) :
    decodedCalendar e.encoding data = .ok none := by
  cases henc : e.encoding with
  | bnr res => rfl
  | bcd L => exact absurd (kind_bcd_iff.2 ⟨L, henc⟩) h
  | discrete => rfl

/-- The calendar of a BCD label is what its layout reads from the data field. -/
theorem decodedCalendar_bcd (L : Layout) (data : DataField) :
    decodedCalendar (.bcd L) data = (unpackCalendar L data).map some := rfl

/-- Only reading the data field of a BCD label raises a failure. -/
theorem decodedCalendar_eq_error {enc : Encoding} {data : DataField} {f : Failure} :
    decodedCalendar enc data = .error f ↔ ∃ L, enc = .bcd L ∧ unpackCalendar L data = .error f := by
  cases enc with
  | bnr res => simp [decodedCalendar]
  | bcd L => simp [decodedCalendar_bcd, map_eq_error]
  | discrete => simp [decodedCalendar]

/-! ### What the two operations answer -/

/-- DECODE answers exactly the record it returns. -/
theorem exec_decode_eq_decoded {s : State} {w : Word} {d : DecodedWord} :
    exec (.decode w) s = .next (s.answered (.success (.decoded d))) ↔
      decodeWord s.rom s.ssmTable w = .ok d := by
  rw [exec_eq_success, operation, map_eq_ok]
  simp

/-- DECODE answers exactly the failure it raises. -/
theorem exec_decode_eq_failure {s : State} {w : Word} {f : Failure} :
    exec (.decode w) s = .next (s.answered (.failure f)) ↔
      decodeWord s.rom s.ssmTable w = .error f := exec_eq_failure.trans map_eq_error

/-- TO_PHYSICAL answers exactly the failure it raises. -/
theorem exec_toPhysical_eq_failure {s : State} {code : Byte} {data : DataField} {f : Failure} :
    exec (.toPhysical code data) s = .next (s.answered (.failure f)) ↔
      toPhysical s.rom code data = .error f := exec_eq_failure.trans map_eq_error

/-- TO_PHYSICAL of a BNR label answers the physical value of the data field with the label's units. -/
theorem exec_toPhysical_of_bnr {s : State} {code : Byte} {e : LabelEntry} {res : F64}
    (hread : romRead s.rom code = some e) (hres : e.encoding = .bnr res) (data : DataField) :
    exec (.toPhysical code data) s =
      .next (s.answered (.success (.physical (physicalValue e.width res data) e.units))) :=
  exec_eq_success.2 (map_eq_ok.2 ⟨_, bind_bnrResolution hread hres, rfl⟩)

/-- The fields of a word of odd parity (R133). -/
theorem unpackWord_of_odd {w : Word} (h : popcount w % 2 = 1) : unpackWord w = .ok
    { code := reverse8 (w.extractLsb' 0 8), sdi := w.extractLsb' 8 2, data := w.extractLsb' 10 19,
      ssm := w.extractLsb' 29 2 } := by
  rcases unpackWord_cases w with ⟨heven, -⟩ | ⟨-, hok⟩
  · omega
  · exact hok

/-- Settles O43: the parity and the label are looked at first; then the calendar of the label's kind is read,
and the record is filled. -/
theorem decodeFillsTheRecord : Obligations.DecodeFillsTheRecord := by
  unfold Obligations.DecodeFillsTheRecord
  refine ⟨fun f hr hop => decode_decode hr hop, fun s w code d hw hcode hd => ?_⟩
  obtain rfl := eq_reverse8_low hcode
  subst hd
  refine ⟨exec_decode_eq_parityError.2, fun hodd habsent => ?_, fun e hodd hread hk => ?_,
    fun e L hodd hread henc hbad => ?_, fun e L hodd hread henc hdigits hbad => ?_,
    fun e L hodd hread henc hgood => ?_⟩
  · rw [exec_decode_eq_failure, decodeWord, bind_unpackWord_of_odd hodd]
    exact bind_resolve_of_none habsent
  · rw [exec_decode_eq_decoded, decodeWord_of_fields (unpackWord_of_odd hodd) hread,
      decodedCalendar_of_not_bcd hk]
    rfl
  · rw [exec_decode_eq_failure, decodeWord_eq_error_of_bcd hodd hread henc]
    exact unpackCalendar_eq_invalidDigit.2 (not_digitsValid_iff.2 hbad)
  · rw [exec_decode_eq_failure, decodeWord_eq_error_of_bcd hodd hread henc]
    exact unpackCalendar_eq_invalidField.2 ⟨hdigits, not_fieldsInRange_iff.2 hbad⟩
  · have hdigits : DigitsValid L (w.extractLsb' 10 19) := fun f hf =>
      let ⟨htens, hunits, _⟩ := hgood f hf
      ⟨htens, hunits⟩
    have hrange : FieldsInRange L (w.extractLsb' 10 19) := fun f hf => (hgood f hf).2.2
    obtain ⟨c, hc, htag, hvalues⟩ := unpackCalendar_of_valid (bcd_of_read hw hread henc) hdigits hrange
    refine ⟨c, htag, hvalues, ?_⟩
    rw [exec_decode_eq_decoded, decodeWord_of_fields (unpackWord_of_odd hodd) hread, henc,
      decodedCalendar_bcd, hc, ← kind_bcd_iff.2 ⟨L, henc⟩]
    rfl

/-- Settles O44: the label and its kind are looked at first, then both operations answer one value. -/
theorem toPhysicalAddsTheUnits : Obligations.ToPhysicalAddsTheUnits := by
  unfold Obligations.ToPhysicalAddsTheUnits
  refine ⟨fun f hr hop hA => ?_, fun s code data hw =>
    ⟨fun habsent => ?_, fun e hread hk => ?_, fun e res hread hres => ?_⟩⟩
  · rw [decode_toPhysical hr hop, Frame.dataOperand, if_pos hA]
    rfl
  · exact exec_toPhysical_eq_failure.2 (bind_resolve_of_none habsent)
  · exact exec_toPhysical_eq_failure.2 (bind_bnrResolution_of_not_bnr hread hk)
  · obtain ⟨hwidth, -, -, hpos, hmax⟩ := resolution_of_read hw hread hres
    obtain ⟨hnear, -⟩ := physicalValue_spec (by omega) hpos hmax data
    exact ⟨_, hnear, exec_bnrToPhys_of_bnr hread hres data, exec_toPhysical_of_bnr hread hres data⟩

end Sys2Proof.Proofs

/-! PROOFS. DECODE undoes ENCODE (R223): the word gives its fields back, and each form of value comes back from
its data field. -/

namespace Sys2Proof.Proofs

open Sys2Proof.Machine

/-! ### The word -/

/-- An assembled word gives back the fields it was assembled from. -/
theorem unpackWord_assembleWord (code : Byte) (sdi : BitVec 2) (data : DataField) (ssm : BitVec 2) :
    unpackWord (assembleWord code sdi data ssm) =
      .ok { code := code, sdi := sdi, data := data, ssm := ssm } :=
  unpackWord_eq_ok_iff_holds.2 (assembleWord_holds ..)

/-- DECODE of a word that ENCODE returns has the operands' fields and the data field of the value. -/
theorem decodeWord_of_encodeWord {rom : Rom} {tie : Tie} {T : SsmTable} {code sdi ssm : Byte} {v : Value}
    {w : Word} {e : LabelEntry} (hread : romRead rom code = some e)
    (h : encodeWord rom tie code sdi v ssm = .ok w) :
    ∃ f : WireFields, f.sdi.toNat = sdi.toNat ∧ f.ssm.toNat = ssm.toNat ∧ Suits e v ∧
      valueField tie e.width e.encoding v = .ok f.data ∧
      decodeWord rom T w = (decodedCalendar e.encoding f.data).map (recordOf T e f) := by
  obtain ⟨e', hread', hsuits, hsdi, hssm, data, hfield, rfl⟩ := encodeWord_eq_ok.1 h
  obtain rfl := Option.some.inj (hread.symm.trans hread')
  exact ⟨_, toNat_setWidth_of_lt (k := 2) hsdi le_rfl, toNat_setWidth_of_lt (k := 2) hssm le_rfl,
    valueSuits_iff.1 hsuits, hfield, decodeWord_of_fields (unpackWord_assembleWord ..) hread⟩

/-! ### The value -/

/-- The data field of a raw value is the value, which fits the width. -/
theorem valueField_raw_eq_ok {tie : Tie} {width : Nat} {enc : Encoding} {r : Word} {data : DataField}
    (h : valueField tie width enc (.raw r) = .ok data) :
    r.toNat < 2 ^ width ∧ data = r.setWidth 19 := by
  rw [valueField_raw] at h
  rcases Nat.lt_or_ge r.toNat (2 ^ width) with hr | hr
  · exact ⟨hr, Except.ok.inj (h.symm.trans (rawField_of_lt hr))⟩
  · cases h.symm.trans (rawField_of_le hr)

/-- The calendar value of a BCD label's data field is the one packed into it. -/
theorem decodedCalendar_of_valueField {rom : Rom} (hw : romWf rom = true) {tie : Tie} {code : Byte}
    {e : LabelEntry} {c : Calendar} {data : DataField} (hread : romRead rom code = some e)
    (hsuits : Suits e (.calendar c)) (h : valueField tie e.width e.encoding (.calendar c) = .ok data) :
    decodedCalendar e.encoding data = .ok (some c) := by
  obtain ⟨L, henc, htag⟩ := hsuits
  obtain ⟨-, hwidth⟩ := width_of_read hw hread
  rw [valueField_calendar henc] at h
  rw [henc, decodedCalendar_bcd,
    unpackCalendar_of_packCalendar (bcd_of_read hw hread henc) hwidth htag h]
  rfl

/-- Reading a data field raises InvalidDigit or InvalidField (R176). -/
theorem unpackCalendar_eq_error {L : Layout} {d : DataField} {f : Failure}
    (h : unpackCalendar L d = .error f) : f = .invalidDigit ∨ f = .invalidField := by
  rcases unpackCalendar_trichotomy L d with ⟨-, h'⟩ | ⟨-, -, h'⟩ | ⟨-, -, h'⟩
  · exact .inl (Except.error.inj (h.symm.trans h'))
  · exact .inr (Except.error.inj (h.symm.trans h'))
  · cases h.symm.trans h'

/-- Only a raw value under a BCD label has a data field whose calendar cannot be read. -/
theorem raw_of_decodedCalendar_eq_error {rom : Rom} (hw : romWf rom = true) {tie : Tie} {code : Byte}
    {e : LabelEntry} {v : Value} {data : DataField} {f : Failure} (hread : romRead rom code = some e)
    (hsuits : Suits e v) (hfield : valueField tie e.width e.encoding v = .ok data)
    (h : decodedCalendar e.encoding data = .error f) :
    ∃ r, v = .raw r ∧ e.kind = .bcd ∧ (f = .invalidDigit ∨ f = .invalidField) ∧
      bcdToCal rom code (r.setWidth 19) = .error f := by
  obtain ⟨L, henc, hbad⟩ := decodedCalendar_eq_error.1 h
  have hk : e.kind = .bcd := kind_bcd_iff.2 ⟨L, henc⟩
  cases v with
  | physical x => cases hk.symm.trans hsuits
  | calendar c => cases h.symm.trans (decodedCalendar_of_valueField hw hread hsuits hfield)
  | raw r =>
    obtain ⟨-, rfl⟩ := valueField_raw_eq_ok hfield
    exact ⟨r, rfl, hk, unpackCalendar_eq_error hbad, (bcdToCal_of_bcd hread henc _).trans hbad⟩

/-- The physical value of a quantized value's data field is within one resolution step of the value: the value
itself is a binary64 within half a step of the exact product, so the nearest one is too. It is within half a
step where the product needs no second rounding (R154, log entry 20). -/
theorem abs_physicalValue_sub_le {rom : Rom} (hw : romWf rom = true) {tie : Tie} {code : Byte}
    {e : LabelEntry} {res x : F64} {data : DataField} (hread : romRead rom code = some e)
    (henc : e.encoding = .bnr res)
    (h : valueField tie e.width e.encoding (.physical x) = .ok data) :
    |F64.value (physicalValue e.width res data) - F64.value x| ≤ F64.value res ∧
      (IsPowerOfTwo (F64.value res) →
        |F64.value (physicalValue e.width res data) - F64.value x| ≤ F64.value res / 2) := by
  obtain ⟨-, -, -, hpos, -⟩ := resolution_of_read hw hread henc
  rw [valueField_physical henc] at h
  obtain ⟨n, hn, rfl⟩ := map_eq_ok.1 h
  obtain ⟨hx, hround, hin⟩ := (quantize_eq_ok hpos).1 hn
  have hstep := hround.abs_mul_sub_le hpos
  obtain ⟨hnear, -⟩ := physicalValue_bnrField hw hread henc hin
  refine ⟨?_, fun htwo => ?_⟩
  · obtain ⟨hle, -⟩ := hnear.2 x hx
    rw [abs_sub_comm (F64.value x)] at hle
    have htriangle := abs_sub_le (F64.value (physicalValue e.width res (bnrField e.width n)))
      (n * F64.value res) (F64.value x)
    linarith
  · obtain ⟨y, hy, hvalue⟩ := exists_finite_value_eq_mul hw hread henc hin htwo
    rwa [hnear.value_eq hy hvalue]

/-- Settles O45: the word gives back the value's data field, whose calendar reads unless the value is raw,
and the record holds what was encoded. -/
theorem decodeUndoesEncode : Obligations.DecodeUndoesEncode := by
  unfold Obligations.DecodeUndoesEncode
  intro s code sdi ssm v e w hw hread hencode
  obtain ⟨f, hsdi, hssm, hsuits, hfield, hdecode⟩ :=
    decodeWord_of_encodeWord (T := s.ssmTable) hread (exec_encode_eq_word.1 hencode)
  refine ⟨?_, fun d hd => ?_⟩
  · cases hcal : decodedCalendar e.encoding f.data with
    | error g =>
      obtain ⟨r, hv, hk, hg, hbad⟩ := raw_of_decodedCalendar_eq_error hw hread hsuits hfield hcal
      exact .inl ⟨r, g, hv, hk, hg, exec_bcdToCal_eq_failure.2 hbad⟩
    | ok cal =>
      refine .inr ⟨recordOf s.ssmTable e f cal, exec_decode_eq_decoded.2 ?_⟩
      rw [hdecode, hcal]
      rfl
  · rw [exec_decode_eq_decoded, hdecode] at hd
    obtain ⟨cal, hcal, rfl⟩ := map_eq_ok.1 hd
    refine ⟨rfl, hsdi, hssm, rfl, ?_, ?_, ?_⟩
    · rintro x res rfl henc
      exact ⟨_, exec_toPhysical_of_bnr hread henc f.data,
        abs_physicalValue_sub_le hw hread henc hfield⟩
    · rintro c rfl
      exact Except.ok.inj (hcal.symm.trans (decodedCalendar_of_valueField hw hread hsuits hfield))
    · rintro r rfl
      obtain ⟨-, hwidth⟩ := width_of_read hw hread
      obtain ⟨hr, hdata⟩ := valueField_raw_eq_ok hfield
      exact (congrArg BitVec.toNat hdata).trans (toNat_setWidth_of_lt hr hwidth)

end Sys2Proof.Proofs

/-! PROOFS. The failure kinds of the operations (R240): what each shared part raises, and from that what each
operation can raise. The ROM need not be well-formed here. -/

namespace Sys2Proof.Proofs

open Sys2Proof.Machine

/-! ### What the parts raise -/

/-- An operation that reads an entry first raises UnknownLabel, or what it goes on to raise with an entry. -/
theorem bind_resolve_eq_error {rom : Rom} {code : Byte} {α : Type} {g : LabelEntry → Except Failure α}
    {f : Failure} (h : resolve rom code >>= g = .error f) : f = .unknownLabel ∨ ∃ e, g e = .error f := by
  rcases bind_eq_error.1 h with h | ⟨e, -, h⟩
  · exact .inl (resolve_eq_error.1 h).2
  · exact .inr ⟨e, h⟩

/-- Asking for a resolution raises UnsupportedConversion only (R244). -/
theorem bnrResolution_eq_error {e : LabelEntry} {f : Failure} (h : bnrResolution e = .error f) :
    f = .unsupportedConversion := by
  by_cases hk : e.kind = .bnr
  · obtain ⟨res, henc⟩ := kind_bnr_iff.1 hk
    cases (bnrResolution_of_bnr henc).symm.trans h
  · exact Except.error.inj (h.symm.trans (bnrResolution_of_not_bnr hk))

/-- Asking for a layout raises UnsupportedConversion only (R244). -/
theorem bcdLayout_eq_error {e : LabelEntry} {f : Failure} (h : bcdLayout e = .error f) :
    f = .unsupportedConversion := by
  by_cases hk : e.kind = .bcd
  · obtain ⟨L, henc⟩ := kind_bcd_iff.1 hk
    cases (bcdLayout_of_bcd henc).symm.trans h
  · exact Except.error.inj (h.symm.trans (bcdLayout_of_not_bcd hk))

/-- Quantizing raises OutOfRange only, whatever the resolution (R152). -/
theorem quantize_eq_error {tie : Tie} {width : Nat} {res x : F64} {f : Failure}
    (h : quantize tie width res x = .error f) : f = .outOfRange := by
  simp only [quantize] at h
  split at h
  case isFalse => exact (Except.error.inj h).symm
  split at h
  case isTrue => cases h
  case isFalse => exact (Except.error.inj h).symm

/-- Packing a calendar value raises OutOfRange only (R175). -/
theorem packCalendar_eq_error {L : Layout} {c : Calendar} {f : Failure}
    (h : packCalendar L c = .error f) : f = .outOfRange := by
  rcases packCalendar_cases L c with ⟨-, h'⟩ | ⟨-, h'⟩
  · exact Except.error.inj (h.symm.trans h')
  · cases h.symm.trans h'

/-- A raw value raises OutOfRange only (R211). -/
theorem rawField_eq_error {width : Nat} {r : Word} {f : Failure} (h : rawField width r = .error f) :
    f = .outOfRange := by
  rcases Nat.lt_or_ge r.toNat (2 ^ width) with hr | hr
  · cases (rawField_of_lt hr).symm.trans h
  · exact Except.error.inj (h.symm.trans (rawField_of_le hr))

/-- The conversion of a value that suits the label raises OutOfRange only (R210). -/
theorem valueField_eq_error {tie : Tie} {e : LabelEntry} {v : Value} {f : Failure} (hsuits : Suits e v)
    (h : valueField tie e.width e.encoding v = .error f) : f = .outOfRange := by
  cases v with
  | physical x =>
    obtain ⟨res, henc⟩ := kind_bnr_iff.1 hsuits
    rw [valueField_physical henc] at h
    exact quantize_eq_error (map_eq_error.1 h)
  | calendar c =>
    obtain ⟨L, henc, -⟩ := hsuits
    rw [valueField_calendar henc] at h
    exact packCalendar_eq_error h
  | raw r =>
    rw [valueField_raw] at h
    exact rawField_eq_error h

/-! ### What the operations raise (R240) -/

/-- BNR_TO_FIELD's row of the table. -/
theorem bnrToField_eq_error {rom : Rom} {tie : Tie} {code : Byte} {x : F64} {f : Failure}
    (h : bnrToField rom tie code x = .error f) :
    f = .unknownLabel ∨ f = .outOfRange ∨ f = .unsupportedConversion := by
  rcases bind_resolve_eq_error h with hf | ⟨e, h⟩
  · exact .inl hf
  rcases bind_eq_error.1 h with h | ⟨res, -, h⟩
  · exact .inr (.inr (bnrResolution_eq_error h))
  · exact .inr (.inl (quantize_eq_error h))

/-- An operation that only reads an entry and its resolution, as BNR_TO_PHYS and TO_PHYSICAL do, raises
UnknownLabel or UnsupportedConversion: the source's ConversionError (R247). -/
theorem bind_bnrResolution_eq_error {rom : Rom} {code : Byte} {α : Type} {g : LabelEntry → F64 → α}
    {f : Failure} (h : (resolve rom code >>= fun e => bnrResolution e >>= fun res => .ok (g e res)) = .error f) :
    f = .unknownLabel ∨ f = .unsupportedConversion := by
  rcases bind_resolve_eq_error h with hf | ⟨e, h⟩
  · exact .inl hf
  rcases bind_eq_error.1 h with h | ⟨res, -, h⟩
  · exact .inr (bnrResolution_eq_error h)
  · cases h

/-- BCD_TO_FIELD's row of the table. -/
theorem bcdToField_eq_error {rom : Rom} {code : Byte} {c : Calendar} {f : Failure}
    (h : bcdToField rom code c = .error f) :
    f = .unknownLabel ∨ f = .outOfRange ∨ f = .unsupportedConversion := by
  rcases bind_resolve_eq_error h with hf | ⟨e, h⟩
  · exact .inl hf
  rcases bind_eq_error.1 h with h | ⟨L, -, h⟩
  · exact .inr (.inr (bcdLayout_eq_error h))
  split at h
  case isTrue => exact .inr (.inl (packCalendar_eq_error h))
  case isFalse => exact .inr (.inr (Except.error.inj h).symm)

/-- BCD_TO_CAL's row of the table. -/
theorem bcdToCal_eq_error {rom : Rom} {code : Byte} {data : DataField} {f : Failure}
    (h : bcdToCal rom code data = .error f) :
    f = .unknownLabel ∨ f = .unsupportedConversion ∨ f = .invalidDigit ∨ f = .invalidField := by
  rcases bind_resolve_eq_error h with hf | ⟨e, h⟩
  · exact .inl hf
  rcases bind_eq_error.1 h with h | ⟨L, -, h⟩
  · exact .inr (.inl (bcdLayout_eq_error h))
  · exact .inr (.inr (unpackCalendar_eq_error h))

/-- ENCODE's row of the table, the source's EncodeError (R247). -/
theorem encodeWord_eq_error {rom : Rom} {tie : Tie} {code sdi ssm : Byte} {v : Value} {f : Failure}
    (h : encodeWord rom tie code sdi v ssm = .error f) :
    f = .unknownLabel ∨ f = .outOfRange ∨ f = .unsupportedConversion := by
  rcases bind_resolve_eq_error h with hf | ⟨e, h⟩
  · exact .inl hf
  split at h
  case isTrue => exact .inr (.inr (Except.error.inj h).symm)
  case isFalse hsuits =>
    refine .inr (.inl ?_)
    split at h
    case isTrue => exact (Except.error.inj h).symm
    split at h
    case isTrue => exact (Except.error.inj h).symm
    exact valueField_eq_error (valueSuits_iff.1 (by simpa using hsuits)) (map_eq_error.1 h)

/-- DECODE's row of the table, the source's DecodeError (R247). -/
theorem decodeWord_eq_error {rom : Rom} {T : SsmTable} {w : Word} {f : Failure}
    (h : decodeWord rom T w = .error f) :
    f = .unknownLabel ∨ f = .parityError ∨ f = .invalidDigit ∨ f = .invalidField := by
  rcases bind_eq_error.1 h with h | ⟨fields, -, h⟩
  · exact .inr (.inl (unpackWord_eq_error.1 h).2)
  rcases bind_resolve_eq_error h with hf | ⟨e, h⟩
  · exact .inl hf
  rcases bind_eq_error.1 h with h | ⟨cal, -, h⟩
  · obtain ⟨L, -, h⟩ := decodedCalendar_eq_error.1 h
    exact .inr (.inr (unpackCalendar_eq_error h))
  · cases h

/-- An operation that only reads a field of an entry raises UnknownLabel only (R241). -/
theorem map_resolve_eq_error {rom : Rom} {code : Byte} {g : LabelEntry → Result} {f : Failure}
    (h : (resolve rom code).map g = .error f) : f ∈ [Failure.unknownLabel] :=
  List.mem_singleton.2 (resolve_eq_error.1 (map_eq_error.1 h)).2

/-- Every failure an operation raises stands in its row of R240's table. -/
theorem mem_mayRaise_of_operation_eq_error {i : Instr} {rom : Rom} {tie : Tie} {T : SsmTable} {f : Failure}
    (h : operation i rom tie T = .error f) : f ∈ mayRaise i := by
  cases i with
  | lookup code => exact map_resolve_eq_error h
  | labelRaw code => exact map_resolve_eq_error h
  | labelName code => exact map_resolve_eq_error h
  | labelUnits code => exact map_resolve_eq_error h
  | labelOctal code => exact map_resolve_eq_error h
  | ssmInterpret code ssm => exact map_resolve_eq_error h
  | octalParse str => simpa [mayRaise] using parseOctal_eq_error (map_eq_error.1 h)
  | pack code sdi data ssm =>
    rcases packWord_eq_error.1 (map_eq_error.1 h) with ⟨-, rfl⟩ | ⟨e, -, -, rfl⟩
    · simp [mayRaise]
    · simp [mayRaise]
  | unpack w => simpa [mayRaise] using (unpackWord_eq_error.1 (map_eq_error.1 h)).2
  | bnrToField code x => simpa [mayRaise] using bnrToField_eq_error (map_eq_error.1 h)
  | bnrToPhys code data => simpa [mayRaise] using bind_bnrResolution_eq_error (map_eq_error.1 h)
  | bcdToField code c => simpa [mayRaise] using bcdToField_eq_error (map_eq_error.1 h)
  | bcdToCal code data => simpa [mayRaise] using bcdToCal_eq_error (map_eq_error.1 h)
  | encode code sdi v ssm => simpa [mayRaise] using encodeWord_eq_error (map_eq_error.1 h)
  | decode w => simpa [mayRaise] using decodeWord_eq_error (map_eq_error.1 h)
  | toPhysical code data => simpa [mayRaise] using bind_bnrResolution_eq_error (map_eq_error.1 h)

/-- Settles O46: the failure answered is one the operation raises, and each part of an operation raises the
kinds of its row only. -/
theorem operationsRaiseOnlyTheirKinds : Obligations.OperationsRaiseOnlyTheirKinds := by
  unfold Obligations.OperationsRaiseOnlyTheirKinds
  exact fun i s f h => mem_mayRaise_of_operation_eq_error (exec_eq_failure.1 h)

end Sys2Proof.Proofs
